-- ==== Sys2Proof/Word.lean ====
section
/-! DEFINITION. The widths of the block's data: 32-bit command and register words, 16-bit SPI words,
8-bit bus bytes (spec/00_scope.md R9). -/

namespace Sys2Proof

/-- A host command word, a controller register value, a host address, `host.pc` or `host.r`. -/
abbrev Word := BitVec 32

/-- An SPI word (R9: SPI words and the encoder's values are 16-bit). -/
abbrev Half := BitVec 16

/-- An I2C byte, a byte of host memory, a byte of a controller data register. -/
abbrev Byte := BitVec 8

end Sys2Proof
end

