-- ==== Sys2Proof/Config.lean ====
section
/-! DEFINITION. What the spec leaves open: the OPEN parameters of spec/00_scope.md R8, the power-up draw of
the sensor's register 14 and the environment's draws, all opaque: nothing in Lean can evaluate them, so whatever is
proved holds for every value. And the boot premise of a run, which is a predicate on what boot left behind. -/

namespace Sys2Proof

/-- The environment's answers, one number for each draw a run makes (R11: "No law holds of it beyond what
the rule states"). `State.peek` applies it to the count of draws made so far. Free value, log 1. -/
opaque Config.freeDraw : Nat → Nat

/-- One less than `F_SCLK` in Hz: R8 says `0 < F_SCLK <= 12 000 000`. Free value, log 15. -/
opaque Config.fSclkIndex : Fin 12000000

/-- `F_SCLK`, the SPI clock rate actually produced (R8, D8). -/
def Config.fSclk : Nat := Config.fSclkIndex.val + 1

/-- `T_CSS` in ns (R8): least time from `CS_FALL` to the first `SCK_RISE`. Free value, log 15. -/
opaque Config.tCss : Nat

/-- `T_CSH` in ns (R8): least time from the last `SCK_FALL` to `CS_RISE`. Free value, log 15. -/
opaque Config.tCsh : Nat

/-- `T_CSIDLE` in ns (R8): least time `CS_n` stays high between two frames. Free value, log 15. -/
opaque Config.tCsIdle : Nat

/-- `I2C_BASE` (R8, D18): where the controller's registers lie. No rule depends on it. Free value, log 15. -/
opaque Config.i2cBase : Word

/-- `I2C_T_LOW` in ns (R8, D44). No rule depends on it. Free value, log 15. -/
opaque Config.i2cTLow : Nat

/-- `I2C_T_HIGH` in ns (R8, D44). No rule depends on it. Free value, log 15. -/
opaque Config.i2cTHigh : Nat

/-- `I2C_T_SU` in ns (R8, D44). No rule depends on it. Free value, log 15. -/
opaque Config.i2cTSu : Nat

/-- `I2C_T_HD` in ns (R8, D44). No rule depends on it. Free value, log 15. -/
opaque Config.i2cTHd : Nat

/-- `ENC_REG14_INIT` (R8, spec/41_encoder_link.md R155): the sensor's register 14 at power-up, any byte.
Free value, log 15. -/
opaque Config.encReg14Init : Byte

/-- What boot has made of the I2C controller before the host's first step, in the terms of
spec/70_reset_and_hazards.md R304: what its configuration registers amount to. A parameter of a run, not state: no
step reads or writes it (spec/10_state.md R32, log 19). -/
structure BootI2c where
  /-- The peripheral is enabled. -/
  enabled : Bool
  /-- It is a master with 7-bit addressing. -/
  sevenBitMaster : Bool
  /-- Some interrupt enable is 1. -/
  interrupts : Bool
  /-- Clock stretching by slaves is honoured. -/
  stretching : Bool
  /-- A timeout is enabled. -/
  timeout : Bool
  /-- PEC is enabled. -/
  pec : Bool
  /-- The bit timing is fixed. -/
  fixedTiming : Bool
deriving DecidableEq, Repr

/-- `BOOT_I2C_CONFIGURED` (R304), the premise of every run: `Run` and `Reaches` of Sys2Proof/Safety.lean take it. -/
abbrev Config.bootI2cConfigured (b : BootI2c) : Prop :=
  b.enabled = true ∧ b.sevenBitMaster = true ∧ b.interrupts = false ∧ b.stretching = true ∧ b.timeout = false ∧
    b.pec = false ∧ b.fixedTiming = true

end Sys2Proof
end

