-- ==== Sys2Proof/Machine/State.lean ====
section
/-! DEFINITION. The state of the block (spec/10_state.md), the reasons a step can stop, and the reset state
(spec/70_reset_and_hazards.md R300). Plain data throughout. An element the spec marks `unspecified` HOLDS NO VALUE
until a rule writes it (R43): it is an `Option`, `none` at reset (log 5). -/

namespace Sys2Proof.Machine

/-- The agents that have steps of their own (spec/00_scope.md R16, spec/44_host_program.md R258). The SPI slave and
the timer only answer draws inside the steps of these four. -/
inductive Agent where
  | host | spiEngine | i2cEngine | i2cSlave
deriving DecidableEq, Repr

/-- The fault codes of spec/60_exceptions.md R270. -/
inductive FaultCode where
  /-- `F_SPI_CONTRACT`: a split transfer used out of order. -/
  | spiContract
  /-- `F_SPI_UNCONFIG`: a frame before any `SPI_CONFIG`. -/
  | spiUnconfig
  /-- `F_UNWRITTEN`: a read of an `unspecified` element before it is written. -/
  | unwritten
  /-- `F_VERIFY`: the filter verification failed. -/
  | verify
deriving DecidableEq, Repr

/-- The refusal codes of spec/60_exceptions.md R270. -/
inductive RefusalCode where
  /-- `RF_ILLEGAL`: no command can be fetched. -/
  | illegal
  /-- `RF_OPERAND`: an operand value the model gives no meaning to. -/
  | operand
  /-- `RF_ACCESS`: a register access outside the modelled registers. -/
  | access
  /-- `RF_OUT_OF_SCOPE`: a controller feature the source never uses. -/
  | outOfScope
  /-- `RF_BUSY_WRITE`: `CR2` written while a transfer or a request is active. -/
  | busyWrite
deriving DecidableEq, Repr

/-- What ends a host operation before its effect: a fault to record or a refusal to record (R277, R278). -/
inductive Halt where
  | fault (c : FaultCode)
  | refuse (c : RefusalCode)
deriving DecidableEq, Repr

/-- SPI bus events (spec/00_scope.md R12). -/
inductive SpiEvent where
  | csFall
  /-- A rising SCLK edge at which MOSI carries `m` and MISO carries `s`. -/
  | sckRise (m s : Bool)
  | sckFall
  | csRise
deriving DecidableEq, Repr

/-- I2C bus events (R12). ACK is `false`, NACK is `true` (the bit's value). -/
inductive I2cEvent where
  /-- `S`, a START. -/
  | start
  /-- `SR`, a repeated START. -/
  | restart
  /-- `P`, a STOP. -/
  | stop
  /-- `BIT_M(b)`, a bit the master drives. -/
  | bitM (b : Bool)
  /-- `BIT_S(b)`, a bit the slave drives. -/
  | bitS (b : Bool)
  /-- `STRETCH`, the slave holds SCL low. -/
  | stretch
deriving DecidableEq, Repr

/-- An event with the time at which it occurs (spec/10_state.md R44). -/
structure Stamped (ε : Type) where
  time : Nat
  event : ε
deriving DecidableEq, Repr

/-- `spi.phase` (R21). -/
inductive SpiPhase where
  | idle | setup | shift | hold
deriving DecidableEq, Repr

/-- The SPI unit: configuration (R20), engine (R21), bookkeeping (R22), lines (R23) and timestamps (R24). -/
structure SpiUnit where
  configured : Bool
  freqReq : Option Word
  mode : Option (BitVec 2)
  width : Option (BitVec 5)
  phase : SpiPhase
  /-- `spi.bit`: rising edges still to make in this frame, 0 to 16. -/
  bit : Nat
  tx : Option Half
  rx : Option Half
  /-- The word of the running frame, the "word sent" of R119: the model's own field (log 10). -/
  word : Option Half
  pending : Bool
  done : Bool
  result : Option Half
  csN : Bool
  sclk : Bool
  mosi : Option Bool
  tCsFall : Option Nat
  tCsRise : Nat
deriving DecidableEq, Repr

/-- `enc.fs`, the step of a running `ENC_SET_FILTER_US` (R26). -/
inductive FilterStep where
  | none | rdCmd | turn | rdBack | decide | wrCmd | commit | verify
deriving DecidableEq, Repr

/-- The encoder link sequencer (R25 to R27). -/
structure EncLink where
  current : Option Half
  desired : Option Half
  final : Option Half
  fs : FilterStep
  fatal : Bool
deriving DecidableEq, Repr

/-- The live flags of `ISR` (R29). Every other bit of the register is held 0. -/
structure IsrFlags where
  txe : Bool
  txis : Bool
  rxne : Bool
  nackf : Bool
  stopf : Bool
  tc : Bool
  busy : Bool
deriving DecidableEq, Repr

/-- `eng.phase` (R33). -/
inductive EngPhase where
  | idle | addr | addrAck | txWait | txByte | txAck | rxByte | rxWait | rxAck | tcHold | stopPend
deriving DecidableEq, Repr

/-- One side's drive of an open-drain line (R34). -/
inductive Drive where
  | low | released
deriving DecidableEq, Repr

/-- The I2C controller: registers (R28 to R31), master engine (R33) and the master's drive of the lines (R34). -/
structure I2cUnit where
  cr2 : Word
  isr : IsrFlags
  txdr : Byte
  rxdr : Byte
  phase : EngPhase
  /-- `eng.bit`: bits still to move in the current byte, 0 to 8. -/
  bit : Nat
  shift : Option Byte
  /-- `eng.cnt`: data bytes still to move after the address byte, 0 to 255. -/
  cnt : Nat
  /-- `eng.dir`: false write, true read. -/
  dir : Bool
  autoend : Bool
  owner : Bool
  sclDrive : Drive
  sdaDrive : Drive
deriving DecidableEq, Repr

/-- `rd.state` (R35). -/
inductive ReaderState where
  | idle | sentRegister | readingData | complete | error
deriving DecidableEq, Repr

/-- `rd.cause` (R37). -/
inductive ErrorCause where
  | none | busBusy | nack
deriving DecidableEq, Repr

/-- The I2C reader (R35 to R37). -/
structure Reader where
  state : ReaderState
  cause : ErrorCause
  slave : Option (BitVec 7)
  reg : Option Byte
  buf : Option Word
  len : Option Byte
  offset : Option Nat
deriving DecidableEq, Repr

/-- The host (R38). `prog` is a parameter of the run, carried as data (log 6). -/
structure HostUnit where
  pc : Word
  r : Word
  ended : Bool
  prog : List Word
deriving DecidableEq, Repr

/-- A range of host memory that admits byte writes (spec/20_memory.md R62). -/
structure Region where
  base : Nat
  size : Nat
deriving DecidableEq, Repr

/-- Host memory: the bytes written so far, by rising address, and the ranges that admit writes. -/
structure Memory where
  cells : List Host.Cell
  regions : List Region
deriving DecidableEq, Repr

/-- `dev.resp`, the sensor's pending-response kind (spec/10_state.md R45). -/
inductive DevResp where
  | angle
  | regRead (tEnd : Nat)
  | regWrite (v : Byte) (tEnd : Nat)
deriving DecidableEq, Repr

/-- The SPI slave (R45). `inWord` is `dev.in`. -/
structure Device where
  reg14 : Byte
  resp : DevResp
  out : Option Half
  inWord : Option Half
deriving DecidableEq, Repr

/-- The I2C slave: `sl.scl_hold` (R46), and the slave's drive of SDA (R34). -/
structure I2cSlave where
  sclHold : Bool
  sdaDrive : Drive
deriving DecidableEq, Repr

/-- The environment, the model's own fields. `draws` holds answers fixed in advance, `drawn` counts the draws
made (log 1); `sched` holds choices of the scheduler fixed in advance (log 2). -/
structure Env where
  draws : List Nat
  drawn : Nat
  sched : List Agent
deriving DecidableEq, Repr

/-- The whole state. -/
structure State where
  spi : SpiUnit
  enc : EncLink
  i2c : I2cUnit
  rd : Reader
  host : HostUnit
  mem : Memory
  /-- `faults` (R39), a set of codes held as a list with no repeats. -/
  faults : List FaultCode
  /-- `refused` (R39). -/
  refused : Bool
  /-- The code of the recorded refusal (spec/60_exceptions.md R278): the model's own field (log 3). -/
  refusal : Option RefusalCode
  /-- Time in ns (R47). -/
  t : Nat
  traceSpi : List (Stamped SpiEvent)
  traceI2c : List (Stamped I2cEvent)
  dev : Device
  sl : I2cSlave
  env : Env
deriving DecidableEq, Repr

/-- Why the machine takes no further step. -/
inductive Fault where
  /-- A fault code or the fatal mark is recorded: no agent has a step (R27, R39). Raised by `step`; safe. -/
  | recorded (codes : List FaultCode)
  /-- The host program has ended and no engine or slave has a step (spec/44_host_program.md R254). Raised by
  `step`; safe. -/
  | ended
  /-- The host holds for ever and no other agent has a step (spec/60_exceptions.md R272). Raised by `step`; safe. -/
  | stuck
deriving DecidableEq, Repr

/-- Why the model gives no meaning. -/
inductive Refusal where
  /-- An instruction whose meaning is not written. Raised by no arm of this model; safe. -/
  | notModelled (mnemonic : String)
  /-- `refused = 1`: the run has no meaning from here on (R39, R278). Raised by `step`; safe. -/
  | recorded (code : Option RefusalCode)
deriving DecidableEq, Repr

/-- Power-on reset (R300). -/
def State.reset : State where
  spi :=
    { configured := false, freqReq := none, mode := none, width := none, phase := .idle, bit := 0, tx := none,
      rx := none, word := none, pending := false, done := false, result := none, csN := true, sclk := false,
      mosi := none, tCsFall := none, tCsRise := 0 }
  enc := { current := none, desired := none, final := none, fs := .none, fatal := false }
  i2c :=
    { cr2 := 0x00000000#32,
      isr := { txe := true, txis := false, rxne := false, nackf := false, stopf := false, tc := false, busy := false },
      txdr := 0x00#8, rxdr := 0x00#8, phase := .idle, bit := 0, shift := none, cnt := 0, dir := false,
      autoend := false, owner := false, sclDrive := .released, sdaDrive := .released }
  rd := { state := .idle, cause := .none, slave := none, reg := none, buf := none, len := none, offset := none }
  host := { pc := 0#32, r := 0#32, ended := false, prog := [] }
  mem := { cells := [], regions := [{ base := 0, size := 2 ^ 32 }] }
  faults := []
  refused := false
  refusal := none
  t := 0
  traceSpi := []
  traceI2c := []
  dev := { reg14 := Config.encReg14Init, resp := .angle, out := none, inWord := none }
  sl := { sclHold := false, sdaDrive := .released }
  env := { draws := [], drawn := 0, sched := [] }

end Sys2Proof.Machine
end

