-- ==== Sys2Proof/Machine/Ops.lean ====
section
/-! DEFINITION. The named operations every meaning is built from: draws and time, entering a fault or a refusal
(the block's one form of exception, spec/60_exceptions.md R277 and R278), the return from an error (R280), host
memory, the host's own registers, and the bus lines. -/

namespace Sys2Proof.Machine

/-! Draws and time (spec/00_scope.md R11, R13). -/

/-- The environment's answer to the next draw: one fixed in advance if there is one, else a free value (log 1). -/
def State.peek (s : State) : Nat := s.env.draws.headD (Config.freeDraw s.env.drawn)

/-- The next draw as `draw Bits w`. -/
def State.peekBits (w : Nat) (s : State) : BitVec w := BitVec.ofNat w s.peek

/-- The next draw as `draw Bit` or `draw Bool`. -/
def State.peekBit (s : State) : Bool := s.peek % 2 == 1

/-- The state after one draw has been answered. -/
def State.pop (s : State) : State :=
  { s with env := { s.env with draws := s.env.draws.tail, drawn := s.env.drawn + 1 } }

/-- `d <- draw Nat; require d >= least; t <- t + d`: a step that takes at least `least` ns (R13). -/
def State.elapse (least : Nat) (s : State) : State := { s.pop with t := s.t + (least + s.peek) }

/-! Faults, the fatal error and refusals. -/

/-- `raise F`: the code is added to `faults` and nothing else changes (R277). `host.pc` still indexes the
operation. -/
def State.raise (c : FaultCode) (s : State) : State :=
  { s with faults := if c ∈ s.faults then s.faults else s.faults ++ [c] }

/-- `raise E_VERIFY_FAIL`: `enc.fatal <- 1` and `F_VERIFY` is added to `faults` (spec/41_encoder_link.md R153). -/
def State.raiseVerifyFail (s : State) : State :=
  { s with enc := { s.enc with fatal := true } }.raise .verify

/-- `refuse R`: `refused <- 1` and no other state of the block changes (R278). The code is kept for whoever reads
the run (log 3). -/
def State.refuse (c : RefusalCode) (s : State) : State := { s with refused := true, refusal := some c }

/-- Record what ended a host operation. -/
def State.halt : Halt → State → State
  | .fault c, s => s.raise c
  | .refuse c, s => s.refuse c

/-- `faults` is empty, `refused = 0` and `enc.fatal = 0`: the condition every agent's step needs (R27, R39). -/
def State.running (s : State) : Bool := s.faults.isEmpty && !s.refused && !s.enc.fatal

/-- The return from the reader's terminal states, the only return there is (R280): back to `Idle`, the cause
forgotten (spec/43_i2c_reader.md R231). -/
def State.releaseReader (s : State) : State := { s with rd := { s.rd with state := .idle, cause := .none } }

/-- The numeric code of a fault (R270). -/
def FaultCode.code : FaultCode → Byte
  | .spiContract => 0x20#8
  | .spiUnconfig => 0x21#8
  | .unwritten => 0x22#8
  | .verify => 0x23#8

/-- The numeric code of a refusal (R270). -/
def RefusalCode.code : RefusalCode → Byte
  | .illegal => 0x40#8
  | .operand => 0x41#8
  | .access => 0x42#8
  | .outOfScope => 0x43#8
  | .busyWrite => 0x44#8

/-- The numeric code of a reader error (R270): `E_BUS_BUSY`, `E_NACK`. -/
def ErrorCause.code : ErrorCause → Option Byte
  | .none => Option.none
  | .busBusy => some 0x01#8
  | .nack => some 0x02#8

/-- The numeric code of the fatal error `E_VERIFY_FAIL` (R270). -/
def verifyFailCode : Byte := 0x10#8

/-! The host's registers (spec/44_host_program.md R257). -/

/-- `pc <- pc + n`. -/
def State.advance (n : Nat) (s : State) : State :=
  { s with host := { s.host with pc := s.host.pc + BitVec.ofNat 32 n } }

/-- `host.r <- v`. -/
def State.setR (v : Word) (s : State) : State := { s with host := { s.host with r := v } }

/-! Host memory (spec/20_memory.md R60 to R62). -/

/-- The byte a list of cells holds at an address; an unlisted address holds no value (log 7). -/
def cellsRead (a : Nat) : List Host.Cell → Option Byte
  | [] => none
  | (k, b) :: rest => if k = a then some b else cellsRead a rest

/-- Put a byte at an address, keeping the addresses strictly rising. -/
def cellsWrite (a : Nat) (b : Byte) : List Host.Cell → List Host.Cell
  | [] => [(a, b)]
  | (k, c) :: rest =>
    if a < k then (a, b) :: (k, c) :: rest
    else if a = k then (a, b) :: rest
    else (k, c) :: cellsWrite a b rest

/-- The byte host memory holds at an address, if something has been written there. -/
def Memory.read (a : Nat) (m : Memory) : Option Byte := cellsRead a m.cells

/-- `MemWrite(a, 1, b)` (spec/00_scope.md R11). -/
def Memory.write (a : Nat) (b : Byte) (m : Memory) : Memory := { m with cells := cellsWrite a b m.cells }

/-- The host memory admits a byte write at an address (R62). -/
def Memory.admits (a : Nat) (m : Memory) : Bool :=
  m.regions.any fun r => decide (r.base ≤ a) && decide (a < r.base + r.size)

/-- The canonical form: addresses strictly rising. An unlisted address reads as no value, which no entry equals. -/
abbrev Memory.wf (m : Memory) : Prop := (m.cells.map Prod.fst).Pairwise (· < ·)

/-! The I2C lines (spec/10_state.md R34). -/

/-- A wired-AND line's level: 0 if either side pulls it low. -/
def lineLevel (a b : Drive) : Bool := a == .released && b == .released

/-- The level of SCL: the slave pulls it low while it holds the clock. -/
def State.scl (s : State) : Bool :=
  lineLevel s.i2c.sclDrive (if s.sl.sclHold then .low else .released)

/-- The level of SDA. -/
def State.sda (s : State) : Bool := lineLevel s.i2c.sdaDrive s.sl.sdaDrive

/-- A line driven to carry a bit: 0 pulls it low, 1 releases it. -/
def Drive.ofBit (b : Bool) : Drive := if b then .released else .low

/-! Bus traces (R44, spec/42_i2c_transactor.md R208). -/

/-- `emit E` on the SPI bus, stamped with the current time. -/
def State.emitSpi (e : SpiEvent) (s : State) : State := { s with traceSpi := s.traceSpi ++ [⟨s.t, e⟩] }

/-- `emit E` on the I2C bus, stamped with the current time. -/
def State.emitI2c (e : I2cEvent) (s : State) : State := { s with traceI2c := s.traceI2c ++ [⟨s.t, e⟩] }

end Sys2Proof.Machine
end

