-- ==== Sys2Proof/Machine/Operands.lean ====
section
/-! DEFINITION. The fixed values of the spec and the words built from operands: parameters of
spec/00_scope.md R8, the SPI words and the filter table (spec/30_encoding.md R98, R99), the controller's control
words and their fields (R94 to R97, spec/10_state.md R28), status codes (R100), the branch target (R87). -/

namespace Sys2Proof.Machine

/-! Parameters with a value (spec/00_scope.md R8, spec/40_spi_transactor.md R121). -/

/-- `F_SCLK_REQ` in Hz. -/
def fSclkReq : Word := 12000000#32

/-- `SPI_MODE`. -/
def spiMode : BitVec 2 := 0#2

/-- `SPI_WIDTH` in bits. -/
def spiWidth : Nat := 16

/-- `HALF = floor(10^9 / (2 × F_SCLK))` ns, the least time between two SCLK edges (R121). -/
def half : Nat := 1000000000 / (2 * Config.fSclk)

/-- `T_TURN` in ns. -/
def tTurn : Nat := 2000

/-- `T_COMMIT` in ns. -/
def tCommit : Nat := 20000000

/-- `ENC_FILTER_REG`. -/
def encFilterReg : BitVec 5 := 14#5

/-! SPI words (spec/30_encoding.md R98). -/

/-- `W_NOP`. -/
def wNop : Half := 0x0000#16

/-- `W_RD14`: read register 14. -/
def wRd14 : Half := 0b010#3 ++ encFilterReg ++ 0x00#8

/-- `W_WR14(v)`: write `v` to register 14. -/
def wWr14 (v : Byte) : Half := 0b100#3 ++ encFilterReg ++ v

/-- The upper byte of a received word, as a 16-bit value: `zext_16(v[15:8])` (spec/41_encoder_link.md R145). -/
def upperByte (v : Half) : Half := (v.extractLsb' 8 8).setWidth 16

/-- `FilterCode` (R99, spec/41_encoder_link.md R144). -/
def filterCode (f : Half) : Half :=
  if f ≤ 64#16 then 51#16
  else if f ≤ 128#16 then 68#16
  else if f ≤ 256#16 then 102#16
  else if f ≤ 1024#16 then 119#16
  else if f ≤ 2048#16 then 136#16
  else if f ≤ 4096#16 then 153#16
  else if f ≤ 8192#16 then 170#16
  else 187#16

/-! The controller's registers: offsets (spec/20_memory.md R63) and the fields of `CR2` (spec/10_state.md R28). -/

def offCr2 : Byte := 0x04#8
def offIsr : Byte := 0x18#8
def offIcr : Byte := 0x1C#8
def offRxdr : Byte := 0x24#8
def offTxdr : Byte := 0x28#8

/-- The bus address of the controller register at a byte offset (R63). -/
def registerAddress (off : Byte) : Word := Config.i2cBase + off.setWidth 32

/-- `CR2.SADD[7:1]`, the 7-bit slave address. -/
def cr2Address (v : Word) : BitVec 7 := v.extractLsb' 1 7
/-- `CR2.RD_WRN`. -/
def cr2Read (v : Word) : Bool := v.getLsbD 10
/-- `CR2.START`. -/
def cr2Start (v : Word) : Bool := v.getLsbD 13
/-- `CR2.STOP`. -/
def cr2Stop (v : Word) : Bool := v.getLsbD 14
/-- `CR2.NBYTES`. -/
def cr2Nbytes (v : Word) : Byte := v.extractLsb' 16 8
/-- `CR2.AUTOEND`. -/
def cr2Autoend (v : Word) : Bool := v.getLsbD 25

/-- A field of `CR2` marked X is nonzero: `v[11]`, `v[12]`, `v[15]`, `v[24]`, `v[26]` or `v[31:27]`
(spec/42_i2c_transactor.md R173). -/
def cr2OutOfScope (v : Word) : Bool :=
  v.getLsbD 11 || v.getLsbD 12 || v.getLsbD 15 || v.getLsbD 24 || v.getLsbD 26 || v.extractLsb' 27 5 != 0#5

/-- `CR2` with `START` cleared. -/
def cr2ClearStart (v : Word) : Word := v &&& ~~~0x00002000#32
/-- `CR2` with `STOP` cleared. -/
def cr2ClearStop (v : Word) : Word := v &&& ~~~0x00004000#32

/-- `CR2_WR(slave)`, the reader's write-phase value (spec/30_encoding.md R95). -/
def cr2Wr (slave : BitVec 7) : Word := 0x00012000#32 ||| (slave.setWidth 32 <<< 1)

/-- `CR2_RD(slave, len)`, the reader's read-phase value (R96). -/
def cr2Rd (slave : BitVec 7) (len : Byte) : Word :=
  0x02002400#32 ||| (len.setWidth 32 <<< 16) ||| (slave.setWidth 32 <<< 1)

/-- The value that clears `NACKF` (R97). -/
def icrNackcf : Word := 0x00000010#32

/-- The address byte on the bus, `{SADD[7:1], RD_WRN}` (R94, spec/42_i2c_transactor.md R186). -/
def addressByte (cr2 : Word) : Byte := cr2Address cr2 ++ BitVec.ofBool (cr2Read cr2)

/-- A byte shifted out by one bit, most significant first. -/
def shiftOut (b : Byte) : Byte := b <<< 1

/-- A byte with one bit shifted in at bit 0: `trunc_8({b, x})`. -/
def shiftIn (b : Byte) (x : Bool) : Byte := (b <<< 1) ||| (BitVec.ofBool x).setWidth 8

/-! Host operands. -/

/-- `CheckRead` status codes (spec/30_encoding.md R100). -/
def statusNone : Word := 0#32
def statusComplete : Word := 1#32
def statusError : Word := 2#32

/-- The target of `HOST_BNS`: `pc + sext_32(off16)` (R87). -/
def branchTarget (pc : Word) (off : Half) : Word := pc + off.signExtend 32

end Sys2Proof.Machine
end

