-- ==== Sys2Proof/Machine/Device.lean ====
section
/-! DEFINITION. The SPI slave (the angle sensor), an environment agent (spec/41_encoder_link.md R151, R152): what it
does at `CS_FALL`, at each rising edge and at `CS_RISE`. -/

namespace Sys2Proof.Machine

/-- `dev.out <- draw Bits16`. -/
def deviceAnyAnswer (s : State) : State := { s.pop with dev := { s.dev with out := some (s.peekBits 16) } }

/-- `dev.out <- {dev.reg14, draw Bits8}`. -/
def deviceRegAnswer (s : State) : State :=
  { s.pop with dev := { s.dev with out := some (s.dev.reg14 ++ s.peekBits 8) } }

/-- `Device_FrameStart()` at a `CS_FALL` at time `tFall`: the answer of the frame is fixed here (R151). The gap
runs from the command frame's `CS_RISE` (R152). -/
def deviceFrameStart (tFall : Nat) (s : State) : State :=
  match s.dev.resp with
  | .angle => deviceAnyAnswer s
  | .regRead tEnd => if tFall - tEnd ≥ tTurn then deviceRegAnswer s else deviceAnyAnswer s
  | .regWrite _ tEnd => if tFall - tEnd ≥ tCommit then deviceRegAnswer s else deviceAnyAnswer s

/-- `Device_MisoBit(k) = dev.out[k]`. -/
def deviceMisoBit (out : Half) (k : Nat) : Bool := out.getLsbD k

/-- The commit of a write of register 14: the `ok` draw, then, if it is false, a draw of what the register holds
(R151). -/
def deviceCommit (v : Byte) (s : State) : State :=
  if s.peekBit then { s.pop with dev := { s.dev with reg14 := v } }
  else { s.pop.pop with dev := { s.dev with reg14 := s.pop.peekBits 8 } }

/-- `Device_FrameEnd(w)` at a `CS_RISE` at time `tRise`, `w` the word sent (R151). -/
def deviceFrameEnd (w : Half) (tRise : Nat) (s : State) : State :=
  let s := { s with dev := { s.dev with inWord := some w } }
  if w = wRd14 then { s with dev := { s.dev with resp := .regRead tRise } }
  else if w.extractLsb' 8 8 = 0x8E#8 then
    let s := deviceCommit (w.extractLsb' 0 8) s
    { s with dev := { s.dev with resp := .regWrite (w.extractLsb' 0 8) tRise } }
  else { s with dev := { s.dev with resp := .angle } }

end Sys2Proof.Machine
end

