-- ==== Sys2Proof/Machine/Spi.lean ====
section
/-! DEFINITION. The SPI unit: the frame start and the blocking transfer shared by the SPI and encoder operations,
the operations `SPI_CONFIG`, `SPI_XFER`, `SPI_START`, `SPI_FINISH`, and the frame engine
(spec/40_spi_transactor.md). -/

namespace Sys2Proof.Machine

/-! Frame start and end, seen from the host. -/

/-- The checks of `BeginFrame` in their order (R111, spec/60_exceptions.md R274). -/
def frameCheck (s : State) : Option FaultCode :=
  if !s.spi.configured then some .spiUnconfig
  else if s.spi.phase != .idle || s.spi.pending then some .spiContract
  else none

/-- `BeginFrame(w)` past its checks (R111): the idle gap, the engine loaded, `CS_n` low, bit 15 on MOSI. -/
def startFrame (w : Half) (s : State) : State :=
  let tFall := max s.t (s.spi.tCsRise + Config.tCsIdle) + s.peek
  deviceFrameStart tFall
    ({ s.pop with
        t := tFall
        spi := { s.spi with
          tx := some w, rx := some 0x0000#16, bit := 16, done := false, word := some w, csN := false,
          mosi := some w.msb, tCsFall := some tFall, phase := .setup } }.emitSpi .csFall)

/-- `BeginFrame(w)` (R111): its fault, or the frame started. -/
def beginFrame (w : Half) (s : State) : State :=
  match frameCheck s with
  | some c => s.raise c
  | none => startFrame w s

/-- A blocking transfer of the host is under way: no split transfer is pending and a frame runs or has ended
untaken (spec/44_host_program.md R256: the position is held by `spi.pending` and `spi.done`; log 9). -/
def frameInProgress (s : State) : Bool := !s.spi.pending && (s.spi.phase != .idle || s.spi.done)

/-- The awaited condition `spi.phase = IDLE and spi.done = 1` (R112). -/
def frameReady (s : State) : Bool := s.spi.phase == .idle && s.spi.done

/-- Take the received word: `spi.done <- 0`, and the rest of the operation runs on `spi.result` (R112). -/
def takeResult (k : Half → State → State) (s : State) : State :=
  match s.spi.result with
  | none => s.raise .unwritten
  | some v => k v { s with spi := { s.spi with done := false } }

/-- `SpiXfer(w)` and then `k` (spec/41_encoder_link.md, preamble): the frame is begun, or awaited (the host holds:
nothing changes), or its word is taken. -/
def spiTransfer (w : Half) (k : Half → State → State) (s : State) : State :=
  if frameInProgress s then (if frameReady s then takeResult k s else s) else beginFrame w s

/-- `host.r <- zext_32(v); pc <- pc + 1`, the end of a transfer that returns its word. -/
def returnWord (v : Half) (s : State) : State := (s.setR (v.setWidth 32)).advance 1

/-- The split start with word `w` (R113). -/
def splitStart (w : Half) (s : State) : State :=
  match frameCheck s with
  | some c => s.raise c
  | none =>
    let s := startFrame w s
    { s with spi := { s.spi with pending := true } }.advance 1

/-- The split finish (R114): the contract check, the await (the host holds), the word taken. -/
def splitFinish (s : State) : State :=
  if !s.spi.pending then s.raise .spiContract
  else if frameReady s then
    takeResult (fun v s => returnWord v { s with spi := { s.spi with pending := false } }) s
  else s

/-! Host operations. -/

/-- `SPI_CONFIG` past its contract check and operand check (R110). -/
def applyConfig (freq : Word) (mode : BitVec 2) (width : Nat) (s : State) : State :=
  { s with spi := { s.spi with
      freqReq := some freq, mode := some mode, width := some (BitVec.ofNat 5 width), configured := true,
      sclk := mode.getLsbD 1, csN := true } }.advance 2

/-- `SPI_CONFIG freq, mode, width` (R110). -/
def execSpiConfig (freq : Word) (mode : BitVec 2) (width : Nat) (s : State) : Host.Outcome State Fault Refusal :=
  .next (
    if s.spi.phase != .idle || s.spi.pending then s.raise .spiContract
    else if freq != fSclkReq || mode != spiMode || width != spiWidth then s.refuse .operand
    else applyConfig freq mode width s)

/-- `SPI_XFER imm16` (R112). -/
def execSpiXfer (w : Half) (s : State) : Host.Outcome State Fault Refusal := .next (spiTransfer w returnWord s)

/-- `SPI_START imm16` (R113). -/
def execSpiStart (w : Half) (s : State) : Host.Outcome State Fault Refusal := .next (splitStart w s)

/-- `SPI_FINISH` (R114). -/
def execSpiFinish (s : State) : Host.Outcome State Fault Refusal := .next (splitFinish s)

/-! The frame engine. -/

/-- The rules of the SPI engine: rising edge (R117), falling edge (R118), frame end (R119). -/
inductive SpiRule where
  | rise | fall | finish
deriving DecidableEq, Repr

/-- The engine rule that is enabled, if one is (R115, R117 to R119). -/
def spiRule (s : State) : Option SpiRule :=
  match s.spi.phase with
  | .idle => none
  | .setup => if !s.spi.sclk && decide (0 < s.spi.bit) then some .rise else none
  | .shift =>
    if s.spi.sclk then some .fall else if decide (0 < s.spi.bit) then some .rise else none
  | .hold => some .finish

/-- Rising edge (R117): both sides sample. -/
def spiRise (s : State) : State :=
  match s.spi.tx, s.spi.rx, s.dev.out with
  | some tx, some rx, some out =>
    let miso := deviceMisoBit out (s.spi.bit - 1)
    let s := (s.elapse (if s.spi.phase = .setup then Config.tCss else half)).emitSpi (.sckRise tx.msb miso)
    { s with spi := { s.spi with
        sclk := true, rx := some ((rx <<< 1) ||| (BitVec.ofBool miso).setWidth 16), phase := .shift } }
  | _, _, _ => s.raise .unwritten

/-- Falling edge (R118): the next bit is presented, or the last edge is done. -/
def spiFall (s : State) : State :=
  match s.spi.tx with
  | some tx =>
    let s := (s.elapse half).emitSpi .sckFall
    let tx' := tx <<< 1
    let bit' := s.spi.bit - 1
    { s with spi := { s.spi with
        sclk := false, tx := some tx', bit := bit',
        mosi := if bit' > 0 then some tx'.msb else s.spi.mosi,
        phase := if bit' > 0 then s.spi.phase else .hold } }
  | none => s.raise .unwritten

/-- Frame end (R119). MOSI is unspecified from here on (R120). -/
def spiFinishFrame (s : State) : State :=
  match s.spi.rx, s.spi.word with
  | some rx, some w =>
    let s := (s.elapse Config.tCsh).emitSpi .csRise
    deviceFrameEnd w s.t
      { s with spi := { s.spi with
          csN := true, tCsRise := s.t, result := some rx, done := true, phase := .idle, mosi := none } }
  | _, _ => s.raise .unwritten

/-- One step of the SPI engine; no change where no rule is enabled. -/
def spiEngineStep (s : State) : State :=
  match spiRule s with
  | none => s
  | some .rise => spiRise s
  | some .fall => spiFall s
  | some .finish => spiFinishFrame s

end Sys2Proof.Machine
end

