-- ==== Sys2Proof/Machine/Encoder.lean ====
section
/-! DEFINITION. The encoder link sequencer (spec/41_encoder_link.md): `ENC_SAMPLE`, `ENC_START_SAMPLE`,
`ENC_FINISH_SAMPLE`, `ENC_SET_FILTER_US`. -/

namespace Sys2Proof.Machine

/-- `ENC_SAMPLE` (R140). -/
def execEncSample (s : State) : Host.Outcome State Fault Refusal := .next (spiTransfer wNop returnWord s)

/-- `ENC_START_SAMPLE` (R141): the split start with the zero word. -/
def execEncStartSample (s : State) : Host.Outcome State Fault Refusal := .next (splitStart wNop s)

/-- `ENC_FINISH_SAMPLE` (R142). -/
def execEncFinishSample (s : State) : Host.Outcome State Fault Refusal := .next (splitFinish s)

/-! The filter configuration (R145). -/

/-- `enc.fs <- p`. -/
def State.setFs (p : FilterStep) (s : State) : State := { s with enc := { s.enc with fs := p } }

/-- `ENC_SET_FILTER_US` ends normally: `enc.fs <- NONE; pc <- pc + 1`. -/
def filterEnd (s : State) : State := (s.setFs .none).advance 1

/-- Entry: the three transient values are unspecified (spec/10_state.md R25), and the read command is sent (R146). -/
def filterBegin (s : State) : State :=
  beginFrame wRd14
    { s with enc := { s.enc with fs := .rdCmd, current := none, desired := none, final := none } }

/-- Steps 2 and 3 (R147, R148): map the request, then end on a match or go on to the write (R149). -/
def filterDecide (f : Half) (s : State) : State :=
  match s.enc.current with
  | none => s.raise .unwritten
  | some cur =>
    let s := { s with enc := { s.enc with desired := some (filterCode f) } }
    if filterCode f = cur then filterEnd s
    else beginFrame (wWr14 ((filterCode f).extractLsb' 0 8)) (s.setFs .wrCmd)

/-- The read-back has arrived (R146): `enc.current_value` is its upper byte; the decision follows at once. -/
def filterReadBack (f : Half) (v : Half) (s : State) : State :=
  filterDecide f ({ s with enc := { s.enc with current := some (upperByte v) } }.setFs .decide)

/-- The re-read has arrived (R150, R153). -/
def filterVerify (v : Half) (s : State) : State :=
  match s.enc.desired with
  | none => s.raise .unwritten
  | some d =>
    let s := { s with enc := { s.enc with final := some (upperByte v) } }
    if upperByte v = d then filterEnd s else s.raiseVerifyFail

/-- One host step of `ENC_SET_FILTER_US` (R145, spec/44_host_program.md R256): `enc.fs` says where it stands. A
`Wait` is a step of its own (log 9). -/
def filterStep (f : Half) (s : State) : State :=
  match s.enc.fs with
  | .none => filterBegin s
  | .rdCmd => spiTransfer wRd14 (fun _ s => s.setFs .turn) s
  | .turn => (s.elapse tTurn).setFs .rdBack
  | .rdBack => spiTransfer wNop (filterReadBack f) s
  | .decide => filterDecide f s
  | .wrCmd => spiTransfer (wWr14 ((filterCode f).extractLsb' 0 8)) (fun _ s => s.setFs .commit) s
  | .commit => (s.elapse tCommit).setFs .verify
  | .verify => spiTransfer wNop filterVerify s

/-- `ENC_SET_FILTER_US imm16` (R145). -/
def execEncSetFilterUs (f : Half) (s : State) : Host.Outcome State Fault Refusal := .next (filterStep f s)

end Sys2Proof.Machine
end

