-- ==== Sys2Proof/Machine/HostProgram.lean ====
section
/-! DEFINITION. The timer waits and the control operations of the host program (spec/44_host_program.md R251 to R254). -/

namespace Sys2Proof.Machine

/-- `WAIT_US imm24` (R251): at least `n` µs. -/
def execWaitUs (n : BitVec 24) (s : State) : Host.Outcome State Fault Refusal :=
  .next ((s.elapse (1000 * n.toNat)).advance 1)

/-- `WAIT_MS imm24` (R252): at least `n` ms. -/
def execWaitMs (n : BitVec 24) (s : State) : Host.Outcome State Fault Refusal :=
  .next ((s.elapse (1000000 * n.toNat)).advance 1)

/-- `HOST_BNS off16` (R253): branch while `host.r = 0`. -/
def execHostBns (off : Half) (s : State) : Host.Outcome State Fault Refusal :=
  if s.host.r = 0#32 then .next { s with host := { s.host with pc := branchTarget s.host.pc off } }
  else .next (s.advance 1)

/-- `HOST_END` (R254): `host.ended <- 1`, `pc` unchanged. -/
def execHostEnd (s : State) : Host.Outcome State Fault Refusal :=
  .next { s with host := { s.host with ended := true } }

end Sys2Proof.Machine
end

