-- ==== Sys2Proof/Machine/Flags.lean ====
section
/-! DEFINITION. The status flags of the I2C controller (spec/10_state.md R29, R41): the register view of `ISR`
(spec/42_i2c_transactor.md R174) and every rule that sets or clears a flag. -/

namespace Sys2Proof.Machine

/-- The 32-bit value a read of `ISR` returns (R174): `TXE` bit 0, `TXIS` 1, `RXNE` 2, `NACKF` 4, `STOPF` 5, `TC` 6,
`BUSY` 15, 0 everywhere else. -/
def IsrFlags.word (f : IsrFlags) : Word :=
  0#16 ++ BitVec.ofBool f.busy ++ 0#8 ++ BitVec.ofBool f.tc ++ BitVec.ofBool f.stopf ++ BitVec.ofBool f.nackf
    ++ 0#1 ++ BitVec.ofBool f.rxne ++ BitVec.ofBool f.txis ++ BitVec.ofBool f.txe

/-- A write of `ICR` (R176): bit 4 clears `NACKF`, bit 5 clears `STOPF`, the other bits have no effect. -/
def IsrFlags.icrWrite (v : Word) (f : IsrFlags) : IsrFlags :=
  { f with nackf := f.nackf && !v.getLsbD 4, stopf := f.stopf && !v.getLsbD 5 }

/-- A write of `TXDR` (R178): `TXE <- 0`, `TXIS <- 0`. -/
def IsrFlags.txdrWritten (f : IsrFlags) : IsrFlags := { f with txe := false, txis := false }

/-- A read of `RXDR` (R180): `RXNE <- 0`. -/
def IsrFlags.rxdrRead (f : IsrFlags) : IsrFlags := { f with rxne := false }

/-- The engine enters `TX_WAIT` (R192): `TXIS <- TXE`. -/
def IsrFlags.txWaitEntered (f : IsrFlags) : IsrFlags := { f with txis := f.txe }

/-- The engine loads `TXDR` (R192): `TXE <- 1`, `TXIS <- 0`. -/
def IsrFlags.txdrLoaded (f : IsrFlags) : IsrFlags := { f with txe := true, txis := false }

/-- The engine stores a byte in `RXDR` (R194): `RXNE <- 1`. -/
def IsrFlags.rxdrStored (f : IsrFlags) : IsrFlags := { f with rxne := true }

/-- The engine receives a NACK (R190): `NACKF <- 1`. -/
def IsrFlags.nackReceived (f : IsrFlags) : IsrFlags := { f with nackf := true }

/-- A transfer ends with `AUTOEND = 0` (R191): `TC <- 1`. -/
def IsrFlags.transferComplete (f : IsrFlags) : IsrFlags := { f with tc := true }

/-- The engine leaves `TC_HOLD` (R185, R196): `TC <- 0`. -/
def IsrFlags.tcCleared (f : IsrFlags) : IsrFlags := { f with tc := false }

/-- A START from `IDLE` (R185): `BUSY <- 1`. -/
def IsrFlags.busTaken (f : IsrFlags) : IsrFlags := { f with busy := true }

/-- A STOP (R197): `BUSY <- 0`, `STOPF <- 1`. -/
def IsrFlags.stopSent (f : IsrFlags) : IsrFlags := { f with busy := false, stopf := true }

end Sys2Proof.Machine
end

