-- ==== Sys2Proof/Machine/I2cRegs.lean ====
section
/-! DEFINITION. The I2C controller's registers as the host reads and writes them (spec/42_i2c_transactor.md R170 to
R182, spec/20_memory.md R63, R70, R71): `I2C_REG_RD`, `I2C_REG_WR`. -/

namespace Sys2Proof.Machine

/-- The closing phases (R173): the STOP is pending, or the last byte of a read has been received and only its NACK
and the STOP remain. -/
def engClosing (s : State) : Bool :=
  s.i2c.phase == .stopPend || (s.i2c.phase == .rxAck && s.i2c.cnt == 0)

/-- The checks of a `CR2` write, in the order of R173 (spec/60_exceptions.md R274). -/
def cr2WriteCheck (v : Word) (s : State) : Option RefusalCode :=
  if cr2OutOfScope v then some .outOfScope
  else if (s.i2c.phase != .idle && s.i2c.phase != .tcHold && !engClosing s) || cr2Start s.i2c.cr2 || cr2Stop s.i2c.cr2 then
    some .busyWrite
  else if cr2Start v && cr2Stop v then some .outOfScope
  else if cr2Start v && cr2Nbytes v == 0#8 then some .outOfScope
  else if cr2Stop v && s.i2c.phase != .tcHold then some .outOfScope
  else none

/-- `RegWrite(0x04, v)` (R173). -/
def writeCr2 (v : Word) (s : State) : Except RefusalCode State :=
  match cr2WriteCheck v s with
  | some c => .error c
  | none => .ok { s with i2c := { s.i2c with cr2 := v } }

/-- `RegWrite(0x1C, v)` (R176). -/
def writeIcr (v : Word) (s : State) : State :=
  { s with i2c := { s.i2c with isr := s.i2c.isr.icrWrite v } }

/-- `RegWrite(0x28, v)` (R178). -/
def writeTxdr (v : Word) (s : State) : Except RefusalCode State :=
  if v.extractLsb' 8 24 != 0#24 then .error .outOfScope
  else .ok { s with i2c := { s.i2c with txdr := v.extractLsb' 0 8, isr := s.i2c.isr.txdrWritten } }

/-- `RegWrite(off, v)`: `CR2`, `ICR`, `TXDR`; `ISR` (R175), `RXDR` (R181) and every other offset (R182) are refused. -/
def regWrite (off : Byte) (v : Word) (s : State) : Except RefusalCode State :=
  if off = offCr2 then writeCr2 v s
  else if off = offIcr then .ok (writeIcr v s)
  else if off = offTxdr then writeTxdr v s
  else .error .access

/-- `RegRead(0x24)` (R180): the byte, and `RXNE <- 0`. -/
def readRxdr (s : State) : Word × State :=
  (s.i2c.rxdr.setWidth 32, { s with i2c := { s.i2c with isr := s.i2c.isr.rxdrRead } })

/-- `RegRead(off)`: `CR2` (R172), `ISR` (R174), `ICR` reads 0 (R177), `TXDR` (R179), `RXDR` (R180); every other offset
is refused (R182). -/
def regRead (off : Byte) (s : State) : Except RefusalCode (Word × State) :=
  if off = offCr2 then .ok (s.i2c.cr2, s)
  else if off = offIsr then .ok (s.i2c.isr.word, s)
  else if off = offIcr then .ok (0#32, s)
  else if off = offRxdr then .ok (readRxdr s)
  else if off = offTxdr then .ok (s.i2c.txdr.setWidth 32, s)
  else .error .access

/-- `I2C_REG_RD off` (R170). -/
def execI2cRegRd (off : Byte) (s : State) : Host.Outcome State Fault Refusal :=
  match regRead off s with
  | .error c => .next (s.refuse c)
  | .ok (v, s') => .next ((s'.setR v).advance 1)

/-- `I2C_REG_WR off, value` (R171). -/
def execI2cRegWr (off : Byte) (value : Word) (s : State) : Host.Outcome State Fault Refusal :=
  match regWrite off value s with
  | .error c => .next (s.refuse c)
  | .ok s' => .next (s'.advance 2)

end Sys2Proof.Machine
end

