-- ==== Sys2Proof/Machine/Reader.lean ====
section
/-! DEFINITION. The I2C reader sequencer (spec/43_i2c_reader.md): `I2C_START_READ`, `I2C_POLL`, `I2C_CHECK_READ`. -/

namespace Sys2Proof.Machine

/-! The per-transaction fields, valid only while `rd.state ≠ Idle` (spec/10_state.md R36, log 13). -/

def Reader.slaveVal (r : Reader) : Option (BitVec 7) := if r.state = .idle then none else r.slave
def Reader.bufVal (r : Reader) : Option Word := if r.state = .idle then none else r.buf
def Reader.lenVal (r : Reader) : Option Byte := if r.state = .idle then none else r.len

/-- `rd.offset`. In `SentRegister`, and in an `Error` entered before R227 has written it, the spec leaves open whether it
holds a value (R234: "in every state in which it is defined"); the model keeps what the transaction before left, which may
lie above the new `rd.len` (DESIGN CHOICE, log 26). No rule reads it there. -/
def Reader.offsetVal (r : Reader) : Option Nat := if r.state = .idle then none else r.offset

/-! `I2C_START_READ`. -/

/-- The normal start (R225): store the fields, `CR2 <- CR2_WR(slave)`, `TXDR <- reg`, `SentRegister`. -/
def startTransaction (slave : BitVec 7) (reg : Byte) (buf : Word) (len : Byte) (s : State) : Except RefusalCode State :=
  match regWrite offCr2 (cr2Wr slave)
      { s with rd := { s.rd with slave := some slave, reg := some reg, buf := some buf, len := some len } } with
  | .error c => .error c
  | .ok s =>
    match regWrite offTxdr (reg.setWidth 32) s with
    | .error c => .error c
    | .ok s => .ok { s with rd := { s.rd with state := .sentRegister } }

/-- `I2C_START_READ slave, reg, buf, len` (R221): operand refusal (R222), no-op outside `Idle` (R223), bus-busy error
(R224), normal start (R225). A refused register write refuses the whole operation, which then changes nothing else
(spec/60_exceptions.md R278, log 18). -/
def execI2cStartRead (slave : BitVec 7) (reg : Byte) (buf : Word) (len : Byte) (s : State) :
    Host.Outcome State Fault Refusal :=
  if len = 0#8 then .next (s.refuse .operand)
  else if s.rd.state ≠ .idle then .next (s.advance 2)
  else if cr2Start s.i2c.cr2 then .next ({ s with rd := { s.rd with state := .error, cause := .busBusy } }.advance 2)
  else
    match startTransaction slave reg buf len s with
    | .error c => .next (s.refuse c)
    | .ok s' => .next (s'.advance 2)

/-! `I2C_POLL`. -/

/-- The host address the next received byte goes to: `rd.buf + rd.offset`, a natural number (log 17). -/
def readerTarget (s : State) : Option Nat :=
  match s.rd.bufVal, s.rd.offsetVal with
  | some b, some o => some (b.toNat + o)
  | _, _ => none

/-- `Poll` would write a byte host memory does not admit: the host is stuck in `I2C_POLL`
(spec/20_memory.md R62, spec/60_exceptions.md R272). -/
def pollBlocked (s : State) : Bool :=
  s.rd.state == .readingData && s.i2c.isr.rxne &&
    match readerTarget s with
    | some a => !s.mem.admits a
    | none => false

/-- The `SentRegister` step on a sampled `TC = 1` (R227). -/
def pollSentRegister (s : State) : Except Halt State :=
  match s.rd.slaveVal, s.rd.lenVal with
  | some slave, some len =>
    match regWrite offCr2 (cr2Rd slave len) s with
    | .error c => .error (.refuse c)
    | .ok s => .ok { s with rd := { s.rd with offset := some 0, state := .readingData } }
  | _, _ => .error (.fault .unwritten)

/-- The `ReadingData` step on a sampled `RXNE = 1` (R228): one byte from `RXDR` to `buf[rd.offset]`. -/
def pollReadingData (s : State) : Except Halt State :=
  match s.rd.bufVal, s.rd.lenVal, s.rd.offsetVal with
  | some buf, some len, some offset =>
    let (v, s) := readRxdr s
    .ok { s with
      mem := s.mem.write (buf.toNat + offset) (v.extractLsb' 0 8)
      rd := { s.rd with
        offset := some (offset + 1), state := if offset + 1 = len.toNat then .complete else s.rd.state } }
  | _, _, _ => .error (.fault .unwritten)

/-- The per-state action of `Poll`, decided from the one `ISR` sample (R226, R229, R233). -/
def pollAction (sample : IsrFlags) (s : State) : Except Halt State :=
  match s.rd.state with
  | .sentRegister => if sample.tc then pollSentRegister s else .ok s
  | .readingData => if sample.rxne then pollReadingData s else .ok s
  | .idle => .ok s
  | .complete => .ok s
  | .error => .ok s

/-- The NACK override, decided from the same sample (R230): `ICR <- 0x10`, `Error`, cause `NACK`. -/
def pollNack (sample : IsrFlags) (s : State) : State :=
  if sample.nackf then
    let s := writeIcr icrNackcf s
    { s with rd := { s.rd with state := .error, cause := .nack } }
  else s

/-- `I2C_POLL` (R226). Where the buffer byte is not admitted the host holds: nothing changes. -/
def execI2cPoll (s : State) : Host.Outcome State Fault Refusal :=
  if pollBlocked s then .next s
  else
    match pollAction s.i2c.isr s with
    | .error h => .next (s.halt h)
    | .ok s' => .next ((pollNack s.i2c.isr s').advance 1)

/-! `I2C_CHECK_READ`. -/

/-- `I2C_CHECK_READ` (R231): a terminal result is returned once and the reader goes back to `Idle`. -/
def execI2cCheckRead (s : State) : Host.Outcome State Fault Refusal :=
  match s.rd.state with
  | .complete => .next ((s.releaseReader.setR statusComplete).advance 1)
  | .error => .next ((s.releaseReader.setR statusError).advance 1)
  | .idle => .next ((s.setR statusNone).advance 1)
  | .sentRegister => .next ((s.setR statusNone).advance 1)
  | .readingData => .next ((s.setR statusNone).advance 1)

end Sys2Proof.Machine
end

