-- ==== Sys2Proof/Syntax.lean ====
section
/-! DEFINITION. The host operations: one constructor for each of the 17 rows of spec/opcode_table.json
(spec/30_encoding.md R88). Operands are the fields of the operation's format (R81 to R87). -/

namespace Sys2Proof

/-- A host operation with its operands. -/
inductive Instr where
  /-- `spi.config freq, mode, width` (spec/40_spi_transactor.md R110). `width` is the word width in bits,
  1 to 32: the encoded field 0 means 32 (R86). -/
  | spiConfig (freq : Word) (mode : BitVec 2) (width : Nat)
  /-- `spi.xfer imm16` (R112). -/
  | spiXfer (w : Half)
  /-- `spi.start imm16` (R113). -/
  | spiStart (w : Half)
  /-- `spi.finish` (R114). -/
  | spiFinish
  /-- `enc.sample` (spec/41_encoder_link.md R140). -/
  | encSample
  /-- `enc.start_sample` (R141). -/
  | encStartSample
  /-- `enc.finish_sample` (R142). -/
  | encFinishSample
  /-- `enc.set_filter_us imm16` (R145). -/
  | encSetFilterUs (filterUs : Half)
  /-- `i2c.rd off` (spec/42_i2c_transactor.md R170). -/
  | i2cRegRd (off : Byte)
  /-- `i2c.wr off, value` (R171). -/
  | i2cRegWr (off : Byte) (value : Word)
  /-- `i2c.start_read slave, reg, buf, len` (spec/43_i2c_reader.md R221). -/
  | i2cStartRead (slave : BitVec 7) (reg : Byte) (buf : Word) (len : Byte)
  /-- `i2c.poll` (R226). -/
  | i2cPoll
  /-- `i2c.check_read` (R231). -/
  | i2cCheckRead
  /-- `wait.us imm24` (spec/44_host_program.md R251). -/
  | waitUs (n : BitVec 24)
  /-- `wait.ms imm24` (R252). -/
  | waitMs (n : BitVec 24)
  /-- `host.bns off16` (R253). -/
  | hostBns (off : Half)
  /-- `host.end` (R254). -/
  | hostEnd
deriving DecidableEq, Repr

end Sys2Proof
end

