-- ==== Sys2Proof/Machine/Dispatch.lean ====
section
/-! DEFINITION. One arm per host operation, in the order of spec/opcode_table.json. -/

namespace Sys2Proof.Machine

def exec (i : Instr) (s : State) : Host.Outcome State Fault Refusal :=
  match i with
  | .spiConfig freq mode width => Sys2Proof.Machine.execSpiConfig freq mode width s
  | .spiXfer w => Sys2Proof.Machine.execSpiXfer w s
  | .spiStart w => Sys2Proof.Machine.execSpiStart w s
  | .spiFinish => Sys2Proof.Machine.execSpiFinish s
  | .encSample => Sys2Proof.Machine.execEncSample s
  | .encStartSample => Sys2Proof.Machine.execEncStartSample s
  | .encFinishSample => Sys2Proof.Machine.execEncFinishSample s
  | .encSetFilterUs f => Sys2Proof.Machine.execEncSetFilterUs f s
  | .i2cRegRd off => Sys2Proof.Machine.execI2cRegRd off s
  | .i2cRegWr off value => Sys2Proof.Machine.execI2cRegWr off value s
  | .i2cStartRead slave reg buf len => Sys2Proof.Machine.execI2cStartRead slave reg buf len s
  | .i2cPoll => Sys2Proof.Machine.execI2cPoll s
  | .i2cCheckRead => Sys2Proof.Machine.execI2cCheckRead s
  | .waitUs n => Sys2Proof.Machine.execWaitUs n s
  | .waitMs n => Sys2Proof.Machine.execWaitMs n s
  | .hostBns off => Sys2Proof.Machine.execHostBns off s
  | .hostEnd => Sys2Proof.Machine.execHostEnd s

end Sys2Proof.Machine
end

