-- ==== Sys2Proof/WellFormed.lean ====
section
/-! DEFINITION. Which terms of `Instr` stand for a command: every operand must have a value its field can hold.
All operands but one are bit vectors of the field's own width; the SPI word width is a number, and its five-bit
field holds 1 to 32 (spec/30_encoding.md R86). Whether an operand VALUE is legal is each operation's own check
(R91), not this one. -/

namespace Sys2Proof

/-- The operands fit the fields of the operation's format. -/
def Instr.wellFormed : Instr → Bool
  | .spiConfig _ _ width => decide (1 ≤ width) && decide (width ≤ 32)
  | .spiXfer _ => true
  | .spiStart _ => true
  | .spiFinish => true
  | .encSample => true
  | .encStartSample => true
  | .encFinishSample => true
  | .encSetFilterUs _ => true
  | .i2cRegRd _ => true
  | .i2cRegWr _ _ => true
  | .i2cStartRead _ _ _ _ => true
  | .i2cPoll => true
  | .i2cCheckRead => true
  | .waitUs _ => true
  | .waitMs _ => true
  | .hostBns _ => true
  | .hostEnd => true

end Sys2Proof
end

