-- ==== Sys2Proof/Decode.lean ====
section
/-! DEFINITION. The command words: the decoder (spec/30_encoding.md R80 to R91, spec/44_host_program.md R255),
total on any list of words and rejecting by name, and the encoder after it, both from the table of R88. -/

namespace Sys2Proof

/-- Why no command can be read. All three are the refusal `RF_ILLEGAL` (R89, R255). -/
inductive DecodeError where
  /-- `host.pc` is beyond the program. -/
  | noWord
  /-- Word 0 matches no row of R88: an unlisted opcode, or a nonzero must-be-zero bit. -/
  | illegal (w0 : Word)
  /-- A two-word command whose second word is missing. -/
  | missingWord (w0 : Word)
deriving DecidableEq, Repr

/-- `OPC = w0[31:24]` (R80). -/
def opcode (w0 : Word) : Byte := w0.extractLsb' 24 8

/-- Format `F0` (R81): no operand, `w0[23:0]` must be 0. -/
def formF0 (i : Instr) (w0 : Word) : Option Instr :=
  if w0.extractLsb' 0 24 = 0#24 then some i else none

/-- Format `FI16`, and the fields of `FBR` (R82, R87): `w0[23:16]` must be 0, the operand is `w0[15:0]`. -/
def formFI16 (mk : Half → Instr) (w0 : Word) : Option Instr :=
  if w0.extractLsb' 16 8 = 0#8 then some (mk (w0.extractLsb' 0 16)) else none

/-- Format `FI24` (R83): the operand is `w0[23:0]`. -/
def formFI24 (mk : BitVec 24 → Instr) (w0 : Word) : Option Instr :=
  some (mk (w0.extractLsb' 0 24))

/-- The `w0` fields of formats `FREG` and `FREGW` (R85): `w0[23:8]` must be 0, `off = w0[7:0]`. -/
def formFREG (mk : Byte → Instr) (w0 : Word) : Option Instr :=
  if w0.extractLsb' 8 16 = 0#16 then some (mk (w0.extractLsb' 0 8)) else none

/-- The `w0` fields of format `FRD` (R84): `w0[23]` must be 0, `slave = w0[22:16]`, `reg = w0[15:8]`,
`len = w0[7:0]`. -/
def formFRD (mk : BitVec 7 → Byte → Byte → Instr) (w0 : Word) : Option Instr :=
  if w0.extractLsb' 23 1 = 0#1 then
    some (mk (w0.extractLsb' 16 7) (w0.extractLsb' 8 8) (w0.extractLsb' 0 8))
  else none

/-- The word width a five-bit field stands for: 0 means 32 (R86). -/
def widthOfField (f : BitVec 5) : Nat := if f = 0#5 then 32 else f.toNat

/-- The `w0` fields of format `FCFG` (R86): `w0[23:13]` and `w0[7:2]` must be 0, `width = w0[12:8]`,
`mode = w0[1:0]`. -/
def formFCFG (mk : BitVec 2 → Nat → Instr) (w0 : Word) : Option Instr :=
  if w0.extractLsb' 13 11 = 0#11 ∧ w0.extractLsb' 2 6 = 0#6 then
    some (mk (w0.extractLsb' 0 2) (widthOfField (w0.extractLsb' 8 5)))
  else none

/-- The opcodes whose commands have a second word (R90). -/
def hasSecondWord (opc : Byte) : Bool := opc == 0x01#8 || opc == 0x21#8 || opc == 0x30#8

/-- The row of R88 that word 0 selects, with its operands; `w1` is used by the two-word formats alone. -/
def decodeWords (w0 w1 : Word) : Option Instr :=
  let opc := opcode w0
  if opc = 0x01#8 then formFCFG (fun mode width => .spiConfig w1 mode width) w0
  else if opc = 0x02#8 then formFI16 .spiXfer w0
  else if opc = 0x03#8 then formFI16 .spiStart w0
  else if opc = 0x04#8 then formF0 .spiFinish w0
  else if opc = 0x10#8 then formF0 .encSample w0
  else if opc = 0x11#8 then formF0 .encStartSample w0
  else if opc = 0x12#8 then formF0 .encFinishSample w0
  else if opc = 0x13#8 then formFI16 .encSetFilterUs w0
  else if opc = 0x20#8 then formFREG .i2cRegRd w0
  else if opc = 0x21#8 then formFREG (fun off => .i2cRegWr off w1) w0
  else if opc = 0x30#8 then formFRD (fun slave reg len => .i2cStartRead slave reg w1 len) w0
  else if opc = 0x31#8 then formF0 .i2cPoll w0
  else if opc = 0x32#8 then formF0 .i2cCheckRead w0
  else if opc = 0x40#8 then formFI24 .waitUs w0
  else if opc = 0x41#8 then formFI24 .waitMs w0
  else if opc = 0x50#8 then formFI16 .hostBns w0
  else if opc = 0xFF#8 then formF0 .hostEnd w0
  else none

/-- Read one command at the head of a list of words, in the order of R255: no word, no matching row, no second
word. -/
def decode : List Word → Except DecodeError Instr
  | [] => .error .noWord
  | [w0] =>
    match decodeWords w0 0#32 with
    | none => .error (.illegal w0)
    | some i => if hasSecondWord (opcode w0) then .error (.missingWord w0) else .ok i
  | w0 :: w1 :: _ =>
    match decodeWords w0 w1 with
    | none => .error (.illegal w0)
    | some i => .ok i

/-- The length of a command in words (R90). -/
def Instr.words : Instr → Nat
  | .spiConfig _ _ _ => 2
  | .spiXfer _ => 1
  | .spiStart _ => 1
  | .spiFinish => 1
  | .encSample => 1
  | .encStartSample => 1
  | .encFinishSample => 1
  | .encSetFilterUs _ => 1
  | .i2cRegRd _ => 1
  | .i2cRegWr _ _ => 2
  | .i2cStartRead _ _ _ _ => 2
  | .i2cPoll => 1
  | .i2cCheckRead => 1
  | .waitUs _ => 1
  | .waitMs _ => 1
  | .hostBns _ => 1
  | .hostEnd => 1

/-- The command words of an operation, written from the same table (R81 to R88). -/
def encode : Instr → List Word
  | .spiConfig freq mode width => [0x01#8 ++ 0#11 ++ BitVec.ofNat 5 width ++ 0#6 ++ mode, freq]
  | .spiXfer w => [0x02#8 ++ 0#8 ++ w]
  | .spiStart w => [0x03#8 ++ 0#8 ++ w]
  | .spiFinish => [0x04#8 ++ 0#24]
  | .encSample => [0x10#8 ++ 0#24]
  | .encStartSample => [0x11#8 ++ 0#24]
  | .encFinishSample => [0x12#8 ++ 0#24]
  | .encSetFilterUs f => [0x13#8 ++ 0#8 ++ f]
  | .i2cRegRd off => [0x20#8 ++ 0#16 ++ off]
  | .i2cRegWr off value => [0x21#8 ++ 0#16 ++ off, value]
  | .i2cStartRead slave reg buf len => [0x30#8 ++ 0#1 ++ slave ++ reg ++ len, buf]
  | .i2cPoll => [0x31#8 ++ 0#24]
  | .i2cCheckRead => [0x32#8 ++ 0#24]
  | .waitUs n => [0x40#8 ++ n]
  | .waitMs n => [0x41#8 ++ n]
  | .hostBns off => [0x50#8 ++ 0#8 ++ off]
  | .hostEnd => [0xFF#8 ++ 0#24]

/-- A row of the opcode map (R88): an operation is selected when `(w0 & mask) = match`. -/
structure OpcodeRow where
  mnemonic : String
  words : Nat
  matchWord : Word
  mask : Word
deriving DecidableEq, Repr

/-- The opcode map (R88), row by row. -/
def opcodeTable : List OpcodeRow :=
  [ ⟨"SPI_CONFIG", 2, 0x01000000#32, 0xFFFFE0FC#32⟩,
    ⟨"SPI_XFER", 1, 0x02000000#32, 0xFFFF0000#32⟩,
    ⟨"SPI_START", 1, 0x03000000#32, 0xFFFF0000#32⟩,
    ⟨"SPI_FINISH", 1, 0x04000000#32, 0xFFFFFFFF#32⟩,
    ⟨"ENC_SAMPLE", 1, 0x10000000#32, 0xFFFFFFFF#32⟩,
    ⟨"ENC_START_SAMPLE", 1, 0x11000000#32, 0xFFFFFFFF#32⟩,
    ⟨"ENC_FINISH_SAMPLE", 1, 0x12000000#32, 0xFFFFFFFF#32⟩,
    ⟨"ENC_SET_FILTER_US", 1, 0x13000000#32, 0xFFFF0000#32⟩,
    ⟨"I2C_REG_RD", 1, 0x20000000#32, 0xFFFFFF00#32⟩,
    ⟨"I2C_REG_WR", 2, 0x21000000#32, 0xFFFFFF00#32⟩,
    ⟨"I2C_START_READ", 2, 0x30000000#32, 0xFF800000#32⟩,
    ⟨"I2C_POLL", 1, 0x31000000#32, 0xFFFFFFFF#32⟩,
    ⟨"I2C_CHECK_READ", 1, 0x32000000#32, 0xFFFFFFFF#32⟩,
    ⟨"WAIT_US", 1, 0x40000000#32, 0xFF000000#32⟩,
    ⟨"WAIT_MS", 1, 0x41000000#32, 0xFF000000#32⟩,
    ⟨"HOST_BNS", 1, 0x50000000#32, 0xFFFF0000#32⟩,
    ⟨"HOST_END", 1, 0xFF000000#32, 0xFFFFFFFF#32⟩ ]

/-- Word 0 selects a row of the opcode map (R88). -/
abbrev OpcodeRow.selects (row : OpcodeRow) (w0 : Word) : Prop := w0 &&& row.mask = row.matchWord

/-- The mnemonic of an operation, as the opcode map spells it. -/
def Instr.mnemonic : Instr → String
  | .spiConfig _ _ _ => "SPI_CONFIG"
  | .spiXfer _ => "SPI_XFER"
  | .spiStart _ => "SPI_START"
  | .spiFinish => "SPI_FINISH"
  | .encSample => "ENC_SAMPLE"
  | .encStartSample => "ENC_START_SAMPLE"
  | .encFinishSample => "ENC_FINISH_SAMPLE"
  | .encSetFilterUs _ => "ENC_SET_FILTER_US"
  | .i2cRegRd _ => "I2C_REG_RD"
  | .i2cRegWr _ _ => "I2C_REG_WR"
  | .i2cStartRead _ _ _ _ => "I2C_START_READ"
  | .i2cPoll => "I2C_POLL"
  | .i2cCheckRead => "I2C_CHECK_READ"
  | .waitUs _ => "WAIT_US"
  | .waitMs _ => "WAIT_MS"
  | .hostBns _ => "HOST_BNS"
  | .hostEnd => "HOST_END"

/-- The two words an opcode-table row's bits stand for: bits 31..0 are word 0, bits 63..32 are word 1, and every
bit at or above `nbits` is 0. The longest command has two words. -/
def tableWords (nbits w : Nat) : List Word :=
  let v := w % 2 ^ nbits
  [BitVec.ofNat 32 v, BitVec.ofNat 32 (v / 2 ^ 32)]

/-- The instruction the decoder reads from a row's bits; `none` where it refuses. The program is a list of
32-bit words (R250), so no byte order enters. -/
def decodeTableWord (nbits w : Nat) : Option Instr :=
  match decode (tableWords nbits w) with
  | .ok i => some i
  | .error _ => none

end Sys2Proof
end

