-- ==== Sys2Proof/Machine/I2cEngine.lean ====
section
/-! DEFINITION. The I2C master engine and the I2C slave's own steps (spec/42_i2c_transactor.md R183 to R208). Each step
that emits a bus event first advances `t` by a draw (R205) and stamps its event with the time reached. Between steps,
while the master owns the bus, SCL is low: driven by the master (R207), but in a hold by the slave, the master waiting
with SCL released (R198, log 24); the drives of SDA that a step leaves are those of its last bit (log 11). -/

namespace Sys2Proof.Machine

/-- The rules of the engine. -/
inductive EngRule where
  /-- R185 -/
  | start
  /-- R187 -/
  | sendBit
  /-- R188 -/
  | addrAck
  /-- R189 -/
  | dataAck
  /-- R192 -/
  | txLoad
  /-- R193 -/
  | recvBit
  /-- R194 -/
  | rxStore
  /-- R195 -/
  | masterAck
  /-- R196 -/
  | stopRequest
  /-- R197 -/
  | stop
deriving DecidableEq, Repr

/-- The engine rule that is enabled, if one is (R183 to R197). A clocked rule needs `sl.scl_hold = 0`. -/
def engRule (s : State) : Option EngRule :=
  let free := !s.sl.sclHold
  match s.i2c.phase with
  | .idle => if cr2Start s.i2c.cr2 then some .start else none
  | .addr => if free && decide (0 < s.i2c.bit) then some .sendBit else none
  | .addrAck => if free then some .addrAck else none
  | .txWait => if !s.i2c.isr.txe then some .txLoad else none
  | .txByte => if free && decide (0 < s.i2c.bit) then some .sendBit else none
  | .txAck => if free then some .dataAck else none
  | .rxByte => if free && decide (0 < s.i2c.bit) then some .recvBit else none
  | .rxWait => if !s.i2c.isr.rxne then some .rxStore else none
  | .rxAck => if free then some .masterAck else none
  | .tcHold =>
    if cr2Start s.i2c.cr2 && free then some .start
    else if cr2Stop s.i2c.cr2 then some .stopRequest
    else none
  | .stopPend => if free then some .stop else none

/-! What the bus events leave on the lines (R34, R207). -/

/-- After a bit the master drives: SCL low, the master's SDA as the bit, the slave's SDA released. -/
def State.masterBit (b : Bool) (s : State) : State :=
  { s.emitI2c (.bitM b) with
    i2c := { s.i2c with sclDrive := .low, sdaDrive := .ofBit b }
    sl := { s.sl with sdaDrive := .released } }

/-- After a bit the slave drives: SCL low, the master's SDA released, the slave's SDA as the bit. -/
def State.slaveBit (b : Bool) (s : State) : State :=
  { s.emitI2c (.bitS b) with
    i2c := { s.i2c with sclDrive := .low, sdaDrive := .released }
    sl := { s.sl with sdaDrive := .ofBit b } }

/-! The helpers of the rules. -/

/-- `Nack()` (R190). -/
def engNack (s : State) : State :=
  { s with i2c := { s.i2c with
      isr := s.i2c.isr.nackReceived, cr2 := cr2ClearStart s.i2c.cr2, phase := .stopPend } }

/-- `EnterTxWait()` (R192). -/
def engEnterTxWait (s : State) : State :=
  { s with i2c := { s.i2c with phase := .txWait, isr := s.i2c.isr.txWaitEntered } }

/-- `EndOfTransfer()` (R191). -/
def engEndOfTransfer (s : State) : State :=
  if s.i2c.autoend then { s with i2c := { s.i2c with phase := .stopPend } }
  else { s with i2c := { s.i2c with isr := s.i2c.isr.transferComplete, phase := .tcHold } }

/-! The rules. -/

/-- START from `IDLE`, repeated START from `TC_HOLD` (R185); the address byte is loaded (R186). -/
def engStart (s : State) : State :=
  let fresh := s.i2c.phase == .idle
  let s := (s.elapse 0).emitI2c (if fresh then .start else .restart)
  { s with
    i2c := { s.i2c with
      owner := if fresh then true else s.i2c.owner
      isr := if fresh then s.i2c.isr.busTaken else s.i2c.isr.tcCleared
      dir := cr2Read s.i2c.cr2, autoend := cr2Autoend s.i2c.cr2, cnt := (cr2Nbytes s.i2c.cr2).toNat
      shift := some (addressByte s.i2c.cr2), bit := 8, phase := .addr
      sclDrive := .low, sdaDrive := .low }
    sl := { s.sl with sdaDrive := .released } }

/-- The master sends a bit (R187). -/
def engSendBit (s : State) : State :=
  match s.i2c.shift with
  | none => s.raise .unwritten
  | some b =>
    let ack := if s.i2c.phase = .addr then EngPhase.addrAck else EngPhase.txAck
    let s := (s.elapse 0).masterBit b.msb
    { s with i2c := { s.i2c with
        shift := some (shiftOut b), bit := s.i2c.bit - 1,
        phase := if s.i2c.bit - 1 = 0 then ack else s.i2c.phase } }

/-- Address acknowledge (R188): `CR2.START` is cleared on ACK and on NACK alike (R200). -/
def engAddrAck (s : State) : State :=
  let s := s.elapse 0
  let a := s.peekBit
  let s := s.pop.slaveBit a
  let s := { s with i2c := { s.i2c with cr2 := cr2ClearStart s.i2c.cr2 } }
  if a then engNack s
  else if s.i2c.dir then { s with i2c := { s.i2c with bit := 8, phase := .rxByte } }
  else engEnterTxWait s

/-- Data acknowledge, write direction (R189). -/
def engDataAck (s : State) : State :=
  let s := s.elapse 0
  let a := s.peekBit
  let s := s.pop.slaveBit a
  if a then engNack s
  else
    let s := { s with i2c := { s.i2c with cnt := s.i2c.cnt - 1 } }
    if s.i2c.cnt = 0 then engEndOfTransfer s else engEnterTxWait s

/-- Transmit load (R192): no SCL high phase, no time. -/
def engTxLoad (s : State) : State :=
  { s with i2c := { s.i2c with
      shift := some s.i2c.txdr, isr := s.i2c.isr.txdrLoaded, bit := 8, phase := .txByte } }

/-- The master receives a bit (R193). -/
def engRecvBit (s : State) : State :=
  match s.i2c.shift with
  | none => s.raise .unwritten
  | some b =>
    let s := s.elapse 0
    let x := s.peekBit
    let s := s.pop.slaveBit x
    { s with i2c := { s.i2c with
        shift := some (shiftIn b x), bit := s.i2c.bit - 1,
        phase := if s.i2c.bit - 1 = 0 then .rxWait else s.i2c.phase } }

/-- Receive store (R194): no SCL high phase, no time. -/
def engRxStore (s : State) : State :=
  match s.i2c.shift with
  | none => s.raise .unwritten
  | some b =>
    { s with i2c := { s.i2c with
        rxdr := b, isr := s.i2c.isr.rxdrStored, cnt := s.i2c.cnt - 1, phase := .rxAck } }

/-- Master acknowledge, read direction (R195). -/
def engMasterAck (s : State) : State :=
  if 0 < s.i2c.cnt then
    let s := (s.elapse 0).masterBit false
    { s with i2c := { s.i2c with bit := 8, phase := .rxByte } }
  else engEndOfTransfer ((s.elapse 0).masterBit true)

/-- STOP request from `TC_HOLD` (R196). -/
def engStopRequest (s : State) : State :=
  { s with i2c := { s.i2c with isr := s.i2c.isr.tcCleared, phase := .stopPend } }

/-- `GenStop()` (R197): both lines are released. -/
def engStop (s : State) : State :=
  let s := (s.elapse 0).emitI2c .stop
  { s with
    i2c := { s.i2c with
      owner := false, isr := s.i2c.isr.stopSent, cr2 := cr2ClearStop s.i2c.cr2, phase := .idle
      sclDrive := .released, sdaDrive := .released }
    sl := { s.sl with sdaDrive := .released } }

/-- The effect of an engine rule. -/
def engEffect : EngRule → State → State
  | .start, s => engStart s
  | .sendBit, s => engSendBit s
  | .addrAck, s => engAddrAck s
  | .dataAck, s => engDataAck s
  | .txLoad, s => engTxLoad s
  | .recvBit, s => engRecvBit s
  | .rxStore, s => engRxStore s
  | .masterAck, s => engMasterAck s
  | .stopRequest, s => engStopRequest s
  | .stop, s => engStop s

/-- One step of the I2C engine; no change where no rule is enabled. -/
def i2cEngineStep (s : State) : State :=
  match engRule s with
  | none => s
  | some r => engEffect r s

/-! The I2C slave's steps (R198). -/

/-- Hold is enabled: the master owns the bus, the slave does not hold, SCL is low between clocked steps (log 24). -/
def slaveMayHold (s : State) : Bool := s.i2c.owner && !s.sl.sclHold && s.i2c.sclDrive == .low

/-- The slave has a step: a hold, or the release of one. -/
def slaveEnabled (s : State) : Bool := slaveMayHold s || s.sl.sclHold

/-- Hold: the slave pulls SCL low and `STRETCH` is emitted; the master waits with SCL released (R198, spec/00_scope.md
R12, log 24). -/
def slaveHold (s : State) : State :=
  { s.emitI2c .stretch with
    i2c := { s.i2c with sclDrive := .released }
    sl := { s.sl with sclHold := true } }

/-- Release: the hold ends, and SCL is low again by the master's drive between two clocked steps (R198, R207). -/
def slaveRelease (s : State) : State :=
  { s with
    i2c := { s.i2c with sclDrive := if s.i2c.owner then .low else s.i2c.sclDrive }
    sl := { s.sl with sclHold := false } }

/-- One step of the I2C slave: release a hold, or begin one; `t` is unchanged (R205). -/
def i2cSlaveStep (s : State) : State :=
  if s.sl.sclHold then slaveRelease s else if slaveMayHold s then slaveHold s else s

end Sys2Proof.Machine
end

