-- ==== Sys2Proof/Machine/Schedule.lean ====
section
/-! DEFINITION. Fetching a command, which agents have a step, and whose step is next (spec/44_host_program.md R255,
R256, R258). -/

namespace Sys2Proof.Machine

/-- Fetch and decode the command at `host.pc` (R255). -/
def fetch (s : State) : Except DecodeError Instr := decode (s.host.prog.drop s.host.pc.toNat)

/-- The host stands at an `await` of this operation whose condition does not hold (R256), or at a buffer write host
memory does not admit (spec/20_memory.md R62): it has no step. -/
def held (i : Instr) (s : State) : Bool :=
  match i with
  | .spiConfig _ _ _ => false
  | .spiXfer _ => frameInProgress s && !frameReady s
  | .spiStart _ => false
  | .spiFinish => s.spi.pending && !frameReady s
  | .encSample => frameInProgress s && !frameReady s
  | .encStartSample => false
  | .encFinishSample => s.spi.pending && !frameReady s
  | .encSetFilterUs _ =>
    (s.enc.fs == .rdCmd || s.enc.fs == .rdBack || s.enc.fs == .wrCmd || s.enc.fs == .verify)
      && frameInProgress s && !frameReady s
  | .i2cRegRd _ => false
  | .i2cRegWr _ _ => false
  | .i2cStartRead _ _ _ _ => false
  | .i2cPoll => pollBlocked s
  | .i2cCheckRead => false
  | .waitUs _ => false
  | .waitMs _ => false
  | .hostBns _ => false
  | .hostEnd => false

/-- The host has a step: it has not ended and does not hold (R255, R256). A command that cannot be fetched is a step
too, its refusal. -/
def hostEnabled (s : State) : Bool :=
  !s.host.ended &&
    match fetch s with
    | .error _ => true
    | .ok i => !held i s

/-- An agent has a step enabled (R258), in a running state. -/
def enabled (s : State) : Agent → Bool
  | .host => hostEnabled s
  | .spiEngine => (spiRule s).isSome
  | .i2cEngine => (engRule s).isSome
  | .i2cSlave => slaveEnabled s

/-- The agents that have a step. -/
def enabledAgents (s : State) : List Agent :=
  [Agent.host, .spiEngine, .i2cEngine, .i2cSlave].filter (enabled s)

/-- The free choice of R258: any one agent that has a step; a draw decides where there are several. -/
def pickFree (s : State) : Option (Agent × State) :=
  match enabledAgents s with
  | [] => none
  | [a] => some (a, s)
  | a :: b :: rest => some ((a :: b :: rest).getD (s.peek % (rest.length + 2)) a, s.pop)

/-- Whose step is next: the next choice fixed in advance if that agent has a step (it is used up either way), else the
free choice (log 2). -/
def pick (s : State) : Option (Agent × State) :=
  match s.env.sched with
  | [] => pickFree s
  | a :: rest =>
    let s := { s with env := { s.env with sched := rest } }
    if enabled s a then some (a, s) else pickFree s

end Sys2Proof.Machine
end

