-- ==== Sys2Proof/Machine/Step.lean ====
section
/-! DEFINITION. One step of the block: one agent takes one step (spec/44_host_program.md R258). -/

namespace Sys2Proof.Machine

/-- The host's step (R255): a command that cannot be fetched is refused `RF_ILLEGAL`, any other is executed. -/
def hostStep (s : State) : Host.Outcome State Fault Refusal :=
  match fetch s with
  | .error _ => .next (s.refuse .illegal)
  | .ok i => exec i s

/-- The step of an agent. -/
def agentStep (a : Agent) (s : State) : Host.Outcome State Fault Refusal :=
  match a with
  | .host => hostStep s
  | .spiEngine => .next (spiEngineStep s)
  | .i2cEngine => .next (i2cEngineStep s)
  | .i2cSlave => .next (i2cSlaveStep s)

/-- One step. No agent has a step once a fault, the fatal mark or a refusal is recorded (spec/10_state.md R27, R39):
the machine then stops by name, as it does when no agent has a step enabled (log 4). -/
def step (s : State) : Host.Outcome State Fault Refusal :=
  if !s.faults.isEmpty || s.enc.fatal then .fault (.recorded s.faults)
  else if s.refused then .refused (.recorded s.refusal)
  else
    match pick s with
    | none => if s.host.ended then .fault .ended else .fault .stuck
    | some (a, s') => agentStep a s'

/-- `prog` with the given words put at index `n`, zero words before it where it is too short. -/
def placeWords (n : Nat) (ws prog : List Word) : List Word :=
  prog.take n ++ List.replicate (n - prog.length) 0#32 ++ ws ++ prog.drop (n + ws.length)

/-- `s` with an opcode-table row's words placed at `host.pc` in the program, the host chosen for the next step, and
no mark or end in its way (log 6). -/
def State.withFetchWord (s : State) (nbits w : Nat) : State :=
  { s with
    host := { s.host with ended := false, prog := placeWords s.host.pc.toNat (tableWords nbits w) s.host.prog }
    enc := { s.enc with fatal := false }
    faults := []
    refused := false
    refusal := none
    env := { s.env with sched := .host :: s.env.sched } }

end Sys2Proof.Machine
end

