-- ==== Sys2Proof/Safety.lean ====
section
/-! DEFINITION. What counts as a good state and a finished run, in the terms the statements use. -/

namespace Sys2Proof.Machine

/-- The run is final (spec/00_scope.md R19): the host has ended, nothing is recorded, the SPI engine is `IDLE` with no
split transfer pending, and the I2C engine is `IDLE`. -/
def State.finalRun (s : State) : Prop :=
  s.host.ended = true ∧ s.faults = [] ∧ s.refused = false ∧ s.spi.phase = .idle ∧ s.spi.pending = false ∧
    s.i2c.phase = .idle

/-- One step of an agent, any of those that have one, in an unmarked state, whatever the environment answers
(spec/44_host_program.md R258: the choice is free, and a property of every run quantifies over it). -/
def Moves (a : Agent) (s s' : State) : Prop :=
  s.running = true ∧ enabled s a = true ∧ ∃ e, agentStep a { s with env := e } = .next s'

/-- The agents of which fairness is assumed (R258): the host and the two engines, not the slave. -/
def Agent.isFair : Agent → Bool
  | .host => true
  | .spiEngine => true
  | .i2cEngine => true
  | .i2cSlave => false

/-- A run that never stops: each step is the chosen agent's. The boot premise of the I2C controller is a premise of every
run (spec/70_reset_and_hazards.md R304, log 19); one in which it fails is outside the model. -/
structure Run (boot : BootI2c) (run : Nat → State) (turn : Nat → Agent) : Prop where
  booted : Config.bootI2cConfigured boot
  moves : ∀ n, Moves (turn n) (run n) (run (n + 1))

/-- A run as R258 assumes it: a host or an engine that stays enabled takes its step in the end. A run that stops leaves
no agent enabled, so fairness asks nothing of it. -/
structure FairRun (boot : BootI2c) (run : Nat → State) (turn : Nat → Agent) : Prop extends Run boot run turn where
  fair : ∀ a, a.isFair = true → ∀ n, (∀ m, n ≤ m → enabled (run m) a = true) → ∃ m, n ≤ m ∧ turn m = a

/-- A state that a run from `s₀` reaches, in any order of the agents' steps and whatever the environment answers, under
the same premise (R304, R258). -/
inductive Reaches (boot : BootI2c) (s₀ : State) : State → Prop where
  /-- The start of a run: the controller has been configured at boot. -/
  | start (booted : Config.bootI2cConfigured boot) : Reaches boot s₀ s₀
  /-- One more step of some agent. -/
  | move {a : Agent} {s s' : State} (before : Reaches boot s₀ s) (moves : Moves a s s') : Reaches boot s₀ s'

/-- The SPI unit is consistent (spec/10_state.md R20 to R23, spec/40_spi_transactor.md R115 to R122, R120): `CS_n` is
high exactly while the engine is idle, SCLK is high only between the two edges of a bit, the bit count fits the
phase, the only configuration applied is 12 MHz, mode 0, 16 bits, and everything a running frame reads has been
written. -/
structure SpiInv (s : State) : Prop where
  csIdle : s.spi.csN = true ↔ s.spi.phase = .idle
  sclkHigh : s.spi.sclk = true → s.spi.phase = .shift
  setupBits : s.spi.phase = .setup → s.spi.bit = 16
  shiftBits : s.spi.phase = .shift → 1 ≤ s.spi.bit ∧ s.spi.bit ≤ 16
  holdBits : s.spi.phase = .hold → s.spi.bit = 0
  idleBits : s.spi.phase = .idle → s.spi.bit = 0
  configOnly : s.spi.configured = true →
    s.spi.freqReq = some fSclkReq ∧ s.spi.mode = some spiMode ∧ s.spi.width = some (BitVec.ofNat 5 spiWidth)
  frameConfigured : s.spi.phase ≠ .idle → s.spi.configured = true
  frameWords : s.spi.phase ≠ .idle → s.spi.tx.isSome ∧ s.spi.rx.isSome ∧ s.spi.word.isSome ∧ s.dev.out.isSome
  frameMosi : s.spi.mosi.isSome ↔ s.spi.phase ≠ .idle
  doneIdle : s.spi.done = true → s.spi.phase = .idle ∧ s.spi.result.isSome
  pendingFrame : s.spi.pending = true → s.spi.phase ≠ .idle ∨ s.spi.done = true

/-- The filter sequencer has what its next step reads (spec/10_state.md R25, R26), and the fatal mark goes with
`F_VERIFY` (R27, spec/60_exceptions.md R277). -/
structure EncInv (s : State) : Prop where
  decideCurrent : s.enc.fs = .decide → s.enc.current.isSome
  writeDesired : s.enc.fs = .wrCmd ∨ s.enc.fs = .commit ∨ s.enc.fs = .verify → s.enc.desired.isSome
  fatalVerify : s.enc.fatal = true ↔ FaultCode.verify ∈ s.faults

/-- The I2C controller, its engine and its lines are consistent (spec/10_state.md R28, R29, R33, R34,
spec/42_i2c_transactor.md R173, R184, R191, R192, R198, R200, R201, R207). `sclOwned` in a hold,
in every phase, is log 24; `sdaIdle` is log 11. -/
structure I2cInv (s : State) : Prop where
  scopeBits : cr2OutOfScope s.i2c.cr2 = false
  startCount : cr2Start s.i2c.cr2 = true → cr2Nbytes s.i2c.cr2 ≠ 0#8
  startNotStop : ¬(cr2Start s.i2c.cr2 = true ∧ cr2Stop s.i2c.cr2 = true)
  stopPhase : cr2Stop s.i2c.cr2 = true → s.i2c.phase = .tcHold ∨ s.i2c.phase = .stopPend
  startPhase : cr2Start s.i2c.cr2 = true →
    s.i2c.phase = .idle ∨ s.i2c.phase = .tcHold ∨ s.i2c.phase = .addr ∨ s.i2c.phase = .addrAck ∨
      engClosing s = true
  busyOwner : s.i2c.isr.busy = s.i2c.owner
  ownerPhase : s.i2c.owner = true ↔ s.i2c.phase ≠ .idle
  tcHold : s.i2c.isr.tc = true ↔ s.i2c.phase = .tcHold
  txisWait : s.i2c.isr.txis = true ↔ s.i2c.phase = .txWait ∧ s.i2c.isr.txe = true
  shiftHeld : s.i2c.phase ≠ .idle → s.i2c.shift.isSome
  bitBound : s.i2c.bit ≤ 8
  bitLeft : s.i2c.phase = .addr ∨ s.i2c.phase = .txByte ∨ s.i2c.phase = .rxByte → 1 ≤ s.i2c.bit
  cntBound : s.i2c.cnt ≤ 255
  cntLeft : s.i2c.phase = .addr ∨ s.i2c.phase = .addrAck ∨ s.i2c.phase = .txWait ∨ s.i2c.phase = .txByte ∨
    s.i2c.phase = .txAck ∨ s.i2c.phase = .rxByte ∨ s.i2c.phase = .rxWait → 1 ≤ s.i2c.cnt
  dirWrite : s.i2c.phase = .txWait ∨ s.i2c.phase = .txByte ∨ s.i2c.phase = .txAck → s.i2c.dir = false
  dirRead : s.i2c.phase = .rxByte ∨ s.i2c.phase = .rxWait ∨ s.i2c.phase = .rxAck → s.i2c.dir = true
  sclOwned : s.i2c.sclDrive = .low ↔ s.i2c.owner = true ∧ s.sl.sclHold = false
  sdaIdle : s.i2c.phase = .idle → s.i2c.sdaDrive = .released ∧ s.sl.sdaDrive = .released
  holdOwned : s.sl.sclHold = true → s.i2c.owner = true

/-- The reader's fields fit its state (spec/10_state.md R36, R37, spec/43_i2c_reader.md R222, R234). -/
structure ReaderInv (s : State) : Prop where
  fields : s.rd.state = .sentRegister ∨ s.rd.state = .readingData →
    s.rd.slave.isSome ∧ s.rd.reg.isSome ∧ s.rd.buf.isSome ∧ ∃ n, s.rd.len = some n ∧ n ≠ 0#8
  offsetReading : s.rd.state = .readingData →
    ∃ o n, s.rd.offset = some o ∧ s.rd.len = some n ∧ o < n.toNat
  offsetComplete : s.rd.state = .complete →
    ∃ o n, s.rd.offset = some o ∧ s.rd.len = some n ∧ o = n.toNat
  causeError : s.rd.state = .error ↔ s.rd.cause ≠ .none

/-- Time is consistent (spec/10_state.md R24, R44, R45, R47): no stamp lies in the future and each trace is in time
order. -/
structure TimeInv (s : State) : Prop where
  riseStamp : s.spi.tCsRise ≤ s.t
  fallStamp : ∀ f, s.spi.tCsFall = some f → f ≤ s.t
  respStamp : ∀ e, s.dev.resp = .regRead e ∨ (∃ v, s.dev.resp = .regWrite v e) → e ≤ s.t
  spiStamps : ∀ e ∈ s.traceSpi, e.time ≤ s.t
  i2cStamps : ∀ e ∈ s.traceI2c, e.time ≤ s.t
  spiOrder : (s.traceSpi.map Stamped.time).Pairwise (· ≤ ·)
  i2cOrder : (s.traceI2c.map Stamped.time).Pairwise (· ≤ ·)

/-- The marks agree (spec/10_state.md R39, R43): no rule reads an unwritten element, at most one code is recorded, and
the refusal mark goes with its code. -/
structure MarkInv (s : State) : Prop where
  neverUnwritten : FaultCode.unwritten ∉ s.faults
  oneFault : s.faults.length ≤ 1
  refusalCode : s.refused = true ↔ s.refusal.isSome

/-- The `k`-th answer the environment will give from here on, counted from 0: `State.peek` after `k` draws. -/
def State.answer (k : Nat) (s : State) : Nat := (s.env.draws.drop k).headD (Config.freeDraw (s.env.drawn + k))

/-- The events of one SPI frame with word `w` out and word `v` in (spec/30_encoding.md R102,
spec/40_spi_transactor.md R124). -/
def frameEvents (w v : Half) : List SpiEvent :=
  [.csFall] ++
    (List.range 16).flatMap (fun i => [.sckRise (w.getLsbD (15 - i)) (v.getLsbD (15 - i)), .sckFall]) ++ [.csRise]

/-- `BYTE_M(x)`, the eight bit events of a byte the master sends (spec/42_i2c_transactor.md R211). -/
def byteM (x : Byte) : List I2cEvent := (List.range 8).map fun i => .bitM (x.getLsbD (7 - i))

/-- Two states agree on all that the SPI unit, its slave and the host's control hold (spec/00_scope.md R17). -/
structure SpiAgree (s s' : State) : Prop where
  spi : s.spi = s'.spi
  enc : s.enc = s'.enc
  dev : s.dev = s'.dev
  trace : s.traceSpi = s'.traceSpi
  time : s.t = s'.t
  host : s.host = s'.host
  faults : s.faults = s'.faults
  refused : s.refused = s'.refused
  refusal : s.refusal = s'.refusal
  env : s.env = s'.env

/-- Two states agree on all that the I2C unit, its slave, its buffer memory and the host's control hold (R17). -/
structure I2cAgree (s s' : State) : Prop where
  i2c : s.i2c = s'.i2c
  rd : s.rd = s'.rd
  sl : s.sl = s'.sl
  mem : s.mem = s'.mem
  trace : s.traceI2c = s'.traceI2c
  time : s.t = s'.t
  host : s.host = s'.host
  faults : s.faults = s'.faults
  refused : s.refused = s'.refused
  refusal : s.refusal = s'.refusal
  env : s.env = s'.env

/-- The SPI and encoder operations (spec/30_encoding.md R88, opcodes 0x01 to 0x13). -/
def isSpiOp : Instr → Bool
  | .spiConfig _ _ _ => true
  | .spiXfer _ => true
  | .spiStart _ => true
  | .spiFinish => true
  | .encSample => true
  | .encStartSample => true
  | .encFinishSample => true
  | .encSetFilterUs _ => true
  | .i2cRegRd _ => false
  | .i2cRegWr _ _ => false
  | .i2cStartRead _ _ _ _ => false
  | .i2cPoll => false
  | .i2cCheckRead => false
  | .waitUs _ => false
  | .waitMs _ => false
  | .hostBns _ => false
  | .hostEnd => false

/-- The I2C operations (R88, opcodes 0x20 to 0x32). -/
def isI2cOp : Instr → Bool
  | .spiConfig _ _ _ => false
  | .spiXfer _ => false
  | .spiStart _ => false
  | .spiFinish => false
  | .encSample => false
  | .encStartSample => false
  | .encFinishSample => false
  | .encSetFilterUs _ => false
  | .i2cRegRd _ => true
  | .i2cRegWr _ _ => true
  | .i2cStartRead _ _ _ _ => true
  | .i2cPoll => true
  | .i2cCheckRead => true
  | .waitUs _ => false
  | .waitMs _ => false
  | .hostBns _ => false
  | .hostEnd => false

end Sys2Proof.Machine
end

