-- ==== Sys2Proof/Certificates/Slice0/Obligations.lean ====
section
/-! DEFINITION. The statements for the provers. Each docstring names the rule of spec/ it formalises, or the log entry
where a clause is the model's own choice. `∃ e` for the environment's fields says nothing of them: they are the model's
own (log 1, log 2). "Of general knowledge" and "derived" repeat the marks the spec itself puts on a rule. -/

open Sys2Proof Sys2Proof.Machine

/-! Commands. -/

/-- spec/30_encoding.md R80 to R91: every well-formed operation is read back from its words, whatever follows. -/
def Obligations.DecodeOfEncodeGivesInstruction : Prop :=
  ∀ (i : Instr) (rest : List Word), i.wellFormed = true → decode (encode i ++ rest) = .ok i

/-- spec/30_encoding.md R88: an operation is decoded exactly when its row's mask and match select word 0. -/
def Obligations.DecodeFollowsOpcodeTable : Prop :=
  ∀ w0 w1 : Word,
    (decodeWords w0 w1 = none ↔ ∀ row ∈ opcodeTable, ¬row.selects w0) ∧
    ∀ i, decodeWords w0 w1 = some i →
      ∃ row ∈ opcodeTable, row.selects w0 ∧ row.mnemonic = i.mnemonic ∧ row.words = i.words

/-- The words of spec/95_test_vectors.md L2.1, written out there from R81 to R88. -/
def Obligations.SampleWordsDecode : Prop :=
  decode [0x01001000#32, 0x00B71B00#32] = .ok (.spiConfig 12000000#32 0#2 16) ∧
  decode [0x0200FFFF#32] = .ok (.spiXfer 0xFFFF#16) ∧
  decode [0x130003E8#32] = .ok (.encSetFilterUs 1000#16) ∧
  decode [0x30501002#32, 0x00000100#32] = .ok (.i2cStartRead 0x50#7 0x10#8 0x100#32 2#8) ∧
  decode [0x5000FFFE#32] = .ok (.hostBns 0xFFFE#16) ∧
  decode [0x41FFFFFF#32] = .ok (.waitMs 16777215#24)

/-- spec/30_encoding.md R89, spec/44_host_program.md R255, spec/60_exceptions.md R278: a pc beyond the program, a word
that matches no row, or a missing second word is refused `RF_ILLEGAL`: that is the host's step, and nothing else of the
block changes. The turns and the recorded code are the model's fields (log 2, log 3). -/
def Obligations.UnfetchableCommandIsRefused : Prop :=
  ∀ s : State,
    s.host.ended = false →
    (s.host.prog.length ≤ s.host.pc.toNat ∨
      (∃ w0, s.host.prog[s.host.pc.toNat]? = some w0 ∧ ∀ row ∈ opcodeTable, ¬row.selects w0) ∨
      (∃ w0, s.host.prog[s.host.pc.toNat]? = some w0 ∧ (∃ row ∈ opcodeTable, row.selects w0 ∧ row.words = 2) ∧
        s.host.prog.length ≤ s.host.pc.toNat + 1)) →
    enabled s .host = true ∧
    agentStep .host s = .next { s with refused := true, refusal := some .illegal } ∧
    ∀ rest, s.running = true → s.env.sched = .host :: rest →
      step s = .next { s with env := { s.env with sched := rest }, refused := true, refusal := some .illegal }

/-- spec/44_host_program.md R255, R256, R258: the host's step is the execution of the decoded command; every step is the
step of some agent that has one, whoever chooses it; a turn fixed in advance in `env.sched` is taken (log 2); where some
agent has a step the machine goes on, and where none has it stops by name (log 4). -/
def Obligations.StepRunsDecodedInstruction : Prop :=
  (∀ (s : State) (i : Instr),
    s.host.ended = false → decode (s.host.prog.drop s.host.pc.toNat) = .ok i → held i s = false →
    enabled s .host = true ∧ agentStep .host s = exec i s ∧
    ∀ rest, s.running = true → s.env.sched = .host :: rest →
      step s = exec i { s with env := { s.env with sched := rest } }) ∧
  (∀ (s : State) (a : Agent) (rest : List Agent),
    s.running = true → s.env.sched = a :: rest → enabled s a = true →
    step s = agentStep a { s with env := { s.env with sched := rest } }) ∧
  (∀ s s' : State, step s = .next s' → ∃ a, Moves a s s') ∧
  (∀ (s : State) (a : Agent), s.running = true → enabled s a = true → ∃ s', step s = .next s') ∧
  ∀ s : State, s.running = true → (∀ a, enabled s a = false) →
    step s = .fault (if s.host.ended then .ended else .stuck)

/-! Reset and the marks. -/

/-- spec/70_reset_and_hazards.md R300: the reset state, element by element (`none` is "unspecified", log 5; register
14 of the sensor holds a free value, log 15; the controller's registers have the values the spec takes from general
knowledge, log 20), and the entry point: the first command fetched is at the start of the program. -/
def Obligations.ResetLeavesTheStatedValues : Prop :=
  let s := State.reset
  s.spi.configured = false ∧ s.spi.freqReq = none ∧ s.spi.mode = none ∧ s.spi.width = none ∧
  s.spi.phase = .idle ∧ s.spi.bit = 0 ∧ s.spi.tx = none ∧ s.spi.rx = none ∧ s.spi.pending = false ∧
  s.spi.done = false ∧ s.spi.result = none ∧ s.spi.csN = true ∧ s.spi.sclk = false ∧ s.spi.mosi = none ∧
  s.spi.tCsRise = 0 ∧ s.spi.tCsFall = none ∧
  s.enc.current = none ∧ s.enc.desired = none ∧ s.enc.final = none ∧ s.enc.fs = .none ∧ s.enc.fatal = false ∧
  s.i2c.cr2 = 0x00000000#32 ∧ s.i2c.isr.word = 0x00000001#32 ∧ s.i2c.txdr = 0x00#8 ∧ s.i2c.rxdr = 0x00#8 ∧
  regRead offIcr s = .ok (0#32, s) ∧
  s.i2c.phase = .idle ∧ s.i2c.bit = 0 ∧ s.i2c.cnt = 0 ∧ s.i2c.dir = false ∧ s.i2c.autoend = false ∧
  s.i2c.owner = false ∧ s.i2c.shift = none ∧ s.scl = true ∧ s.sda = true ∧
  s.rd.state = .idle ∧ s.rd.cause = .none ∧ s.rd.slave = none ∧ s.rd.reg = none ∧ s.rd.buf = none ∧
  s.rd.len = none ∧ s.rd.offset = none ∧
  s.host.pc = 0#32 ∧ s.host.r = 0#32 ∧ s.host.ended = false ∧ s.faults = [] ∧ s.refused = false ∧
  s.t = 0 ∧ s.traceSpi = [] ∧ s.traceI2c = [] ∧
  s.dev.reg14 = Config.encReg14Init ∧ s.dev.resp = .angle ∧ s.dev.out = none ∧ s.dev.inWord = none ∧
  s.sl.sclHold = false ∧
  ∀ prog, fetch { s with host := { s.host with prog := prog } } = decode prog

/-- Every invariant stated below holds at reset: they are the model's reading of the rules that Safety.lean names beside
each. -/
def Obligations.ResetMeetsInvariants : Prop :=
  SpiInv State.reset ∧ EncInv State.reset ∧ I2cInv State.reset ∧ ReaderInv State.reset ∧ TimeInv State.reset ∧
    MarkInv State.reset ∧ State.reset.mem.wf

/-- spec/10_state.md R39: both marks are empty at reset and sticky, a refusal sets its mark, and no agent has a step
while a mark is set. -/
def Obligations.MarksAreStickyAndStopEveryAgent : Prop :=
  State.reset.faults = [] ∧ State.reset.refused = false ∧
  (∀ (i : Instr) (s s' : State), exec i s = .next s' →
    (∀ c ∈ s.faults, c ∈ s'.faults) ∧ (s.refused = true → s'.refused = true)) ∧
  (∀ s s' : State, s' = spiEngineStep s ∨ s' = i2cEngineStep s ∨ s' = i2cSlaveStep s →
    (∀ c ∈ s.faults, c ∈ s'.faults) ∧ s'.refused = s.refused) ∧
  (∀ (c : RefusalCode) (s : State), (s.refuse c).refused = true) ∧
  ∀ s : State, s.faults ≠ [] ∨ s.refused = true ∨ s.enc.fatal = true → ∀ s', step s ≠ .next s'

/-- spec/10_state.md R43: no rule reads an unspecified element before writing it, so no step from a consistent state
records `F_UNWRITTEN`; at most one fault is ever recorded, and a refusal always has its code (log 3). -/
def Obligations.NoStepReadsAnUnwrittenElement : Prop :=
  ∀ s s' : State, SpiInv s → EncInv s → I2cInv s → ReaderInv s → MarkInv s → step s = .next s' → MarkInv s'

/-! The SPI unit. -/

/-- spec/40_spi_transactor.md R110, spec/60_exceptions.md R274: `SPI_CONFIG`, its checks in their order and its
effect. The recorded refusal code is the model's field (log 3). -/
def Obligations.SpiConfigFollowsItsRule : Prop :=
  ∀ (freq : Word) (mode : BitVec 2) (width : Nat) (s : State), s.faults = [] →
    exec (.spiConfig freq mode width) s = .next (
      if s.spi.phase ≠ .idle ∨ s.spi.pending = true then { s with faults := [.spiContract] }
      else if freq ≠ 12000000#32 ∨ mode ≠ 0#2 ∨ width ≠ 16 then { s with refused := true, refusal := some .operand }
      else
        { s with
          spi := { s.spi with
            freqReq := some freq, mode := some mode, width := some 16#5, configured := true, sclk := false, csN := true }
          host := { s.host with pc := s.host.pc + 2#32 } })

/-- spec/40_spi_transactor.md R111, R125, spec/41_encoder_link.md R140: in a configured idle unit, `SPI_XFER w` and
`ENC_SAMPLE` (with the zero word) begin their frame at a time at least `T_CSIDLE` after the last one and change nothing
else. The sensor's answer is fixed here (spec/41_encoder_link.md R151), and it is the same whatever word is sent. The
field `word` is the model's (log 10). -/
def Obligations.BlockingTransferBeginsItsFrame : Prop :=
  ∀ s : State, s.spi.configured = true → s.spi.phase = .idle → s.spi.pending = false → s.spi.done = false →
    ∃ tFall v e, max s.t (s.spi.tCsRise + Config.tCsIdle) ≤ tFall ∧
      ∀ (i : Instr) (w : Half), i = .spiXfer w ∨ (i = .encSample ∧ w = 0#16) →
        exec i s = .next
          { s with
            spi := { s.spi with
              tx := some w, rx := some 0#16, bit := 16, done := false, word := some w, csN := false,
              mosi := some (w.getLsbD 15), tCsFall := some tFall, phase := .setup }
            t := tFall
            traceSpi := s.traceSpi ++ [⟨tFall, .csFall⟩]
            dev := { s.dev with out := some v }
            env := e }

/-- spec/40_spi_transactor.md R112, spec/41_encoder_link.md R140: once the frame has ended, `SPI_XFER` and `ENC_SAMPLE`
return the received word in `host.r`, take `spi.done` and advance `pc`; nothing else changes. -/
def Obligations.BlockingTransferReturnsTheWord : Prop :=
  ∀ (i : Instr) (v : Half) (s : State),
    (∃ w, i = .spiXfer w) ∨ i = .encSample →
    s.spi.pending = false → s.spi.phase = .idle → s.spi.done = true → s.spi.result = some v →
    exec i s = .next
      { s with
        spi := { s.spi with done := false }
        host := { s.host with pc := s.host.pc + 1#32, r := v.setWidth 32 } }

/-- spec/44_host_program.md R256: while its frame runs, an operation at its `await` leaves the state as it is (log 4), and
the host has no step. Under the fairness that R258 assumes, the frame ends and the await with it
(spec/40_spi_transactor.md R112: no rule makes a frame fail to finish). A run has the boot premise of
spec/70_reset_and_hazards.md R304 (log 19). -/
def Obligations.AwaitingHostHolds : Prop :=
  (∀ (i : Instr) (s : State), s.spi.phase ≠ .idle →
    (s.spi.pending = false ∧ ((∃ w, i = .spiXfer w) ∨ i = .encSample ∨
        ∃ f, i = .encSetFilterUs f ∧
          (s.enc.fs = .rdCmd ∨ s.enc.fs = .rdBack ∨ s.enc.fs = .wrCmd ∨ s.enc.fs = .verify))) ∨
      (s.spi.pending = true ∧ (i = .spiFinish ∨ i = .encFinishSample)) →
    exec i s = .next s ∧ (fetch s = .ok i → enabled s .host = false)) ∧
  ∀ (boot : BootI2c) (run : Nat → State) (turn : Nat → Agent) (n : Nat), FairRun boot run turn → SpiInv (run n) →
    (run n).spi.phase ≠ .idle → ∃ m, n ≤ m ∧ (run m).spi.phase = .idle ∧ (run m).spi.done = true

/-- spec/40_spi_transactor.md R113, spec/41_encoder_link.md R141: in a configured idle unit the split start begins its
frame, marks it pending and goes on. -/
def Obligations.SplitStartGoesOn : Prop :=
  ∀ (i : Instr) (w : Half) (s : State),
    i = .spiStart w ∨ (i = .encStartSample ∧ w = 0#16) →
    s.spi.configured = true → s.spi.phase = .idle → s.spi.pending = false →
    ∃ tFall v e, max s.t (s.spi.tCsRise + Config.tCsIdle) ≤ tFall ∧
      exec i s = .next
        { s with
          spi := { s.spi with
            tx := some w, rx := some 0#16, bit := 16, done := false, word := some w, csN := false,
            mosi := some (w.getLsbD 15), tCsFall := some tFall, phase := .setup, pending := true }
          host := { s.host with pc := s.host.pc + 1#32 }
          t := tFall
          traceSpi := s.traceSpi ++ [⟨tFall, .csFall⟩]
          dev := { s.dev with out := some v }
          env := e }

/-- spec/40_spi_transactor.md R114, spec/41_encoder_link.md R142: the split finish faults without a pending transfer,
holds while the frame runs (log 4), and then returns its word; nothing else changes. -/
def Obligations.SplitFinishFollowsItsRule : Prop :=
  ∀ (i : Instr) (s : State), i = .spiFinish ∨ i = .encFinishSample → s.faults = [] →
    (s.spi.pending = false → exec i s = .next { s with faults := [.spiContract] }) ∧
    (s.spi.pending = true → ¬(s.spi.phase = .idle ∧ s.spi.done = true) → exec i s = .next s) ∧
    ∀ v, s.spi.pending = true → s.spi.phase = .idle → s.spi.done = true → s.spi.result = some v →
      exec i s = .next
        { s with
          spi := { s.spi with done := false, pending := false }
          host := { s.host with pc := s.host.pc + 1#32, r := v.setWidth 32 } }

/-- spec/40_spi_transactor.md R111, spec/41_encoder_link.md R143, spec/60_exceptions.md R274, R277: a frame before
`SPI_CONFIG` faults `F_SPI_UNCONFIG`, one during a split transfer faults `F_SPI_CONTRACT`, in that order; `pc` stays and
only the fault is recorded. -/
def Obligations.FrameStartFaultsInOrder : Prop :=
  ∀ (i : Instr) (s : State),
    (∃ w, i = .spiXfer w) ∨ (∃ w, i = .spiStart w) ∨ i = .encSample ∨ i = .encStartSample → s.faults = [] →
    (s.spi.configured = false → s.spi.pending = true ∨ (s.spi.phase = .idle ∧ s.spi.done = false) →
      exec i s = .next { s with faults := [.spiUnconfig] }) ∧
    (s.spi.configured = true → s.spi.pending = true → exec i s = .next { s with faults := [.spiContract] })

/-- spec/40_spi_transactor.md R117, of general knowledge: the rising edge. Both sides sample; the received bit enters at
bit 0. -/
def Obligations.RisingEdgeSamples : Prop :=
  ∀ (tx rx out : Half) (s : State),
    s.spi.phase = .setup ∨ s.spi.phase = .shift → s.spi.sclk = false → 0 < s.spi.bit →
    s.spi.tx = some tx → s.spi.rx = some rx → s.dev.out = some out →
    ∃ d e, (if s.spi.phase = .setup then Config.tCss else half) ≤ d ∧
      spiEngineStep s =
        { s with
          t := s.t + d
          traceSpi := s.traceSpi ++ [⟨s.t + d, .sckRise (tx.getLsbD 15) (out.getLsbD (s.spi.bit - 1))⟩]
          spi := { s.spi with
            sclk := true, phase := .shift
            rx := some ((rx <<< 1) ||| (if out.getLsbD (s.spi.bit - 1) then 1#16 else 0#16)) }
          env := e }

/-- spec/40_spi_transactor.md R118: the falling edge. The next bit is presented, or the last edge is done. -/
def Obligations.FallingEdgeShifts : Prop :=
  ∀ (tx : Half) (s : State), s.spi.phase = .shift → s.spi.sclk = true → s.spi.tx = some tx →
    ∃ d e, half ≤ d ∧
      spiEngineStep s =
        { s with
          t := s.t + d
          traceSpi := s.traceSpi ++ [⟨s.t + d, .sckFall⟩]
          spi := { s.spi with
            sclk := false, tx := some (tx <<< 1), bit := s.spi.bit - 1
            mosi := if s.spi.bit - 1 > 0 then some ((tx <<< 1).getLsbD 15) else s.spi.mosi
            phase := if s.spi.bit - 1 > 0 then .shift else .hold }
          env := e }

/-- spec/40_spi_transactor.md R119, R120: the frame end. MOSI holds no value from here on (log 12). The sensor receives
the frame's word, kept in the model's field `word` (log 10); what that word makes of its next answer and of register 14 is
spec/41_encoder_link.md R151, of general knowledge (log 20). Nothing else changes. -/
def Obligations.FrameEndDeliversTheWord : Prop :=
  ∀ (rx w : Half) (s : State), s.spi.phase = .hold → s.spi.rx = some rx → s.spi.word = some w →
    ∃ d reg e, Config.tCsh ≤ d ∧ (w.extractLsb' 8 8 ≠ 0x8E#8 → reg = s.dev.reg14) ∧
      spiEngineStep s =
        { s with
          t := s.t + d
          traceSpi := s.traceSpi ++ [⟨s.t + d, .csRise⟩]
          spi := { s.spi with
            csN := true, tCsRise := s.t + d, result := some rx, done := true, phase := .idle, mosi := none }
          dev := { s.dev with
            inWord := some w, reg14 := reg
            resp := if w = 0x4E00#16 then .regRead (s.t + d)
              else if w.extractLsb' 8 8 = 0x8E#8 then .regWrite (w.extractLsb' 0 8) (s.t + d) else .angle }
          env := e }

/-- spec/40_spi_transactor.md R124, derived: a frame begun with word `w` ends 33 engine steps later with the slave's
word in `spi.result`, the events of R102 on the wire, and at least the time of R121 spent, 31 half periods of at least
41 ns. -/
def Obligations.FrameDeliversWords : Prop :=
  ∀ (w : Half) (s : State),
    s.spi.configured = true → s.spi.phase = .idle → s.spi.pending = false → s.spi.done = false → s.spi.sclk = false →
    ∃ s₁ v, exec (.spiXfer w) s = .next s₁ ∧ s₁.dev.out = some v ∧
      max s.t (s.spi.tCsRise + Config.tCsIdle) ≤ s₁.t ∧
      let s₂ := spiEngineStep^[33] s₁
      s₂.spi.result = some v ∧ s₂.spi.phase = .idle ∧ s₂.spi.done = true ∧
      s₂.traceSpi.map Stamped.event = s.traceSpi.map Stamped.event ++ frameEvents w v ∧
      s₁.t + (Config.tCss + 31 * half + Config.tCsh) ≤ s₂.t ∧
      s₁.t + (Config.tCss + Config.tCsh + 1271) ≤ s₂.t

/-- spec/10_state.md R20 to R23, spec/40_spi_transactor.md R115 to R122: the SPI unit stays consistent
over every step, and so over every run from a consistent state (the premise of a run is spec/70_reset_and_hazards.md
R304). -/
def Obligations.StepKeepsSpiConsistent : Prop :=
  (∀ s s' : State, SpiInv s → step s = .next s' → SpiInv s') ∧
  ∀ (boot : BootI2c) (s₀ s : State), SpiInv s₀ → Reaches boot s₀ s → SpiInv s

/-! The encoder link. -/

/-- spec/41_encoder_link.md R144, spec/30_encoding.md R99: the filter table, and its monotonicity. -/
def Obligations.FilterCodeFollowsTheTable : Prop :=
  (∀ f : Half, (filterCode f).toNat =
    if f.toNat ≤ 64 then 51 else if f.toNat ≤ 128 then 68 else if f.toNat ≤ 256 then 102
    else if f.toNat ≤ 1024 then 119 else if f.toNat ≤ 2048 then 136 else if f.toNat ≤ 4096 then 153
    else if f.toNat ≤ 8192 then 170 else 187) ∧
  ∀ f g : Half, f ≤ g → filterCode f ≤ filterCode g

/-- spec/41_encoder_link.md R146, spec/10_state.md R25: `ENC_SET_FILTER_US` begins with the frame `0x4E00` and forgets
the transient values (log 5). Before `SPI_CONFIG`, or while a split transfer is pending, it faults at that frame, with
`enc.fs = RD_CMD` (R145, R277). -/
def Obligations.FilterBeginsWithReadCommand : Prop :=
  ∀ (f : Half) (s : State), s.enc.fs = .none →
    (s.spi.configured = true → s.spi.phase = .idle → s.spi.pending = false →
      ∃ tFall v e, max s.t (s.spi.tCsRise + Config.tCsIdle) ≤ tFall ∧
        exec (.encSetFilterUs f) s = .next
          { s with
            enc := { s.enc with fs := .rdCmd, current := none, desired := none, final := none }
            spi := { s.spi with
              tx := some 0x4E00#16, rx := some 0#16, bit := 16, done := false, word := some 0x4E00#16, csN := false,
              mosi := some false, tCsFall := some tFall, phase := .setup }
            t := tFall
            traceSpi := s.traceSpi ++ [⟨tFall, .csFall⟩]
            dev := { s.dev with out := some v }
            env := e }) ∧
    (s.spi.configured = false → s.faults = [] →
      exec (.encSetFilterUs f) s = .next
        { s with
          enc := { s.enc with fs := .rdCmd, current := none, desired := none, final := none }
          faults := [.spiUnconfig] }) ∧
    (s.spi.configured = true → s.spi.pending = true → s.faults = [] →
      exec (.encSetFilterUs f) s = .next
        { s with
          enc := { s.enc with fs := .rdCmd, current := none, desired := none, final := none }
          faults := [.spiContract] })

/-- spec/41_encoder_link.md R145, R146, R149, R150, between the sequence's decisions: a command frame that has ended
is followed by its wait, the waits last at least 2 µs and at least 20 ms, and then the zero word is sent. Each wait is
a step of its own (spec/44_host_program.md R256, log 9). -/
def Obligations.FilterTakesItsStepsInOrder : Prop :=
  ∀ (f : Half) (s : State),
    (∀ p q v, (p = .rdCmd ∧ q = .turn) ∨ (p = .wrCmd ∧ q = .commit) →
      s.enc.fs = p → s.spi.pending = false → s.spi.phase = .idle → s.spi.done = true → s.spi.result = some v →
      exec (.encSetFilterUs f) s = .next
        { s with spi := { s.spi with done := false }, enc := { s.enc with fs := q } }) ∧
    (s.enc.fs = .turn → ∃ d e, 2000 ≤ d ∧
      exec (.encSetFilterUs f) s = .next { s with t := s.t + d, enc := { s.enc with fs := .rdBack }, env := e }) ∧
    (s.enc.fs = .commit → ∃ d e, 20000000 ≤ d ∧
      exec (.encSetFilterUs f) s = .next { s with t := s.t + d, enc := { s.enc with fs := .verify }, env := e }) ∧
    (s.enc.fs = .rdBack ∨ s.enc.fs = .verify →
      s.spi.configured = true → s.spi.phase = .idle → s.spi.pending = false → s.spi.done = false →
      ∃ tFall v e, max s.t (s.spi.tCsRise + Config.tCsIdle) ≤ tFall ∧
        exec (.encSetFilterUs f) s = .next
          { s with
            spi := { s.spi with
              tx := some 0#16, rx := some 0#16, bit := 16, done := false, word := some 0#16, csN := false,
              mosi := some false, tCsFall := some tFall, phase := .setup }
            t := tFall
            traceSpi := s.traceSpi ++ [⟨tFall, .csFall⟩]
            dev := { s.dev with out := some v }
            env := e })

/-- spec/41_encoder_link.md R147, R148: where the upper byte read back equals the mapped code, the operation ends with
no further frame and no wait. -/
def Obligations.FilterFastPathEnds : Prop :=
  ∀ (f v : Half) (s : State),
    s.enc.fs = .rdBack → s.spi.pending = false → s.spi.phase = .idle → s.spi.done = true → s.spi.result = some v →
    filterCode f = (v.extractLsb' 8 8).setWidth 16 →
    exec (.encSetFilterUs f) s = .next
      { s with
        spi := { s.spi with done := false }
        enc := { s.enc with fs := .none, current := some (filterCode f), desired := some (filterCode f) }
        host := { s.host with pc := s.host.pc + 1#32 } }

/-- spec/41_encoder_link.md R147, R149: where it differs, the frame `0x8E00 | code` is begun. -/
def Obligations.FilterMismatchWrites : Prop :=
  ∀ (f v : Half) (s : State),
    s.enc.fs = .rdBack → s.spi.configured = true → s.spi.pending = false → s.spi.phase = .idle → s.spi.done = true →
    s.spi.result = some v → filterCode f ≠ (v.extractLsb' 8 8).setWidth 16 →
    ∃ tFall a e, max s.t (s.spi.tCsRise + Config.tCsIdle) ≤ tFall ∧
      exec (.encSetFilterUs f) s = .next
        { s with
          enc := { s.enc with
            fs := .wrCmd, current := some ((v.extractLsb' 8 8).setWidth 16), desired := some (filterCode f) }
          spi := { s.spi with
            tx := some (0x8E00#16 ||| filterCode f), rx := some 0#16, bit := 16, done := false,
            word := some (0x8E00#16 ||| filterCode f), csN := false, mosi := some true, tCsFall := some tFall,
            phase := .setup }
          t := tFall
          traceSpi := s.traceSpi ++ [⟨tFall, .csFall⟩]
          dev := { s.dev with out := some a }
          env := e }

/-- spec/41_encoder_link.md R145, R150: the operation ends normally where the upper byte re-read is the code written. -/
def Obligations.FilterVerifyPasses : Prop :=
  ∀ (f v : Half) (s : State),
    s.enc.fs = .verify → s.spi.pending = false → s.spi.phase = .idle → s.spi.done = true → s.spi.result = some v →
    s.enc.desired = some ((v.extractLsb' 8 8).setWidth 16) →
    exec (.encSetFilterUs f) s = .next
      { s with
        spi := { s.spi with done := false }
        enc := { s.enc with fs := .none, final := some ((v.extractLsb' 8 8).setWidth 16) }
        host := { s.host with pc := s.host.pc + 1#32 } }

/-- spec/41_encoder_link.md R153, spec/60_exceptions.md R277: where it differs, `enc.fatal` is set, `F_VERIFY` is
recorded, `pc` stays at the operation, no agent has a step from then on, and the
run is not final. -/
def Obligations.FilterVerifyFailureIsFatal : Prop :=
  ∀ (f v d : Half) (s : State), s.faults = [] →
    s.enc.fs = .verify → s.spi.pending = false → s.spi.phase = .idle → s.spi.done = true → s.spi.result = some v →
    s.enc.desired = some d → d ≠ (v.extractLsb' 8 8).setWidth 16 →
    ∃ t, exec (.encSetFilterUs f) s = .next t ∧
      t = { s with
        spi := { s.spi with done := false }
        enc := { s.enc with final := some ((v.extractLsb' 8 8).setWidth 16), fatal := true }
        faults := [.verify] } ∧
      (∀ t', step t ≠ .next t') ∧ ¬t.finalRun

/-- spec/41_encoder_link.md R152, derived: after the wait, the next frame's answer carries register 14 in its upper
byte, for the read command and for the write command alike. -/
def Obligations.FilterAnswersComeInTime : Prop :=
  ∀ (f : Half) (s : State) (e : Nat), e ≤ s.t →
    s.spi.configured = true → s.spi.phase = .idle → s.spi.pending = false → s.spi.done = false →
    (s.enc.fs = .turn ∧ s.dev.resp = .regRead e) ∨ (∃ v, s.enc.fs = .commit ∧ s.dev.resp = .regWrite v e) →
    ∃ s₁ s₂ a, exec (.encSetFilterUs f) s = .next s₁ ∧ exec (.encSetFilterUs f) s₁ = .next s₂ ∧
      s₂.spi.phase = .setup ∧ s₂.dev.out = some a ∧ a.extractLsb' 8 8 = s.dev.reg14

/-- spec/10_state.md R25 to R27: what the filter sequence reads next has been written, and the fatal mark goes with
`F_VERIFY`. -/
def Obligations.StepKeepsFilterSequenceConsistent : Prop :=
  ∀ s s' : State, EncInv s → step s = .next s' → EncInv s'

/-! The I2C controller and its engine. -/

/-- spec/42_i2c_transactor.md R170, R172, R174, R177, R179, R180 (of general knowledge), R182: register reads. The
recorded refusal code is the model's field (log 3). -/
def Obligations.RegisterReadsFollowTheirRules : Prop :=
  ∀ (off : Byte) (s : State),
    exec (.i2cRegRd off) s = .next (
      let go (v : Word) : State := { s with host := { s.host with pc := s.host.pc + 1#32, r := v } }
      if off = 0x04#8 then go s.i2c.cr2
      else if off = 0x18#8 then go s.i2c.isr.word
      else if off = 0x1C#8 then go 0#32
      else if off = 0x24#8 then
        { go (s.i2c.rxdr.setWidth 32) with i2c := { s.i2c with isr := { s.i2c.isr with rxne := false } } }
      else if off = 0x28#8 then go (s.i2c.txdr.setWidth 32)
      else { s with refused := true, refusal := some .access })

/-- spec/42_i2c_transactor.md R174: where each flag stands in `ISR`, and 0 everywhere else. -/
def Obligations.IsrWordHasTheStatedBits : Prop :=
  ∀ (f : IsrFlags) (k : Nat),
    f.word.getLsbD k =
      (if k = 0 then f.txe else if k = 1 then f.txis else if k = 2 then f.rxne else if k = 4 then f.nackf
       else if k = 5 then f.stopf else if k = 6 then f.tc else if k = 15 then f.busy else false)

/-- spec/42_i2c_transactor.md R173, with fields of general knowledge: the write of `CR2`, its refusals in their order
and its effect. The recorded refusal code is the model's field (log 3). -/
def Obligations.Cr2WriteFollowsItsRule : Prop :=
  ∀ (v : Word) (s : State),
    exec (.i2cRegWr 0x04#8 v) s = .next (
      let refuse (c : RefusalCode) : State := { s with refused := true, refusal := some c }
      if v.getLsbD 11 ∨ v.getLsbD 12 ∨ v.getLsbD 15 ∨ v.getLsbD 24 ∨ v.getLsbD 26 ∨ v.extractLsb' 27 5 ≠ 0#5 then
        refuse .outOfScope
      else if (s.i2c.phase ≠ .idle ∧ s.i2c.phase ≠ .tcHold ∧
          ¬(s.i2c.phase = .stopPend ∨ (s.i2c.phase = .rxAck ∧ s.i2c.cnt = 0))) ∨
          s.i2c.cr2.getLsbD 13 ∨ s.i2c.cr2.getLsbD 14 then refuse .busyWrite
      else if v.getLsbD 13 ∧ v.getLsbD 14 then refuse .outOfScope
      else if v.getLsbD 13 ∧ v.extractLsb' 16 8 = 0#8 then refuse .outOfScope
      else if v.getLsbD 14 ∧ s.i2c.phase ≠ .tcHold then refuse .outOfScope
      else { s with i2c := { s.i2c with cr2 := v }, host := { s.host with pc := s.host.pc + 2#32 } })

/-- spec/42_i2c_transactor.md R171, R175, R176, R178 (of general knowledge), R181, R182: the writes of every other
register. The recorded refusal code is the model's field (log 3). -/
def Obligations.OtherRegisterWritesFollowTheirRules : Prop :=
  ∀ (off : Byte) (v : Word) (s : State), off ≠ 0x04#8 →
    exec (.i2cRegWr off v) s = .next (
      let done (u : I2cUnit) : State := { s with i2c := u, host := { s.host with pc := s.host.pc + 2#32 } }
      if off = 0x1C#8 then
        done { s.i2c with isr := { s.i2c.isr with
          nackf := if v.getLsbD 4 then false else s.i2c.isr.nackf,
          stopf := if v.getLsbD 5 then false else s.i2c.isr.stopf } }
      else if off = 0x28#8 then
        if v.extractLsb' 8 24 ≠ 0#24 then { s with refused := true, refusal := some .outOfScope }
        else
          done { s.i2c with
            txdr := v.extractLsb' 0 8, isr := { s.i2c.isr with txe := false, txis := false } }
      else { s with refused := true, refusal := some .access })

/-- spec/42_i2c_transactor.md R185, R186, of general knowledge: START and repeated START. The drives of the lines are
the model's (log 11). -/
def Obligations.EngineStartsTheTransfer : Prop :=
  ∀ s : State, s.i2c.cr2.getLsbD 13 = true →
    s.i2c.phase = .idle ∨ (s.i2c.phase = .tcHold ∧ s.sl.sclHold = false) →
    ∃ d e, i2cEngineStep s =
      { s with
        t := s.t + d
        traceI2c := s.traceI2c ++ [⟨s.t + d, if s.i2c.phase = .idle then .start else .restart⟩]
        i2c := { s.i2c with
          owner := if s.i2c.phase = .idle then true else s.i2c.owner
          isr := if s.i2c.phase = .idle then { s.i2c.isr with busy := true } else { s.i2c.isr with tc := false }
          dir := s.i2c.cr2.getLsbD 10, autoend := s.i2c.cr2.getLsbD 25, cnt := (s.i2c.cr2.extractLsb' 16 8).toNat
          shift := some (s.i2c.cr2.extractLsb' 1 7 ++ BitVec.ofBool (s.i2c.cr2.getLsbD 10)), bit := 8, phase := .addr
          sclDrive := .low, sdaDrive := .low }
        sl := { s.sl with sdaDrive := .released }
        env := e }

/-- spec/42_i2c_transactor.md R187, R193, of general knowledge: the bits of a byte, most significant first. The drives
of the lines are the model's (log 11). -/
def Obligations.EngineMovesBits : Prop :=
  ∀ (b : Byte) (s : State), s.sl.sclHold = false → 0 < s.i2c.bit → s.i2c.shift = some b →
    (s.i2c.phase = .addr ∨ s.i2c.phase = .txByte →
      ∃ d e, i2cEngineStep s =
        { s with
          t := s.t + d
          traceI2c := s.traceI2c ++ [⟨s.t + d, .bitM (b.getLsbD 7)⟩]
          i2c := { s.i2c with
            shift := some (b <<< 1), bit := s.i2c.bit - 1
            phase := if s.i2c.bit = 1 then (if s.i2c.phase = .addr then .addrAck else .txAck) else s.i2c.phase
            sclDrive := .low, sdaDrive := if b.getLsbD 7 then .released else .low }
          sl := { s.sl with sdaDrive := .released }
          env := e }) ∧
    (s.i2c.phase = .rxByte →
      ∃ d x e, i2cEngineStep s =
        { s with
          t := s.t + d
          traceI2c := s.traceI2c ++ [⟨s.t + d, .bitS x⟩]
          i2c := { s.i2c with
            shift := some ((b <<< 1) ||| (if x then 1#8 else 0#8)), bit := s.i2c.bit - 1
            phase := if s.i2c.bit = 1 then .rxWait else .rxByte
            sclDrive := .low, sdaDrive := .released }
          sl := { s.sl with sdaDrive := if x then .released else .low }
          env := e })

/-- spec/42_i2c_transactor.md R188 to R192, R200, of general knowledge: the acknowledge bit after the address byte and after
a data byte sent, with every outcome: a NACK, the data phase of either direction, the next byte, and the two ends of a
transfer. `START` is cleared at the address acknowledge and by every NACK. The drives of the lines are the model's
(log 11). -/
def Obligations.EngineTakesTheAcknowledge : Prop :=
  ∀ s : State, s.sl.sclHold = false →
    ∃ d a e,
      let after (u : I2cUnit) : State :=
        { s with
          t := s.t + d
          traceI2c := s.traceI2c ++ [⟨s.t + d, .bitS a⟩]
          i2c := { u with sclDrive := .low, sdaDrive := .released }
          sl := { s.sl with sdaDrive := if a then .released else .low }
          env := e }
      let cleared : Word := s.i2c.cr2 &&& 0xFFFFDFFF#32
      (s.i2c.phase = .addrAck → i2cEngineStep s = after (
        if a then { s.i2c with cr2 := cleared, isr := { s.i2c.isr with nackf := true }, phase := .stopPend }
        else if s.i2c.dir then { s.i2c with cr2 := cleared, bit := 8, phase := .rxByte }
        else { s.i2c with cr2 := cleared, isr := { s.i2c.isr with txis := s.i2c.isr.txe }, phase := .txWait })) ∧
      (s.i2c.phase = .txAck → i2cEngineStep s = after (
        if a then { s.i2c with cr2 := cleared, isr := { s.i2c.isr with nackf := true }, phase := .stopPend }
        else if 0 < s.i2c.cnt - 1 then
          { s.i2c with cnt := s.i2c.cnt - 1, isr := { s.i2c.isr with txis := s.i2c.isr.txe }, phase := .txWait }
        else if s.i2c.autoend then { s.i2c with cnt := 0, phase := .stopPend }
        else { s.i2c with cnt := 0, isr := { s.i2c.isr with tc := true }, phase := .tcHold }))

/-- spec/42_i2c_transactor.md R192, R194, of general knowledge: the transmit load and the receive store take no time
and no bus event, and wait for `TXE = 0` and `RXNE = 0`. -/
def Obligations.EngineLoadsAndStores : Prop :=
  ∀ s : State,
    (s.i2c.phase = .txWait → i2cEngineStep s =
      if s.i2c.isr.txe then s
      else { s with i2c := { s.i2c with
        shift := some s.i2c.txdr, isr := { s.i2c.isr with txe := true, txis := false }, bit := 8, phase := .txByte } }) ∧
    ∀ b, s.i2c.phase = .rxWait → s.i2c.shift = some b → i2cEngineStep s =
      if s.i2c.isr.rxne then s
      else { s with i2c := { s.i2c with
        rxdr := b, isr := { s.i2c.isr with rxne := true }, cnt := s.i2c.cnt - 1, phase := .rxAck } }

/-- spec/42_i2c_transactor.md R191, R195 to R197, of general knowledge: the master's acknowledge, the end of a
transfer, the STOP request and the STOP. The drives of the lines are the model's (log 11). -/
def Obligations.EngineEndsTheTransfer : Prop :=
  ∀ s : State,
    (s.i2c.phase = .rxAck → s.sl.sclHold = false → ∃ d e,
      i2cEngineStep s =
        { s with
          t := s.t + d
          traceI2c := s.traceI2c ++ [⟨s.t + d, .bitM (decide (s.i2c.cnt = 0))⟩]
          i2c :=
            if 0 < s.i2c.cnt then { s.i2c with bit := 8, phase := .rxByte, sclDrive := .low, sdaDrive := .low }
            else if s.i2c.autoend then { s.i2c with phase := .stopPend, sclDrive := .low, sdaDrive := .released }
            else { s.i2c with
              isr := { s.i2c.isr with tc := true }, phase := .tcHold, sclDrive := .low, sdaDrive := .released }
          sl := { s.sl with sdaDrive := .released }
          env := e }) ∧
    (s.i2c.phase = .tcHold → s.i2c.cr2.getLsbD 13 = false → s.i2c.cr2.getLsbD 14 = true →
      i2cEngineStep s = { s with i2c := { s.i2c with isr := { s.i2c.isr with tc := false }, phase := .stopPend } }) ∧
    (s.i2c.phase = .stopPend → s.sl.sclHold = false → ∃ d e,
      i2cEngineStep s =
        { s with
          t := s.t + d
          traceI2c := s.traceI2c ++ [⟨s.t + d, .stop⟩]
          i2c := { s.i2c with
            owner := false, isr := { s.i2c.isr with busy := false, stopf := true }, cr2 := s.i2c.cr2 &&& 0xFFFFBFFF#32,
            phase := .idle, sclDrive := .released, sdaDrive := .released }
          sl := { s.sl with sdaDrive := .released }
          env := e })

/-- spec/42_i2c_transactor.md R183, R198 (of general knowledge), spec/00_scope.md R12: while the slave holds SCL no bus bit
and no STOP is made; the slave's two steps are the hold, with its `STRETCH` event, in which the master waits with SCL
released (log 24), and the release, after which the master that owns the bus drives SCL low again (R207). -/
def Obligations.StretchedClockHoldsTheEngine : Prop :=
  (∀ s : State, s.sl.sclHold = true → s.i2c.phase ≠ .idle → (i2cEngineStep s).traceI2c = s.traceI2c) ∧
  (∀ s : State, s.sl.sclHold = true →
    i2cSlaveStep s =
      { s with
        sl := { s.sl with sclHold := false }
        i2c := { s.i2c with sclDrive := if s.i2c.owner then .low else s.i2c.sclDrive } }) ∧
  ∀ s : State, s.sl.sclHold = false → s.i2c.owner = true → s.i2c.sclDrive = .low →
    i2cSlaveStep s =
      { s with
        traceI2c := s.traceI2c ++ [⟨s.t, .stretch⟩]
        sl := { s.sl with sclHold := true }
        i2c := { s.i2c with sclDrive := .released } }

/-- spec/42_i2c_transactor.md R194, R202, derived: no received byte is ever overwritten before it is read. -/
def Obligations.ReceivedByteIsNeverOverwritten : Prop :=
  ∀ s s' : State, s.i2c.isr.rxne = true → step s = .next s' → s'.i2c.rxdr = s.i2c.rxdr

/-- spec/42_i2c_transactor.md R201, of general knowledge: `BUSY` is set by the step that emits `S` and cleared by the
step that emits `P`, and by no other. -/
def Obligations.BusyRunsFromStartToStop : Prop :=
  ∀ s s' : State, step s = .next s' →
    (s.i2c.isr.busy = false → s'.i2c.isr.busy = true → s'.traceI2c = s.traceI2c ++ [⟨s'.t, .start⟩]) ∧
    (s.i2c.isr.busy = true → s'.i2c.isr.busy = false → s'.traceI2c = s.traceI2c ++ [⟨s'.t, .stop⟩]) ∧
    (s'.traceI2c = s.traceI2c ++ [⟨s'.t, .start⟩] → s'.i2c.isr.busy = true) ∧
    (s'.traceI2c = s.traceI2c ++ [⟨s'.t, .stop⟩] → s'.i2c.isr.busy = false)

/-- spec/42_i2c_transactor.md R203, of general knowledge: `TC` is cleared only by the engine, leaving `TC_HOLD` by a
repeated START or a STOP request. -/
def Obligations.TcIsClearedOnlyByTheEngine : Prop :=
  (∀ (i : Instr) (s s' : State), exec i s = .next s' → s'.i2c.isr.tc = s.i2c.isr.tc) ∧
  ∀ s : State, s.i2c.isr.tc = true → (i2cEngineStep s).i2c.isr.tc = false →
    (s.i2c.phase = .tcHold ∧ ((i2cEngineStep s).i2c.phase = .addr ∨ (i2cEngineStep s).i2c.phase = .stopPend))

/-- spec/42_i2c_transactor.md R213, derived: the write phase of the reader on the bus, from an idle controller with no
hold: both bytes acknowledged, the address byte refused, the register byte refused. Answers 10 and 20 of the
environment (log 1) are the two ACK draws, each drawn after its step's time (log 14). -/
def Obligations.WritePhasePutsTheseEventsOnTheBus : Prop :=
  ∀ (slave : BitVec 7) (reg : Byte) (buf : Word) (len : Byte) (s : State),
    len ≠ 0#8 → s.rd.state = .idle → s.i2c.phase = .idle → s.i2c.cr2.getLsbD 13 = false → s.i2c.cr2.getLsbD 14 = false →
    s.sl.sclHold = false →
    ∃ s₁, exec (.i2cStartRead slave reg buf len) s = .next s₁ ∧
      let old := s.traceI2c.map Stamped.event
      let address := [I2cEvent.start] ++ byteM (slave ++ 0#1)
      (s₁.answer 10 % 2 = 0 → s₁.answer 20 % 2 = 0 →
        let s₂ := i2cEngineStep^[20] s₁
        s₂.traceI2c.map Stamped.event = old ++ address ++ [.bitS false] ++ byteM reg ++ [.bitS false] ∧
        s₂.i2c.phase = .tcHold ∧ s₂.i2c.isr.tc = true ∧ i2cEngineStep s₂ = s₂) ∧
      (s₁.answer 10 % 2 = 1 →
        let s₂ := i2cEngineStep^[11] s₁
        s₂.traceI2c.map Stamped.event = old ++ address ++ [.bitS true, .stop] ∧ s₂.i2c.isr.nackf = true) ∧
      (s₁.answer 10 % 2 = 0 → s₁.answer 20 % 2 = 1 →
        let s₂ := i2cEngineStep^[21] s₁
        s₂.traceI2c.map Stamped.event =
          old ++ address ++ [.bitS false] ++ byteM reg ++ [.bitS true, .stop] ∧
        s₂.i2c.isr.nackf = true)

/-- spec/10_state.md R28, R29, R33, R34 and spec/42_i2c_transactor.md R173, R184, R198, R200, R201, R207, in part of general
knowledge: the controller, its engine and its lines stay consistent over every step, and so over every run from a
consistent state: a run has the boot premise of spec/70_reset_and_hazards.md R304, the controller configured (log 19).
That the master's drive of SCL is released in every hold of the slave, `TX_WAIT`, `RX_WAIT` and `TC_HOLD` included, is the
model's reading between R198 with spec/00_scope.md R12 and R207, R202, R191 (`I2cInv.sclOwned`, log 24); what the drives of
SDA are while the engine is idle is log 11. -/
def Obligations.StepKeepsI2cConsistent : Prop :=
  (∀ s s' : State, I2cInv s → step s = .next s' → I2cInv s') ∧
  ∀ (boot : BootI2c) (s₀ s : State), I2cInv s₀ → Reaches boot s₀ s → I2cInv s

/-! The I2C reader. -/

/-- spec/43_i2c_reader.md R221 to R225: `I2C_START_READ`, case by case in its order. The recorded refusal code is the
model's field (log 3), and a refused register write undoes the stores before it (spec/60_exceptions.md R278, log 18).
That the start leaves `rd.offset` as the transaction before left it is the model's choice (log 26). -/
def Obligations.StartReadFollowsItsRule : Prop :=
  ∀ (slave : BitVec 7) (reg : Byte) (buf : Word) (len : Byte) (s : State),
    exec (.i2cStartRead slave reg buf len) s = .next (
      if len = 0#8 then { s with refused := true, refusal := some .operand }
      else if s.rd.state ≠ .idle then { s with host := { s.host with pc := s.host.pc + 2#32 } }
      else if s.i2c.cr2.getLsbD 13 then
        { s with
          rd := { s.rd with state := .error, cause := .busBusy }
          host := { s.host with pc := s.host.pc + 2#32 } }
      else if s.i2c.cr2.getLsbD 14 ∨ (s.i2c.phase ≠ .idle ∧ s.i2c.phase ≠ .tcHold ∧
          ¬(s.i2c.phase = .stopPend ∨ (s.i2c.phase = .rxAck ∧ s.i2c.cnt = 0))) then
        { s with refused := true, refusal := some .busyWrite }
      else
        { s with
          rd := { s.rd with
            slave := some slave, reg := some reg, buf := some buf, len := some len, state := .sentRegister }
          i2c := { s.i2c with
            cr2 := 0x00012000#32 ||| (slave.setWidth 32 <<< 1), txdr := reg,
            isr := { s.i2c.isr with txe := false, txis := false } }
          host := { s.host with pc := s.host.pc + 2#32 } })

/-- spec/43_i2c_reader.md R227: in `SentRegister` with `TC` sampled, in the engine's hold, `Poll` programs the read
phase. Where a START or STOP request is pending, its `CR2` write is refused, and the whole operation with it
(spec/42_i2c_transactor.md R173, spec/60_exceptions.md R278; the recorded code is the model's field, log 3, log 18). -/
def Obligations.PollProgramsTheReadPhase : Prop :=
  ∀ (slave : BitVec 7) (len : Byte) (s : State),
    s.rd.state = .sentRegister → s.i2c.isr.tc = true → s.rd.slave = some slave → s.rd.len = some len → len ≠ 0#8 →
    (s.i2c.isr.nackf = false → s.i2c.phase = .tcHold → s.i2c.cr2.getLsbD 13 = false → s.i2c.cr2.getLsbD 14 = false →
      exec .i2cPoll s = .next
        { s with
          i2c := { s.i2c with cr2 := 0x02002400#32 ||| (len.setWidth 32 <<< 16) ||| (slave.setWidth 32 <<< 1) }
          rd := { s.rd with offset := some 0, state := .readingData }
          host := { s.host with pc := s.host.pc + 1#32 } }) ∧
    (s.i2c.cr2.getLsbD 13 = true ∨ s.i2c.cr2.getLsbD 14 = true →
      exec .i2cPoll s = .next { s with refused := true, refusal := some .busyWrite })

/-- spec/43_i2c_reader.md R228, spec/20_memory.md R61, R68: in `ReadingData` with `RXNE` sampled, `Poll` copies one
byte to `buf[offset]` and counts it; every other byte of memory reads as before. -/
def Obligations.PollCopiesOneByte : Prop :=
  ∀ (buf : Word) (len : Byte) (o : Nat) (s : State),
    s.rd.state = .readingData → s.i2c.isr.rxne = true → s.i2c.isr.nackf = false →
    s.rd.buf = some buf → s.rd.len = some len → s.rd.offset = some o → s.mem.admits (buf.toNat + o) = true →
    ∃ m, exec .i2cPoll s = .next
        { s with
          mem := m
          i2c := { s.i2c with isr := { s.i2c.isr with rxne := false } }
          rd := { s.rd with
            offset := some (o + 1), state := if o + 1 = len.toNat then .complete else .readingData }
          host := { s.host with pc := s.host.pc + 1#32 } } ∧
      m.read (buf.toNat + o) = some s.i2c.rxdr ∧ m.regions = s.mem.regions ∧
      ∀ a, a ≠ buf.toNat + o → m.read a = s.mem.read a

/-- spec/43_i2c_reader.md R226, R229: a `Poll` that samples no flag its state waits for and no NACK changes nothing but
`pc`. -/
def Obligations.PollWithNothingToDoOnlyAdvances : Prop :=
  ∀ s : State, s.i2c.isr.nackf = false →
    (s.rd.state = .sentRegister → s.i2c.isr.tc = false) → (s.rd.state = .readingData → s.i2c.isr.rxne = false) →
    exec .i2cPoll s = .next { s with host := { s.host with pc := s.host.pc + 1#32 } }

/-- spec/43_i2c_reader.md R230, spec/60_exceptions.md R275: a sampled NACK makes the state `Error` and clears the flag
whatever the per-state action decided, and that action's register accesses and buffer byte stay done. -/
def Obligations.NackOverridesThePoll : Prop :=
  ∀ s t : State, s.i2c.isr.nackf = true →
    exec .i2cPoll { s with i2c := { s.i2c with isr := { s.i2c.isr with nackf := false } } } = .next t →
    t.host.pc = s.host.pc + 1#32 → t.refused = s.refused → t.faults = s.faults →
    exec .i2cPoll s = .next { t with rd := { t.rd with state := .error, cause := .nack } }

/-- spec/20_memory.md R62, spec/60_exceptions.md R272: where host memory does not admit the buffer byte, the host is
stuck in `I2C_POLL`: nothing changes (log 4) and the host has no step. -/
def Obligations.PollIsStuckOnUnadmittedMemory : Prop :=
  ∀ (buf : Word) (o : Nat) (s : State),
    s.rd.state = .readingData → s.i2c.isr.rxne = true → s.rd.buf = some buf → s.rd.offset = some o →
    s.mem.admits (buf.toNat + o) = false →
    exec .i2cPoll s = .next s ∧ (fetch s = .ok .i2cPoll → enabled s .host = false)

/-- spec/43_i2c_reader.md R231, spec/30_encoding.md R100, spec/60_exceptions.md R280: `I2C_CHECK_READ` returns a
terminal result once and releases the reader; before a terminal state it returns `NoStatus` and changes nothing else.
-/
def Obligations.CheckReadFollowsItsRule : Prop :=
  ∀ s : State,
    exec .i2cCheckRead s = .next (
      let answer (r : Word) : State := { s with host := { s.host with pc := s.host.pc + 1#32, r := r } }
      if s.rd.state = .complete then { answer 1#32 with rd := { s.rd with state := .idle, cause := .none } }
      else if s.rd.state = .error then { answer 2#32 with rd := { s.rd with state := .idle, cause := .none } }
      else answer 0#32)

/-- spec/43_i2c_reader.md R234, derived, and spec/10_state.md R36, R37: the offset stays within the buffer and is its
length in `Complete`. -/
def Obligations.StepKeepsReaderConsistent : Prop :=
  ∀ s s' : State, ReaderInv s → step s = .next s' → ReaderInv s'

/-- spec/20_memory.md R61: host memory is written only inside `I2C_POLL` in `ReadingData`, one byte inside the buffer.
-/
def Obligations.MemoryIsWrittenOnlyByPoll : Prop :=
  ∀ s s' : State, ReaderInv s → step s = .next s' → ∀ a, s'.mem.read a ≠ s.mem.read a →
    fetch s = .ok .i2cPoll ∧ s.rd.state = .readingData ∧ s.i2c.isr.rxne = true ∧
    ∃ buf len o, s.rd.buf = some buf ∧ s.rd.len = some len ∧ s.rd.offset = some o ∧
      a = buf.toNat + o ∧ o < len.toNat ∧ s.mem.admits a = true

/-- The model's memory keeps its canonical form (log 7) and its regions (log 8). -/
def Obligations.StepKeepsMemoryCanonical : Prop :=
  ∀ s s' : State, s.mem.wf → step s = .next s' → s'.mem.wf ∧ s'.mem.regions = s.mem.regions

/-! The host program and the whole machine. -/

/-- spec/44_host_program.md R251, R252: the waits last at least what is asked and change only `t` and `pc`. -/
def Obligations.WaitsLastAtLeastAsLong : Prop :=
  ∀ (n : BitVec 24) (s : State),
    (∃ d e, 1000 * n.toNat ≤ d ∧ exec (.waitUs n) s = .next
      { s with t := s.t + d, env := e, host := { s.host with pc := s.host.pc + 1#32 } }) ∧
    ∃ d e, 1000000 * n.toNat ≤ d ∧ exec (.waitMs n) s = .next
      { s with t := s.t + d, env := e, host := { s.host with pc := s.host.pc + 1#32 } }

/-- spec/44_host_program.md R253, R254: the branch on `host.r = 0`, and the end of the program, after which the host
has no step. -/
def Obligations.BranchAndEndFollowTheirRules : Prop :=
  ∀ s : State,
    (∀ off : Half, exec (.hostBns off) s = .next
      { s with host := { s.host with
        pc := if s.host.r = 0#32 then s.host.pc + off.signExtend 32 else s.host.pc + 1#32 } }) ∧
    exec .hostEnd s = .next { s with host := { s.host with ended := true } } ∧
    enabled { s with host := { s.host with ended := true } } .host = false ∧
    ∀ a, a ≠ .host → enabled { s with host := { s.host with ended := true } } a = enabled s a

/-- spec/44_host_program.md R257, derived: who writes `host.r`, how `pc` moves, and what a refusal or a fault leaves
of them. No operation changes the program (spec/10_state.md R38). -/
def Obligations.ResultRegisterHasSixWriters : Prop :=
  ∀ (i : Instr) (s s' : State), exec i s = .next s' →
    (s'.host.r ≠ s.host.r → (∃ w, i = .spiXfer w) ∨ i = .spiFinish ∨ i = .encSample ∨ i = .encFinishSample ∨
      (∃ off, i = .i2cRegRd off) ∨ i = .i2cCheckRead) ∧
    (s'.host.pc ≠ s.host.pc → (∃ off, i = .hostBns off) ∨
      (i ≠ .hostEnd ∧ s'.host.pc = s.host.pc + BitVec.ofNat 32 i.words)) ∧
    (s'.faults ≠ s.faults ∨ (s'.refused = true ∧ s.refused = false) → s'.host = s.host) ∧
    s'.host.prog = s.host.prog

/-- spec/10_state.md R47, R44, R24: time never decreases, and the traces stay in time order with no stamp in the
future. -/
def Obligations.StepKeepsTimeOrder : Prop :=
  ∀ s s' : State, TimeInv s → step s = .next s' →
    TimeInv s' ∧ s.t ≤ s'.t ∧ (∃ l, s'.traceSpi = s.traceSpi ++ l) ∧ ∃ l, s'.traceI2c = s.traceI2c ++ l

/-- spec/00_scope.md R17: the SPI unit and the I2C unit share no state. A step of one leaves the other's state alone and
does the same in any two states that agree on its own. -/
def Obligations.SpiAndI2cShareNoState : Prop :=
  (∀ s, (spiEngineStep s).i2c = s.i2c ∧ (spiEngineStep s).rd = s.rd ∧ (spiEngineStep s).sl = s.sl ∧
    (spiEngineStep s).mem = s.mem ∧ (spiEngineStep s).traceI2c = s.traceI2c) ∧
  (∀ s s', s' = i2cEngineStep s ∨ s' = i2cSlaveStep s →
    s'.spi = s.spi ∧ s'.enc = s.enc ∧ s'.dev = s.dev ∧ s'.traceSpi = s.traceSpi) ∧
  (∀ i s s', isSpiOp i = true → exec i s = .next s' →
    s'.i2c = s.i2c ∧ s'.rd = s.rd ∧ s'.sl = s.sl ∧ s'.mem = s.mem ∧ s'.traceI2c = s.traceI2c) ∧
  (∀ i s s', isI2cOp i = true → exec i s = .next s' →
    s'.spi = s.spi ∧ s'.enc = s.enc ∧ s'.dev = s.dev ∧ s'.traceSpi = s.traceSpi) ∧
  (∀ s₁ s₂, SpiAgree s₁ s₂ → SpiAgree (spiEngineStep s₁) (spiEngineStep s₂) ∧
    ∀ i t₁ t₂, isSpiOp i = true → exec i s₁ = .next t₁ → exec i s₂ = .next t₂ → SpiAgree t₁ t₂) ∧
  ∀ s₁ s₂, I2cAgree s₁ s₂ → I2cAgree (i2cEngineStep s₁) (i2cEngineStep s₂) ∧
    I2cAgree (i2cSlaveStep s₁) (i2cSlaveStep s₂) ∧
    ∀ i t₁ t₂, isI2cOp i = true → exec i s₁ = .next t₁ → exec i s₂ = .next t₂ → I2cAgree t₁ t₂
end

