-- ==== Sys2Proof/Laws/Decode.lean ====
section
/-! SUPPORT. The fields of the command words, format by format: what the decoder reads back from a word the encoder
writes. -/

namespace Sys2Proof

theorem toNat_append_add {v w : Nat} (a : BitVec v) (b : BitVec w) :
    (a ++ b).toNat = a.toNat * 2 ^ w + b.toNat := by
  rw [BitVec.toNat_append, ← Nat.shiftLeft_add_eq_or_of_lt b.isLt, Nat.shiftLeft_eq]

theorem toNat_field (x : Word) (i n : Nat) : (x.extractLsb' i n).toNat = x.toNat / 2 ^ i % 2 ^ n := by
  rw [BitVec.extractLsb'_toNat, Nat.shiftRight_eq_div_pow]

/-- Format `F0`. -/
theorem fields_F0 (opc : Byte) :
    opcode (opc ++ 0#24) = opc ∧ BitVec.extractLsb' 0 24 (opc ++ 0#24) = 0#24 := by
  have h : (opc ++ 0#24).toNat = opc.toNat * 2 ^ 24 := by
    rw [toNat_append_add]; simp
  have := opc.isLt
  refine ⟨?_, ?_⟩ <;> apply BitVec.eq_of_toNat_eq
  · rw [opcode, toNat_field, h]; omega
  · rw [toNat_field, h]; simp

/-- Formats `FI16` and `FBR`. -/
theorem fields_FI16 (opc : Byte) (w : Half) :
    opcode (opc ++ 0#8 ++ w) = opc ∧ BitVec.extractLsb' 16 8 (opc ++ 0#8 ++ w) = 0#8 ∧
    BitVec.extractLsb' 0 16 (opc ++ 0#8 ++ w) = w := by
  have h : (opc ++ 0#8 ++ w).toNat = opc.toNat * 2 ^ 24 + w.toNat := by
    simp only [toNat_append_add]; simp; omega
  have := w.isLt
  have := opc.isLt
  refine ⟨?_, ?_, ?_⟩ <;> apply BitVec.eq_of_toNat_eq
  · rw [opcode, toNat_field, h]; omega
  · rw [toNat_field, h]; simp; omega
  · rw [toNat_field, h]; omega

/-- Format `FI24`. -/
theorem fields_FI24 (opc : Byte) (n : BitVec 24) :
    opcode (opc ++ n) = opc ∧ BitVec.extractLsb' 0 24 (opc ++ n) = n := by
  have h : (opc ++ n).toNat = opc.toNat * 2 ^ 24 + n.toNat := toNat_append_add _ _
  have := n.isLt
  have := opc.isLt
  refine ⟨?_, ?_⟩ <;> apply BitVec.eq_of_toNat_eq
  · rw [opcode, toNat_field, h]; omega
  · rw [toNat_field, h]; omega

/-- Formats `FREG` and `FREGW`. -/
theorem fields_FREG (opc : Byte) (off : Byte) :
    opcode (opc ++ 0#16 ++ off) = opc ∧ BitVec.extractLsb' 8 16 (opc ++ 0#16 ++ off) = 0#16 ∧
    BitVec.extractLsb' 0 8 (opc ++ 0#16 ++ off) = off := by
  have h : (opc ++ 0#16 ++ off).toNat = opc.toNat * 2 ^ 24 + off.toNat := by
    simp only [toNat_append_add]; simp; omega
  have := off.isLt
  have := opc.isLt
  refine ⟨?_, ?_, ?_⟩ <;> apply BitVec.eq_of_toNat_eq
  · rw [opcode, toNat_field, h]; omega
  · rw [toNat_field, h]; simp; omega
  · rw [toNat_field, h]; omega

/-- Format `FRD`. -/
theorem fields_FRD (opc : Byte) (a : BitVec 7) (b c : Byte) :
    opcode (opc ++ 0#1 ++ a ++ b ++ c) = opc ∧ BitVec.extractLsb' 23 1 (opc ++ 0#1 ++ a ++ b ++ c) = 0#1 ∧
    BitVec.extractLsb' 16 7 (opc ++ 0#1 ++ a ++ b ++ c) = a ∧
    BitVec.extractLsb' 8 8 (opc ++ 0#1 ++ a ++ b ++ c) = b ∧
    BitVec.extractLsb' 0 8 (opc ++ 0#1 ++ a ++ b ++ c) = c := by
  have h : (opc ++ 0#1 ++ a ++ b ++ c).toNat =
      opc.toNat * 2 ^ 24 + a.toNat * 2 ^ 16 + b.toNat * 2 ^ 8 + c.toNat := by
    simp only [toNat_append_add]; simp; omega
  have := a.isLt
  have := b.isLt
  have := c.isLt
  have := opc.isLt
  refine ⟨?_, ?_, ?_, ?_, ?_⟩ <;> apply BitVec.eq_of_toNat_eq
  · rw [opcode, toNat_field, h]; omega
  · rw [toNat_field, h]; simp; omega
  · rw [toNat_field, h]; omega
  · rw [toNat_field, h]; omega
  · rw [toNat_field, h]; omega

/-- Format `FCFG`. -/
theorem fields_FCFG (opc : Byte) (w : BitVec 5) (m : BitVec 2) :
    opcode (opc ++ 0#11 ++ w ++ 0#6 ++ m) = opc ∧
    BitVec.extractLsb' 13 11 (opc ++ 0#11 ++ w ++ 0#6 ++ m) = 0#11 ∧
    BitVec.extractLsb' 2 6 (opc ++ 0#11 ++ w ++ 0#6 ++ m) = 0#6 ∧
    BitVec.extractLsb' 0 2 (opc ++ 0#11 ++ w ++ 0#6 ++ m) = m ∧
    BitVec.extractLsb' 8 5 (opc ++ 0#11 ++ w ++ 0#6 ++ m) = w := by
  have h : (opc ++ 0#11 ++ w ++ 0#6 ++ m).toNat = opc.toNat * 2 ^ 24 + w.toNat * 2 ^ 8 + m.toNat := by
    simp only [toNat_append_add]; simp; omega
  have := w.isLt
  have := m.isLt
  have := opc.isLt
  refine ⟨?_, ?_, ?_, ?_, ?_⟩ <;> apply BitVec.eq_of_toNat_eq
  · rw [opcode, toNat_field, h]; omega
  · rw [toNat_field, h]; simp; omega
  · rw [toNat_field, h]; simp; omega
  · rw [toNat_field, h]; omega
  · rw [toNat_field, h]; omega

/-- A width from 1 to 32 survives its five-bit field (spec/30_encoding.md R86). -/
theorem widthOfField_ofNat {n : Nat} (h1 : 1 ≤ n) (h2 : n ≤ 32) : widthOfField (BitVec.ofNat 5 n) = n := by
  interval_cases n <;> rfl

/-- No word selects two rows of the opcode map: the rows differ in `w0[31:24]` (spec/44_host_program.md R255). -/
theorem opcodeTable_rows_differ :
    opcodeTable.Pairwise fun a b => a.matchWord.extractLsb' 24 8 ≠ b.matchWord.extractLsb' 24 8 := by decide

/-! What the mask and match of a row (spec/30_encoding.md R88) say of the fields. -/

/-- Two concatenations of the same widths are equal when their parts are. -/
theorem append_eq_append {m n : Nat} {a c : BitVec m} {b d : BitVec n} : a ++ b = c ++ d ↔ a = c ∧ b = d := by
  constructor
  · intro h
    have h := congrArg BitVec.toNat h
    rw [toNat_append_add, toNat_append_add] at h
    have hb := b.isLt
    have hd := d.isLt
    have h1 : a.toNat = c.toNat := by
      have := congrArg (· / 2 ^ n) h
      simpa [Nat.add_comm (_ * _), Nat.add_mul_div_right, Nat.div_eq_of_lt, hb, hd, Nat.two_pow_pos] using this
    refine ⟨BitVec.eq_of_toNat_eq h1, BitVec.eq_of_toNat_eq ?_⟩
    rw [h1] at h; omega
  · rintro ⟨rfl, rfl⟩; rfl

/-- A command word is its opcode and its low 24 bits. -/
theorem word_split24 (w : Word) : w = opcode w ++ w.extractLsb' 0 24 := by
  apply BitVec.eq_of_toNat_eq
  have := w.isLt
  simp only [toNat_append_add, opcode, toNat_field]; omega

/-- A command word is its opcode and `w0[23]` and `w0[22:0]`. -/
theorem word_split23 (w : Word) : w = opcode w ++ w.extractLsb' 23 1 ++ w.extractLsb' 0 23 := by
  apply BitVec.eq_of_toNat_eq
  have := w.isLt
  simp only [toNat_append_add, opcode, toNat_field]; omega

/-- A command word is its opcode and `w0[23:16]` and `w0[15:0]`. -/
theorem word_split16 (w : Word) : w = opcode w ++ w.extractLsb' 16 8 ++ w.extractLsb' 0 16 := by
  apply BitVec.eq_of_toNat_eq
  have := w.isLt
  simp only [toNat_append_add, opcode, toNat_field]; omega

/-- A command word is its opcode and `w0[23:8]` and `w0[7:0]`. -/
theorem word_split8 (w : Word) : w = opcode w ++ w.extractLsb' 8 16 ++ w.extractLsb' 0 8 := by
  apply BitVec.eq_of_toNat_eq
  have := w.isLt
  simp only [toNat_append_add, opcode, toNat_field]; omega

/-- A command word is its opcode and the fields of format `FCFG`. -/
theorem word_splitCfg (w : Word) : w = opcode w ++ w.extractLsb' 13 11 ++ w.extractLsb' 8 5 ++ w.extractLsb' 2 6 ++
    w.extractLsb' 0 2 := by
  apply BitVec.eq_of_toNat_eq
  have := w.isLt
  simp only [toNat_append_add, opcode, toNat_field]; omega

/-- The rows of format `F0` select an opcode with `w0[23:0] = 0`. -/
theorem masked_F0 (w : Word) (opc : Byte) :
    w &&& 0xFFFFFFFF#32 = opc ++ 0#24 ↔ opcode w = opc ∧ w.extractLsb' 0 24 = 0#24 := by
  conv_lhs => rw [word_split24 w, show (0xFFFFFFFF#32 : Word) = BitVec.allOnes 8 ++ BitVec.allOnes 24 from rfl]
  rw [BitVec.and_append, append_eq_append]
  simp [-BitVec.reduceAllOnes]

/-- The rows of formats `FI16` and `FBR` select an opcode with `w0[23:16] = 0`. -/
theorem masked_FI16 (w : Word) (opc : Byte) :
    w &&& 0xFFFF0000#32 = opc ++ 0#8 ++ 0#16 ↔ opcode w = opc ∧ w.extractLsb' 16 8 = 0#8 := by
  conv_lhs => rw [word_split16 w, show (0xFFFF0000#32 : Word) = BitVec.allOnes 8 ++ BitVec.allOnes 8 ++ 0#16 from rfl]
  rw [BitVec.and_append, BitVec.and_append, append_eq_append, append_eq_append]
  simp [-BitVec.reduceAllOnes]

/-- The rows of format `FI24` select an opcode alone. -/
theorem masked_FI24 (w : Word) (opc : Byte) :
    w &&& 0xFF000000#32 = opc ++ 0#24 ↔ opcode w = opc := by
  conv_lhs => rw [word_split24 w, show (0xFF000000#32 : Word) = BitVec.allOnes 8 ++ 0#24 from rfl]
  rw [BitVec.and_append, append_eq_append]
  simp [-BitVec.reduceAllOnes]

/-- The rows of formats `FREG` and `FREGW` select an opcode with `w0[23:8] = 0`. -/
theorem masked_FREG (w : Word) (opc : Byte) :
    w &&& 0xFFFFFF00#32 = opc ++ 0#16 ++ 0#8 ↔ opcode w = opc ∧ w.extractLsb' 8 16 = 0#16 := by
  conv_lhs => rw [word_split8 w, show (0xFFFFFF00#32 : Word) = BitVec.allOnes 8 ++ BitVec.allOnes 16 ++ 0#8 from rfl]
  rw [BitVec.and_append, BitVec.and_append, append_eq_append, append_eq_append]
  simp [-BitVec.reduceAllOnes]

/-- The row of format `FRD` selects an opcode with `w0[23] = 0`. -/
theorem masked_FRD (w : Word) (opc : Byte) :
    w &&& 0xFF800000#32 = opc ++ 0#1 ++ 0#23 ↔ opcode w = opc ∧ w.extractLsb' 23 1 = 0#1 := by
  conv_lhs => rw [word_split23 w, show (0xFF800000#32 : Word) = BitVec.allOnes 8 ++ BitVec.allOnes 1 ++ 0#23 from rfl]
  rw [BitVec.and_append, BitVec.and_append, append_eq_append, append_eq_append]
  simp [-BitVec.reduceAllOnes]

/-- The row of format `FCFG` selects an opcode with `w0[23:13] = 0` and `w0[7:2] = 0`. -/
theorem masked_FCFG (w : Word) (opc : Byte) :
    w &&& 0xFFFFE0FC#32 = opc ++ 0#11 ++ 0#5 ++ 0#6 ++ 0#2 ↔
      opcode w = opc ∧ w.extractLsb' 13 11 = 0#11 ∧ w.extractLsb' 2 6 = 0#6 := by
  conv_lhs =>
    rw [word_splitCfg w, show (0xFFFFE0FC#32 : Word) =
      BitVec.allOnes 8 ++ BitVec.allOnes 11 ++ 0#5 ++ BitVec.allOnes 6 ++ 0#2 from rfl]
  rw [BitVec.and_append, BitVec.and_append, BitVec.and_append, BitVec.and_append]
  rw [append_eq_append, append_eq_append, append_eq_append, append_eq_append]
  simp [and_assoc, -BitVec.reduceAllOnes]

end Sys2Proof
end

