-- ==== Sys2Proof/Laws/Memory.lean ====
section
/-! SUPPORT. Host memory: a write is read back, leaves every other address alone and keeps the canonical form. -/

namespace Sys2Proof.Machine

theorem cellsRead_cellsWrite_same (a : Nat) (b : Byte) (l : List Host.Cell) :
    cellsRead a (cellsWrite a b l) = some b := by
  induction l with
  | nil => simp [cellsWrite, cellsRead]
  | cons c rest ih =>
    obtain ⟨k, v⟩ := c
    unfold cellsWrite
    split
    · simp [cellsRead]
    · split
      · simp [cellsRead]
      · rw [cellsRead, if_neg (by omega), ih]

theorem cellsRead_cellsWrite_other {a c : Nat} (h : c ≠ a) (b : Byte) (l : List Host.Cell) :
    cellsRead c (cellsWrite a b l) = cellsRead c l := by
  induction l with
  | nil => simp [cellsWrite, cellsRead, h.symm]
  | cons d rest ih =>
    obtain ⟨k, v⟩ := d
    unfold cellsWrite
    split
    · simp [cellsRead, h.symm]
    · split
      · next hk => subst hk; simp [cellsRead, h.symm]
      · simp [cellsRead, ih]

/-- The addresses of a list after a write are those before it and the written one. -/
theorem mem_cellsWrite_addresses {a : Nat} {b : Byte} {l : List Host.Cell} {k : Nat}
    (h : k ∈ (cellsWrite a b l).map Prod.fst) : k = a ∨ k ∈ l.map Prod.fst := by
  induction l with
  | nil => simpa [cellsWrite] using h
  | cons d rest ih =>
    obtain ⟨m, v⟩ := d
    unfold cellsWrite at h
    split at h
    · simpa using h
    · split at h
      · simp only [List.map_cons, List.mem_cons] at h ⊢
        tauto
      · simp only [List.map_cons, List.mem_cons] at h ⊢
        rcases h with h | h
        · exact .inr (.inl h)
        · rcases ih h with h | h
          · exact .inl h
          · exact .inr (.inr h)

theorem cellsWrite_sorted (a : Nat) (b : Byte) {l : List Host.Cell}
    (h : (l.map Prod.fst).Pairwise (· < ·)) : ((cellsWrite a b l).map Prod.fst).Pairwise (· < ·) := by
  induction l with
  | nil => simp [cellsWrite]
  | cons d rest ih =>
    obtain ⟨k, v⟩ := d
    simp only [List.map_cons, List.pairwise_cons] at h
    unfold cellsWrite
    split
    · next hk =>
      simp only [List.map_cons, List.pairwise_cons, List.mem_cons, forall_eq_or_imp]
      exact ⟨⟨hk, fun x hx => hk.trans (h.1 x hx)⟩, h.1, h.2⟩
    · split
      · next hk =>
        subst hk
        simpa using h
      · simp only [List.map_cons, List.pairwise_cons]
        refine ⟨fun x hx => ?_, ih h.2⟩
        rcases mem_cellsWrite_addresses hx with hx | hx
        · omega
        · exact h.1 x hx

@[simp] theorem Memory.read_write_same (a : Nat) (b : Byte) (m : Memory) : (m.write a b).read a = some b :=
  cellsRead_cellsWrite_same a b m.cells

theorem Memory.read_write_other {a c : Nat} (h : c ≠ a) (b : Byte) (m : Memory) :
    (m.write a b).read c = m.read c :=
  cellsRead_cellsWrite_other h b m.cells

theorem Memory.write_keeps_wf (a : Nat) (b : Byte) {m : Memory} (h : m.wf) : (m.write a b).wf :=
  cellsWrite_sorted a b h

@[simp] theorem Memory.write_regions (a : Nat) (b : Byte) (m : Memory) : (m.write a b).regions = m.regions := rfl

theorem reset_memory_wf : State.reset.mem.wf := by simp [State.reset, Memory.wf]

end Sys2Proof.Machine
end

