-- ==== Sys2Proof/Laws/State.lean ====
section
/-! SUPPORT. One lemma for each field of `State` under each of its named updates, all true by definition. -/

namespace Sys2Proof.Machine

/-! `State.pop` -/

@[simp] theorem State.pop_spi (s : State) : s.pop.spi = s.spi := rfl
@[simp] theorem State.pop_enc (s : State) : s.pop.enc = s.enc := rfl
@[simp] theorem State.pop_i2c (s : State) : s.pop.i2c = s.i2c := rfl
@[simp] theorem State.pop_rd (s : State) : s.pop.rd = s.rd := rfl
@[simp] theorem State.pop_host (s : State) : s.pop.host = s.host := rfl
@[simp] theorem State.pop_mem (s : State) : s.pop.mem = s.mem := rfl
@[simp] theorem State.pop_faults (s : State) : s.pop.faults = s.faults := rfl
@[simp] theorem State.pop_refused (s : State) : s.pop.refused = s.refused := rfl
@[simp] theorem State.pop_refusal (s : State) : s.pop.refusal = s.refusal := rfl
@[simp] theorem State.pop_t (s : State) : s.pop.t = s.t := rfl
@[simp] theorem State.pop_traceSpi (s : State) : s.pop.traceSpi = s.traceSpi := rfl
@[simp] theorem State.pop_traceI2c (s : State) : s.pop.traceI2c = s.traceI2c := rfl
@[simp] theorem State.pop_dev (s : State) : s.pop.dev = s.dev := rfl
@[simp] theorem State.pop_sl (s : State) : s.pop.sl = s.sl := rfl
@[simp] theorem State.pop_env (s : State) : s.pop.env = { s.env with draws := s.env.draws.tail, drawn := s.env.drawn + 1 } := rfl

/-! `State.elapse` -/

@[simp] theorem State.elapse_spi (s : State) (n : Nat) : (s.elapse n).spi = s.spi := rfl
@[simp] theorem State.elapse_enc (s : State) (n : Nat) : (s.elapse n).enc = s.enc := rfl
@[simp] theorem State.elapse_i2c (s : State) (n : Nat) : (s.elapse n).i2c = s.i2c := rfl
@[simp] theorem State.elapse_rd (s : State) (n : Nat) : (s.elapse n).rd = s.rd := rfl
@[simp] theorem State.elapse_host (s : State) (n : Nat) : (s.elapse n).host = s.host := rfl
@[simp] theorem State.elapse_mem (s : State) (n : Nat) : (s.elapse n).mem = s.mem := rfl
@[simp] theorem State.elapse_faults (s : State) (n : Nat) : (s.elapse n).faults = s.faults := rfl
@[simp] theorem State.elapse_refused (s : State) (n : Nat) : (s.elapse n).refused = s.refused := rfl
@[simp] theorem State.elapse_refusal (s : State) (n : Nat) : (s.elapse n).refusal = s.refusal := rfl
@[simp] theorem State.elapse_t (s : State) (n : Nat) : (s.elapse n).t = s.t + (n + s.peek) := rfl
@[simp] theorem State.elapse_traceSpi (s : State) (n : Nat) : (s.elapse n).traceSpi = s.traceSpi := rfl
@[simp] theorem State.elapse_traceI2c (s : State) (n : Nat) : (s.elapse n).traceI2c = s.traceI2c := rfl
@[simp] theorem State.elapse_dev (s : State) (n : Nat) : (s.elapse n).dev = s.dev := rfl
@[simp] theorem State.elapse_sl (s : State) (n : Nat) : (s.elapse n).sl = s.sl := rfl
@[simp] theorem State.elapse_env (s : State) (n : Nat) : (s.elapse n).env = s.pop.env := rfl

/-! `State.raise` -/

@[simp] theorem State.raise_spi (s : State) (c : FaultCode) : (s.raise c).spi = s.spi := rfl
@[simp] theorem State.raise_enc (s : State) (c : FaultCode) : (s.raise c).enc = s.enc := rfl
@[simp] theorem State.raise_i2c (s : State) (c : FaultCode) : (s.raise c).i2c = s.i2c := rfl
@[simp] theorem State.raise_rd (s : State) (c : FaultCode) : (s.raise c).rd = s.rd := rfl
@[simp] theorem State.raise_host (s : State) (c : FaultCode) : (s.raise c).host = s.host := rfl
@[simp] theorem State.raise_mem (s : State) (c : FaultCode) : (s.raise c).mem = s.mem := rfl
@[simp] theorem State.raise_faults (s : State) (c : FaultCode) : (s.raise c).faults = if c ∈ s.faults then s.faults else s.faults ++ [c] := rfl
@[simp] theorem State.raise_refused (s : State) (c : FaultCode) : (s.raise c).refused = s.refused := rfl
@[simp] theorem State.raise_refusal (s : State) (c : FaultCode) : (s.raise c).refusal = s.refusal := rfl
@[simp] theorem State.raise_t (s : State) (c : FaultCode) : (s.raise c).t = s.t := rfl
@[simp] theorem State.raise_traceSpi (s : State) (c : FaultCode) : (s.raise c).traceSpi = s.traceSpi := rfl
@[simp] theorem State.raise_traceI2c (s : State) (c : FaultCode) : (s.raise c).traceI2c = s.traceI2c := rfl
@[simp] theorem State.raise_dev (s : State) (c : FaultCode) : (s.raise c).dev = s.dev := rfl
@[simp] theorem State.raise_sl (s : State) (c : FaultCode) : (s.raise c).sl = s.sl := rfl
@[simp] theorem State.raise_env (s : State) (c : FaultCode) : (s.raise c).env = s.env := rfl

/-! `State.raiseVerifyFail` -/

@[simp] theorem State.raiseVerifyFail_spi (s : State) : s.raiseVerifyFail.spi = s.spi := rfl
@[simp] theorem State.raiseVerifyFail_enc (s : State) : s.raiseVerifyFail.enc = { s.enc with fatal := true } := rfl
@[simp] theorem State.raiseVerifyFail_i2c (s : State) : s.raiseVerifyFail.i2c = s.i2c := rfl
@[simp] theorem State.raiseVerifyFail_rd (s : State) : s.raiseVerifyFail.rd = s.rd := rfl
@[simp] theorem State.raiseVerifyFail_host (s : State) : s.raiseVerifyFail.host = s.host := rfl
@[simp] theorem State.raiseVerifyFail_mem (s : State) : s.raiseVerifyFail.mem = s.mem := rfl
@[simp] theorem State.raiseVerifyFail_faults (s : State) : s.raiseVerifyFail.faults = if FaultCode.verify ∈ s.faults then s.faults else s.faults ++ [.verify] := rfl
@[simp] theorem State.raiseVerifyFail_refused (s : State) : s.raiseVerifyFail.refused = s.refused := rfl
@[simp] theorem State.raiseVerifyFail_refusal (s : State) : s.raiseVerifyFail.refusal = s.refusal := rfl
@[simp] theorem State.raiseVerifyFail_t (s : State) : s.raiseVerifyFail.t = s.t := rfl
@[simp] theorem State.raiseVerifyFail_traceSpi (s : State) : s.raiseVerifyFail.traceSpi = s.traceSpi := rfl
@[simp] theorem State.raiseVerifyFail_traceI2c (s : State) : s.raiseVerifyFail.traceI2c = s.traceI2c := rfl
@[simp] theorem State.raiseVerifyFail_dev (s : State) : s.raiseVerifyFail.dev = s.dev := rfl
@[simp] theorem State.raiseVerifyFail_sl (s : State) : s.raiseVerifyFail.sl = s.sl := rfl
@[simp] theorem State.raiseVerifyFail_env (s : State) : s.raiseVerifyFail.env = s.env := rfl

/-! `State.refuse` -/

@[simp] theorem State.refuse_spi (s : State) (c : RefusalCode) : (s.refuse c).spi = s.spi := rfl
@[simp] theorem State.refuse_enc (s : State) (c : RefusalCode) : (s.refuse c).enc = s.enc := rfl
@[simp] theorem State.refuse_i2c (s : State) (c : RefusalCode) : (s.refuse c).i2c = s.i2c := rfl
@[simp] theorem State.refuse_rd (s : State) (c : RefusalCode) : (s.refuse c).rd = s.rd := rfl
@[simp] theorem State.refuse_host (s : State) (c : RefusalCode) : (s.refuse c).host = s.host := rfl
@[simp] theorem State.refuse_mem (s : State) (c : RefusalCode) : (s.refuse c).mem = s.mem := rfl
@[simp] theorem State.refuse_faults (s : State) (c : RefusalCode) : (s.refuse c).faults = s.faults := rfl
@[simp] theorem State.refuse_refused (s : State) (c : RefusalCode) : (s.refuse c).refused = true := rfl
@[simp] theorem State.refuse_refusal (s : State) (c : RefusalCode) : (s.refuse c).refusal = some c := rfl
@[simp] theorem State.refuse_t (s : State) (c : RefusalCode) : (s.refuse c).t = s.t := rfl
@[simp] theorem State.refuse_traceSpi (s : State) (c : RefusalCode) : (s.refuse c).traceSpi = s.traceSpi := rfl
@[simp] theorem State.refuse_traceI2c (s : State) (c : RefusalCode) : (s.refuse c).traceI2c = s.traceI2c := rfl
@[simp] theorem State.refuse_dev (s : State) (c : RefusalCode) : (s.refuse c).dev = s.dev := rfl
@[simp] theorem State.refuse_sl (s : State) (c : RefusalCode) : (s.refuse c).sl = s.sl := rfl
@[simp] theorem State.refuse_env (s : State) (c : RefusalCode) : (s.refuse c).env = s.env := rfl

/-! `State.releaseReader` -/

@[simp] theorem State.releaseReader_spi (s : State) : s.releaseReader.spi = s.spi := rfl
@[simp] theorem State.releaseReader_enc (s : State) : s.releaseReader.enc = s.enc := rfl
@[simp] theorem State.releaseReader_i2c (s : State) : s.releaseReader.i2c = s.i2c := rfl
@[simp] theorem State.releaseReader_rd (s : State) : s.releaseReader.rd = { s.rd with state := .idle, cause := .none } := rfl
@[simp] theorem State.releaseReader_host (s : State) : s.releaseReader.host = s.host := rfl
@[simp] theorem State.releaseReader_mem (s : State) : s.releaseReader.mem = s.mem := rfl
@[simp] theorem State.releaseReader_faults (s : State) : s.releaseReader.faults = s.faults := rfl
@[simp] theorem State.releaseReader_refused (s : State) : s.releaseReader.refused = s.refused := rfl
@[simp] theorem State.releaseReader_refusal (s : State) : s.releaseReader.refusal = s.refusal := rfl
@[simp] theorem State.releaseReader_t (s : State) : s.releaseReader.t = s.t := rfl
@[simp] theorem State.releaseReader_traceSpi (s : State) : s.releaseReader.traceSpi = s.traceSpi := rfl
@[simp] theorem State.releaseReader_traceI2c (s : State) : s.releaseReader.traceI2c = s.traceI2c := rfl
@[simp] theorem State.releaseReader_dev (s : State) : s.releaseReader.dev = s.dev := rfl
@[simp] theorem State.releaseReader_sl (s : State) : s.releaseReader.sl = s.sl := rfl
@[simp] theorem State.releaseReader_env (s : State) : s.releaseReader.env = s.env := rfl

/-! `State.advance` -/

@[simp] theorem State.advance_spi (s : State) (n : Nat) : (s.advance n).spi = s.spi := rfl
@[simp] theorem State.advance_enc (s : State) (n : Nat) : (s.advance n).enc = s.enc := rfl
@[simp] theorem State.advance_i2c (s : State) (n : Nat) : (s.advance n).i2c = s.i2c := rfl
@[simp] theorem State.advance_rd (s : State) (n : Nat) : (s.advance n).rd = s.rd := rfl
@[simp] theorem State.advance_host (s : State) (n : Nat) : (s.advance n).host = { s.host with pc := s.host.pc + BitVec.ofNat 32 n } := rfl
@[simp] theorem State.advance_mem (s : State) (n : Nat) : (s.advance n).mem = s.mem := rfl
@[simp] theorem State.advance_faults (s : State) (n : Nat) : (s.advance n).faults = s.faults := rfl
@[simp] theorem State.advance_refused (s : State) (n : Nat) : (s.advance n).refused = s.refused := rfl
@[simp] theorem State.advance_refusal (s : State) (n : Nat) : (s.advance n).refusal = s.refusal := rfl
@[simp] theorem State.advance_t (s : State) (n : Nat) : (s.advance n).t = s.t := rfl
@[simp] theorem State.advance_traceSpi (s : State) (n : Nat) : (s.advance n).traceSpi = s.traceSpi := rfl
@[simp] theorem State.advance_traceI2c (s : State) (n : Nat) : (s.advance n).traceI2c = s.traceI2c := rfl
@[simp] theorem State.advance_dev (s : State) (n : Nat) : (s.advance n).dev = s.dev := rfl
@[simp] theorem State.advance_sl (s : State) (n : Nat) : (s.advance n).sl = s.sl := rfl
@[simp] theorem State.advance_env (s : State) (n : Nat) : (s.advance n).env = s.env := rfl

/-! `State.setR` -/

@[simp] theorem State.setR_spi (s : State) (v : Word) : (s.setR v).spi = s.spi := rfl
@[simp] theorem State.setR_enc (s : State) (v : Word) : (s.setR v).enc = s.enc := rfl
@[simp] theorem State.setR_i2c (s : State) (v : Word) : (s.setR v).i2c = s.i2c := rfl
@[simp] theorem State.setR_rd (s : State) (v : Word) : (s.setR v).rd = s.rd := rfl
@[simp] theorem State.setR_host (s : State) (v : Word) : (s.setR v).host = { s.host with r := v } := rfl
@[simp] theorem State.setR_mem (s : State) (v : Word) : (s.setR v).mem = s.mem := rfl
@[simp] theorem State.setR_faults (s : State) (v : Word) : (s.setR v).faults = s.faults := rfl
@[simp] theorem State.setR_refused (s : State) (v : Word) : (s.setR v).refused = s.refused := rfl
@[simp] theorem State.setR_refusal (s : State) (v : Word) : (s.setR v).refusal = s.refusal := rfl
@[simp] theorem State.setR_t (s : State) (v : Word) : (s.setR v).t = s.t := rfl
@[simp] theorem State.setR_traceSpi (s : State) (v : Word) : (s.setR v).traceSpi = s.traceSpi := rfl
@[simp] theorem State.setR_traceI2c (s : State) (v : Word) : (s.setR v).traceI2c = s.traceI2c := rfl
@[simp] theorem State.setR_dev (s : State) (v : Word) : (s.setR v).dev = s.dev := rfl
@[simp] theorem State.setR_sl (s : State) (v : Word) : (s.setR v).sl = s.sl := rfl
@[simp] theorem State.setR_env (s : State) (v : Word) : (s.setR v).env = s.env := rfl

/-! `State.emitSpi` -/

@[simp] theorem State.emitSpi_spi (s : State) (e : SpiEvent) : (s.emitSpi e).spi = s.spi := rfl
@[simp] theorem State.emitSpi_enc (s : State) (e : SpiEvent) : (s.emitSpi e).enc = s.enc := rfl
@[simp] theorem State.emitSpi_i2c (s : State) (e : SpiEvent) : (s.emitSpi e).i2c = s.i2c := rfl
@[simp] theorem State.emitSpi_rd (s : State) (e : SpiEvent) : (s.emitSpi e).rd = s.rd := rfl
@[simp] theorem State.emitSpi_host (s : State) (e : SpiEvent) : (s.emitSpi e).host = s.host := rfl
@[simp] theorem State.emitSpi_mem (s : State) (e : SpiEvent) : (s.emitSpi e).mem = s.mem := rfl
@[simp] theorem State.emitSpi_faults (s : State) (e : SpiEvent) : (s.emitSpi e).faults = s.faults := rfl
@[simp] theorem State.emitSpi_refused (s : State) (e : SpiEvent) : (s.emitSpi e).refused = s.refused := rfl
@[simp] theorem State.emitSpi_refusal (s : State) (e : SpiEvent) : (s.emitSpi e).refusal = s.refusal := rfl
@[simp] theorem State.emitSpi_t (s : State) (e : SpiEvent) : (s.emitSpi e).t = s.t := rfl
@[simp] theorem State.emitSpi_traceSpi (s : State) (e : SpiEvent) : (s.emitSpi e).traceSpi = s.traceSpi ++ [⟨s.t, e⟩] := rfl
@[simp] theorem State.emitSpi_traceI2c (s : State) (e : SpiEvent) : (s.emitSpi e).traceI2c = s.traceI2c := rfl
@[simp] theorem State.emitSpi_dev (s : State) (e : SpiEvent) : (s.emitSpi e).dev = s.dev := rfl
@[simp] theorem State.emitSpi_sl (s : State) (e : SpiEvent) : (s.emitSpi e).sl = s.sl := rfl
@[simp] theorem State.emitSpi_env (s : State) (e : SpiEvent) : (s.emitSpi e).env = s.env := rfl

/-! `State.emitI2c` -/

@[simp] theorem State.emitI2c_spi (s : State) (e : I2cEvent) : (s.emitI2c e).spi = s.spi := rfl
@[simp] theorem State.emitI2c_enc (s : State) (e : I2cEvent) : (s.emitI2c e).enc = s.enc := rfl
@[simp] theorem State.emitI2c_i2c (s : State) (e : I2cEvent) : (s.emitI2c e).i2c = s.i2c := rfl
@[simp] theorem State.emitI2c_rd (s : State) (e : I2cEvent) : (s.emitI2c e).rd = s.rd := rfl
@[simp] theorem State.emitI2c_host (s : State) (e : I2cEvent) : (s.emitI2c e).host = s.host := rfl
@[simp] theorem State.emitI2c_mem (s : State) (e : I2cEvent) : (s.emitI2c e).mem = s.mem := rfl
@[simp] theorem State.emitI2c_faults (s : State) (e : I2cEvent) : (s.emitI2c e).faults = s.faults := rfl
@[simp] theorem State.emitI2c_refused (s : State) (e : I2cEvent) : (s.emitI2c e).refused = s.refused := rfl
@[simp] theorem State.emitI2c_refusal (s : State) (e : I2cEvent) : (s.emitI2c e).refusal = s.refusal := rfl
@[simp] theorem State.emitI2c_t (s : State) (e : I2cEvent) : (s.emitI2c e).t = s.t := rfl
@[simp] theorem State.emitI2c_traceSpi (s : State) (e : I2cEvent) : (s.emitI2c e).traceSpi = s.traceSpi := rfl
@[simp] theorem State.emitI2c_traceI2c (s : State) (e : I2cEvent) : (s.emitI2c e).traceI2c = s.traceI2c ++ [⟨s.t, e⟩] := rfl
@[simp] theorem State.emitI2c_dev (s : State) (e : I2cEvent) : (s.emitI2c e).dev = s.dev := rfl
@[simp] theorem State.emitI2c_sl (s : State) (e : I2cEvent) : (s.emitI2c e).sl = s.sl := rfl
@[simp] theorem State.emitI2c_env (s : State) (e : I2cEvent) : (s.emitI2c e).env = s.env := rfl

/-! `State.setFs` -/

@[simp] theorem State.setFs_spi (s : State) (p : FilterStep) : (s.setFs p).spi = s.spi := rfl
@[simp] theorem State.setFs_enc (s : State) (p : FilterStep) : (s.setFs p).enc = { s.enc with fs := p } := rfl
@[simp] theorem State.setFs_i2c (s : State) (p : FilterStep) : (s.setFs p).i2c = s.i2c := rfl
@[simp] theorem State.setFs_rd (s : State) (p : FilterStep) : (s.setFs p).rd = s.rd := rfl
@[simp] theorem State.setFs_host (s : State) (p : FilterStep) : (s.setFs p).host = s.host := rfl
@[simp] theorem State.setFs_mem (s : State) (p : FilterStep) : (s.setFs p).mem = s.mem := rfl
@[simp] theorem State.setFs_faults (s : State) (p : FilterStep) : (s.setFs p).faults = s.faults := rfl
@[simp] theorem State.setFs_refused (s : State) (p : FilterStep) : (s.setFs p).refused = s.refused := rfl
@[simp] theorem State.setFs_refusal (s : State) (p : FilterStep) : (s.setFs p).refusal = s.refusal := rfl
@[simp] theorem State.setFs_t (s : State) (p : FilterStep) : (s.setFs p).t = s.t := rfl
@[simp] theorem State.setFs_traceSpi (s : State) (p : FilterStep) : (s.setFs p).traceSpi = s.traceSpi := rfl
@[simp] theorem State.setFs_traceI2c (s : State) (p : FilterStep) : (s.setFs p).traceI2c = s.traceI2c := rfl
@[simp] theorem State.setFs_dev (s : State) (p : FilterStep) : (s.setFs p).dev = s.dev := rfl
@[simp] theorem State.setFs_sl (s : State) (p : FilterStep) : (s.setFs p).sl = s.sl := rfl
@[simp] theorem State.setFs_env (s : State) (p : FilterStep) : (s.setFs p).env = s.env := rfl

/-! `State.masterBit` -/

@[simp] theorem State.masterBit_spi (s : State) (b : Bool) : (s.masterBit b).spi = s.spi := rfl
@[simp] theorem State.masterBit_enc (s : State) (b : Bool) : (s.masterBit b).enc = s.enc := rfl
@[simp] theorem State.masterBit_i2c (s : State) (b : Bool) : (s.masterBit b).i2c = { s.i2c with sclDrive := .low, sdaDrive := .ofBit b } := rfl
@[simp] theorem State.masterBit_rd (s : State) (b : Bool) : (s.masterBit b).rd = s.rd := rfl
@[simp] theorem State.masterBit_host (s : State) (b : Bool) : (s.masterBit b).host = s.host := rfl
@[simp] theorem State.masterBit_mem (s : State) (b : Bool) : (s.masterBit b).mem = s.mem := rfl
@[simp] theorem State.masterBit_faults (s : State) (b : Bool) : (s.masterBit b).faults = s.faults := rfl
@[simp] theorem State.masterBit_refused (s : State) (b : Bool) : (s.masterBit b).refused = s.refused := rfl
@[simp] theorem State.masterBit_refusal (s : State) (b : Bool) : (s.masterBit b).refusal = s.refusal := rfl
@[simp] theorem State.masterBit_t (s : State) (b : Bool) : (s.masterBit b).t = s.t := rfl
@[simp] theorem State.masterBit_traceSpi (s : State) (b : Bool) : (s.masterBit b).traceSpi = s.traceSpi := rfl
@[simp] theorem State.masterBit_traceI2c (s : State) (b : Bool) : (s.masterBit b).traceI2c = s.traceI2c ++ [⟨s.t, .bitM b⟩] := rfl
@[simp] theorem State.masterBit_dev (s : State) (b : Bool) : (s.masterBit b).dev = s.dev := rfl
@[simp] theorem State.masterBit_sl (s : State) (b : Bool) : (s.masterBit b).sl = { s.sl with sdaDrive := .released } := rfl
@[simp] theorem State.masterBit_env (s : State) (b : Bool) : (s.masterBit b).env = s.env := rfl

/-! `State.slaveBit` -/

@[simp] theorem State.slaveBit_spi (s : State) (b : Bool) : (s.slaveBit b).spi = s.spi := rfl
@[simp] theorem State.slaveBit_enc (s : State) (b : Bool) : (s.slaveBit b).enc = s.enc := rfl
@[simp] theorem State.slaveBit_i2c (s : State) (b : Bool) : (s.slaveBit b).i2c = { s.i2c with sclDrive := .low, sdaDrive := .released } := rfl
@[simp] theorem State.slaveBit_rd (s : State) (b : Bool) : (s.slaveBit b).rd = s.rd := rfl
@[simp] theorem State.slaveBit_host (s : State) (b : Bool) : (s.slaveBit b).host = s.host := rfl
@[simp] theorem State.slaveBit_mem (s : State) (b : Bool) : (s.slaveBit b).mem = s.mem := rfl
@[simp] theorem State.slaveBit_faults (s : State) (b : Bool) : (s.slaveBit b).faults = s.faults := rfl
@[simp] theorem State.slaveBit_refused (s : State) (b : Bool) : (s.slaveBit b).refused = s.refused := rfl
@[simp] theorem State.slaveBit_refusal (s : State) (b : Bool) : (s.slaveBit b).refusal = s.refusal := rfl
@[simp] theorem State.slaveBit_t (s : State) (b : Bool) : (s.slaveBit b).t = s.t := rfl
@[simp] theorem State.slaveBit_traceSpi (s : State) (b : Bool) : (s.slaveBit b).traceSpi = s.traceSpi := rfl
@[simp] theorem State.slaveBit_traceI2c (s : State) (b : Bool) : (s.slaveBit b).traceI2c = s.traceI2c ++ [⟨s.t, .bitS b⟩] := rfl
@[simp] theorem State.slaveBit_dev (s : State) (b : Bool) : (s.slaveBit b).dev = s.dev := rfl
@[simp] theorem State.slaveBit_sl (s : State) (b : Bool) : (s.slaveBit b).sl = { s.sl with sdaDrive := .ofBit b } := rfl
@[simp] theorem State.slaveBit_env (s : State) (b : Bool) : (s.slaveBit b).env = s.env := rfl

/-! `slaveHold` -/

@[simp] theorem slaveHold_spi (s : State) : (slaveHold s).spi = s.spi := rfl
@[simp] theorem slaveHold_enc (s : State) : (slaveHold s).enc = s.enc := rfl
@[simp] theorem slaveHold_i2c (s : State) : (slaveHold s).i2c = { s.i2c with sclDrive := .released } := rfl
@[simp] theorem slaveHold_rd (s : State) : (slaveHold s).rd = s.rd := rfl
@[simp] theorem slaveHold_host (s : State) : (slaveHold s).host = s.host := rfl
@[simp] theorem slaveHold_mem (s : State) : (slaveHold s).mem = s.mem := rfl
@[simp] theorem slaveHold_faults (s : State) : (slaveHold s).faults = s.faults := rfl
@[simp] theorem slaveHold_refused (s : State) : (slaveHold s).refused = s.refused := rfl
@[simp] theorem slaveHold_refusal (s : State) : (slaveHold s).refusal = s.refusal := rfl
@[simp] theorem slaveHold_t (s : State) : (slaveHold s).t = s.t := rfl
@[simp] theorem slaveHold_traceSpi (s : State) : (slaveHold s).traceSpi = s.traceSpi := rfl
@[simp] theorem slaveHold_traceI2c (s : State) : (slaveHold s).traceI2c = s.traceI2c ++ [⟨s.t, .stretch⟩] := rfl
@[simp] theorem slaveHold_dev (s : State) : (slaveHold s).dev = s.dev := rfl
@[simp] theorem slaveHold_sl (s : State) : (slaveHold s).sl = { s.sl with sclHold := true } := rfl
@[simp] theorem slaveHold_env (s : State) : (slaveHold s).env = s.env := rfl

/-! `slaveRelease` -/

@[simp] theorem slaveRelease_spi (s : State) : (slaveRelease s).spi = s.spi := rfl
@[simp] theorem slaveRelease_enc (s : State) : (slaveRelease s).enc = s.enc := rfl
@[simp] theorem slaveRelease_i2c (s : State) : (slaveRelease s).i2c =
    { s.i2c with sclDrive := if s.i2c.owner then .low else s.i2c.sclDrive } := rfl
@[simp] theorem slaveRelease_rd (s : State) : (slaveRelease s).rd = s.rd := rfl
@[simp] theorem slaveRelease_host (s : State) : (slaveRelease s).host = s.host := rfl
@[simp] theorem slaveRelease_mem (s : State) : (slaveRelease s).mem = s.mem := rfl
@[simp] theorem slaveRelease_faults (s : State) : (slaveRelease s).faults = s.faults := rfl
@[simp] theorem slaveRelease_refused (s : State) : (slaveRelease s).refused = s.refused := rfl
@[simp] theorem slaveRelease_refusal (s : State) : (slaveRelease s).refusal = s.refusal := rfl
@[simp] theorem slaveRelease_t (s : State) : (slaveRelease s).t = s.t := rfl
@[simp] theorem slaveRelease_traceSpi (s : State) : (slaveRelease s).traceSpi = s.traceSpi := rfl
@[simp] theorem slaveRelease_traceI2c (s : State) : (slaveRelease s).traceI2c = s.traceI2c := rfl
@[simp] theorem slaveRelease_dev (s : State) : (slaveRelease s).dev = s.dev := rfl
@[simp] theorem slaveRelease_sl (s : State) : (slaveRelease s).sl = { s.sl with sclHold := false } := rfl
@[simp] theorem slaveRelease_env (s : State) : (slaveRelease s).env = s.env := rfl

end Sys2Proof.Machine
end

