-- ==== Sys2Proof/Laws/Ops.lean ====
section
/-! SUPPORT. For each shared operation, one lemma that says once everything it can do; proofs cite these instead of
unfolding the operation. -/

namespace Sys2Proof.Machine

/-! The sensor. -/

/-- A frame start changes only the sensor's answer and the draws; the answer depends on the sensor alone. -/
theorem deviceFrameStart_cases (tFall : Nat) (s : State) :
    deviceFrameStart tFall s = deviceAnyAnswer s ∨
    (deviceFrameStart tFall s = deviceRegAnswer s ∧
      ((∃ e, s.dev.resp = .regRead e ∧ tTurn ≤ tFall - e) ∨
        ∃ v e, s.dev.resp = .regWrite v e ∧ tCommit ≤ tFall - e)) := by
  unfold deviceFrameStart
  split
  · exact .inl rfl
  · next e he =>
    split
    · next h => exact .inr ⟨rfl, .inl ⟨e, he, h⟩⟩
    · exact .inl rfl
  · next v e he =>
    split
    · next h => exact .inr ⟨rfl, .inr ⟨v, e, he, h⟩⟩
    · exact .inl rfl

/-- The answer fixed at a frame start is a function of the time, the sensor and the draws alone, and nothing else
changes. -/
theorem deviceFrameStart_answer (tFall : Nat) (d : Device) (e : Env) :
    ∃ v, ∀ s : State, s.dev = d → s.env = e →
      deviceFrameStart tFall s = { s.pop with dev := { s.dev with out := some v } } := by
  have hany : ∃ v, ∀ s : State, s.dev = d → s.env = e →
      deviceAnyAnswer s = { s.pop with dev := { s.dev with out := some v } } :=
    ⟨BitVec.ofNat 16 (e.draws.headD (Config.freeDraw e.drawn)), by rintro s rfl rfl; rfl⟩
  have hreg : ∃ v, ∀ s : State, s.dev = d → s.env = e →
      deviceRegAnswer s = { s.pop with dev := { s.dev with out := some v } } :=
    ⟨d.reg14 ++ BitVec.ofNat 8 (e.draws.headD (Config.freeDraw e.drawn)), by rintro s rfl rfl; rfl⟩
  obtain ⟨v₁, h₁⟩ := hany
  obtain ⟨v₂, h₂⟩ := hreg
  cases hr : d.resp with
  | angle => exact ⟨v₁, fun s hd he => by rw [← h₁ s hd he]; simp only [deviceFrameStart, hd, hr]⟩
  | regRead t =>
    by_cases hg : tFall - t ≥ tTurn
    · exact ⟨v₂, fun s hd he => by rw [← h₂ s hd he]; simp only [deviceFrameStart, hd, hr, hg, if_true]⟩
    · exact ⟨v₁, fun s hd he => by rw [← h₁ s hd he]; simp only [deviceFrameStart, hd, hr, hg, if_false]⟩
  | regWrite x t =>
    by_cases hg : tFall - t ≥ tCommit
    · exact ⟨v₂, fun s hd he => by rw [← h₂ s hd he]; simp only [deviceFrameStart, hd, hr, hg, if_true]⟩
    · exact ⟨v₁, fun s hd he => by rw [← h₁ s hd he]; simp only [deviceFrameStart, hd, hr, hg, if_false]⟩

/-- A frame start changes nothing but the answer word and the draws. -/
theorem deviceFrameStart_frame (tFall : Nat) (s : State) :
    ∃ v, deviceFrameStart tFall s = { s.pop with dev := { s.dev with out := some v } } :=
  let ⟨v, h⟩ := deviceFrameStart_answer tFall s.dev s.env
  ⟨v, h s rfl rfl⟩

/-- A frame end changes nothing but the sensor and the draws; the answer word stays. -/
theorem deviceFrameEnd_frame (w : Half) (tRise : Nat) (s : State) :
    ∃ reg resp e, deviceFrameEnd w tRise s =
        { s with dev := { s.dev with reg14 := reg, resp := resp, inWord := some w }, env := e } ∧
      (resp = .regRead tRise ∨ (∃ v, resp = .regWrite v tRise) ∨ resp = .angle) := by
  unfold deviceFrameEnd
  split
  · exact ⟨_, _, _, rfl, .inl rfl⟩
  · split
    · dsimp only [deviceCommit]
      split
      · exact ⟨_, _, _, rfl, .inr (.inl ⟨_, rfl⟩)⟩
      · exact ⟨_, _, _, rfl, .inr (.inl ⟨_, rfl⟩)⟩
    · exact ⟨_, _, _, rfl, .inr (.inr rfl)⟩

/-! SPI frames, seen from the host. -/

/-- The least time between two SCLK edges is at least 41 ns, whatever the clock chosen (spec/40_spi_transactor.md
R121). -/
theorem half_ge : 41 ≤ half := by
  have h1 : Config.fSclk ≤ 12000000 := by unfold Config.fSclk; have := Config.fSclkIndex.isLt; omega
  have h0 : 0 < Config.fSclk := by unfold Config.fSclk; omega
  unfold half
  rw [Nat.le_div_iff_mul_le (by omega)]; omega

/-- The state of the SPI unit once a frame with word `w` has been begun. -/
def SpiUnit.loaded (u : SpiUnit) (w : Half) (tFall : Nat) : SpiUnit :=
  { u with
    tx := some w, rx := some 0x0000#16, bit := 16, done := false, word := some w, csN := false,
    mosi := some w.msb, tCsFall := some tFall, phase := .setup }

/-- A frame start loads the engine, draws the gap and the sensor's answer, and changes nothing else; neither draw
depends on the word sent (spec/40_spi_transactor.md R125). -/
theorem startFrame_spec (s : State) :
    ∃ tFall v, max s.t (s.spi.tCsRise + Config.tCsIdle) ≤ tFall ∧
      ∀ w, startFrame w s = { s.pop.pop with
        t := tFall, spi := s.spi.loaded w tFall, traceSpi := s.traceSpi ++ [⟨tFall, .csFall⟩],
        dev := { s.dev with out := some v } } := by
  obtain ⟨v, hv⟩ := deviceFrameStart_answer (max s.t (s.spi.tCsRise + Config.tCsIdle) + s.peek) s.dev s.pop.env
  exact ⟨_, v, Nat.le_add_right _ _, fun w => hv _ rfl rfl⟩

/-- `frameCheck` passes exactly in a configured, idle unit with nothing pending. -/
theorem frameCheck_eq_none {s : State} :
    frameCheck s = none ↔ s.spi.configured = true ∧ s.spi.phase = .idle ∧ s.spi.pending = false := by
  unfold frameCheck
  cases s.spi.configured <;> cases s.spi.pending <;> cases s.spi.phase <;> simp

/-- What `frameCheck` finds when it does not pass (spec/60_exceptions.md R274). -/
theorem frameCheck_eq_some {s : State} {c : FaultCode} (h : frameCheck s = some c) :
    (c = .spiUnconfig ∧ s.spi.configured = false) ∨
    (c = .spiContract ∧ s.spi.configured = true ∧ (s.spi.phase ≠ .idle ∨ s.spi.pending = true)) := by
  unfold frameCheck at h
  revert h
  cases s.spi.configured <;> cases s.spi.pending <;> cases s.spi.phase <;> simp <;> exact Eq.symm

/-- Beginning a frame either records a fault of the frame check or starts the frame. -/
theorem beginFrame_cases (w : Half) (s : State) :
    (∃ c, frameCheck s = some c ∧ beginFrame w s = s.raise c) ∨
    (frameCheck s = none ∧ beginFrame w s = startFrame w s) := by
  unfold beginFrame
  cases h : frameCheck s with
  | none => exact .inr ⟨rfl, rfl⟩
  | some c => exact .inl ⟨c, rfl, rfl⟩

/-- A blocking transfer begins its frame, holds, takes its word, or faults on an unwritten result. -/
theorem spiTransfer_cases (w : Half) (k : Half → State → State) (s : State) :
    (frameInProgress s = false ∧ spiTransfer w k s = beginFrame w s) ∨
    (frameInProgress s = true ∧ frameReady s = false ∧ spiTransfer w k s = s) ∨
    (frameInProgress s = true ∧ frameReady s = true ∧ s.spi.result = none ∧ spiTransfer w k s = s.raise .unwritten) ∨
    (frameInProgress s = true ∧ frameReady s = true ∧
      ∃ v, s.spi.result = some v ∧ spiTransfer w k s = k v { s with spi := { s.spi with done := false } }) := by
  unfold spiTransfer takeResult
  cases hp : frameInProgress s <;> cases hr : frameReady s <;> cases hv : s.spi.result <;> simp

/-- A split start records a fault of the frame check, or starts the frame and marks it pending. -/
theorem splitStart_cases (w : Half) (s : State) :
    (∃ c, frameCheck s = some c ∧ splitStart w s = s.raise c) ∨
    (frameCheck s = none ∧
      splitStart w s =
        { startFrame w s with spi := { (startFrame w s).spi with pending := true } }.advance 1) := by
  unfold splitStart
  cases h : frameCheck s with
  | none => exact .inr ⟨rfl, rfl⟩
  | some c => exact .inl ⟨c, rfl, rfl⟩

/-- A split finish faults, holds, or returns the word and ends the pending transfer. -/
theorem splitFinish_cases (s : State) :
    (s.spi.pending = false ∧ splitFinish s = s.raise .spiContract) ∨
    (s.spi.pending = true ∧ frameReady s = false ∧ splitFinish s = s) ∨
    (s.spi.pending = true ∧ frameReady s = true ∧ s.spi.result = none ∧ splitFinish s = s.raise .unwritten) ∨
    (s.spi.pending = true ∧ frameReady s = true ∧
      ∃ v, s.spi.result = some v ∧
        splitFinish s = returnWord v { s with spi := { s.spi with done := false, pending := false } }) := by
  unfold splitFinish takeResult
  cases hp : s.spi.pending <;> cases hr : frameReady s <;> cases hv : s.spi.result <;> simp

/-! The controller's registers. -/

/-- The low byte of a zero-extended byte is the byte. -/
@[simp] theorem lowByte_zext (b : Byte) : (b.setWidth 32).extractLsb' 0 8 = b := by
  apply BitVec.eq_of_toNat_eq
  have := b.isLt
  simp only [BitVec.extractLsb'_toNat, BitVec.toNat_setWidth, Nat.shiftRight_zero]
  omega

/-- A zero-extended byte has no upper bits, so `TXDR` takes it. -/
@[simp] theorem upperBits_zext (b : Byte) : (b.setWidth 32).extractLsb' 8 24 = 0#24 := by
  apply BitVec.eq_of_toNat_eq
  have := b.isLt
  simp only [BitVec.extractLsb'_toNat, BitVec.toNat_setWidth, Nat.shiftRight_eq_div_pow, BitVec.toNat_ofNat]
  omega

/-- An admitted write of `CR2` stores the value; its checks are those of R173. -/
theorem writeCr2_eq_ok {v : Word} {s s' : State} :
    writeCr2 v s = .ok s' ↔ cr2WriteCheck v s = none ∧ s' = { s with i2c := { s.i2c with cr2 := v } } := by
  unfold writeCr2
  cases cr2WriteCheck v s <;> simp [eq_comm]

/-- What an admitted write of `CR2` has passed (R173). -/
theorem cr2WriteCheck_eq_none {v : Word} {s : State} (h : cr2WriteCheck v s = none) :
    cr2OutOfScope v = false ∧ cr2Start s.i2c.cr2 = false ∧ cr2Stop s.i2c.cr2 = false ∧
    (s.i2c.phase = .idle ∨ s.i2c.phase = .tcHold ∨ engClosing s = true) ∧
    ¬(cr2Start v = true ∧ cr2Stop v = true) ∧ (cr2Start v = true → cr2Nbytes v ≠ 0#8) ∧
    (cr2Stop v = true → s.i2c.phase = .tcHold) := by
  unfold cr2WriteCheck at h
  simp only [ite_eq_iff, reduceCtorEq, and_false, false_or, and_true, Bool.or_eq_true, Bool.and_eq_true, bne_iff_ne,
    Bool.not_eq_true', beq_iff_eq, ne_eq] at h
  obtain ⟨h1, h2, h3, h4, h5⟩ := h
  simp only [not_or, not_and, Bool.not_eq_true] at h1 h2 h3 h4 h5
  refine ⟨h1, h2.1.2, h2.2, ?_, ?_, ?_, ?_⟩
  · by_cases ha : s.i2c.phase = .idle
    · exact .inl ha
    · by_cases hb : s.i2c.phase = .tcHold
      · exact .inr (.inl hb)
      · exact .inr (.inr (by simpa using h2.1.1 ⟨ha, hb⟩))
  · rintro ⟨ha, hb⟩
    simp [h3 ha] at hb
  · exact h4
  · intro ha
    simpa using h5 ha

/-- The checks of a `CR2` write look at the controller alone. -/
theorem cr2WriteCheck_congr {v : Word} {s s' : State} (h : s'.i2c = s.i2c) :
    cr2WriteCheck v s' = cr2WriteCheck v s := by
  simp [cr2WriteCheck, engClosing, h]

/-- The reader's write-phase value of `CR2` starts a one-byte write, in scope (spec/30_encoding.md R95). -/
theorem cr2Wr_facts (slave : BitVec 7) :
    cr2OutOfScope (cr2Wr slave) = false ∧ cr2Start (cr2Wr slave) = true ∧ cr2Stop (cr2Wr slave) = false ∧
    cr2Nbytes (cr2Wr slave) = 1#8 := by
  revert slave; decide +kernel

/-- The reader's read-phase value of `CR2` as a number: its fields do not overlap (R96). -/
theorem cr2Rd_toNat (slave : BitVec 7) (len : Byte) :
    (cr2Rd slave len).toNat = 0x02002400 + len.toNat * 2 ^ 16 + slave.toNat * 2 := by
  have hlen : (len.setWidth 32 <<< 16 : Word) = 0#8 ++ len ++ 0#16 := by
    revert len; decide +kernel
  have hslave : (slave.setWidth 32 <<< 1 : Word) = 0#8 ++ 0#8 ++ (slave.setWidth 16 <<< 1) := by
    revert slave; decide +kernel
  have hlow : (0x2400#16 ||| slave.setWidth 16 <<< 1).toNat = 0x2400 + slave.toNat * 2 := by
    revert slave; decide +kernel
  rw [cr2Rd, hlen, hslave, show (0x02002400#32 : Word) = 0x02#8 ++ 0#8 ++ 0x2400#16 from rfl]
  rw [BitVec.or_append, BitVec.or_append, BitVec.or_append, BitVec.or_append]
  simp only [BitVec.or_zero, BitVec.zero_or]
  rw [toNat_append_add, toNat_append_add, hlow]
  simp only [BitVec.toNat_ofNat]
  omega

/-- The reader's read-phase value of `CR2` starts a read of `len` bytes, in scope (R96). -/
theorem cr2Rd_facts (slave : BitVec 7) (len : Byte) :
    cr2OutOfScope (cr2Rd slave len) = false ∧ cr2Start (cr2Rd slave len) = true ∧ cr2Stop (cr2Rd slave len) = false ∧
    cr2Nbytes (cr2Rd slave len) = len := by
  have hlen := len.isLt
  have hslave := slave.isLt
  have h := cr2Rd_toNat slave len
  have hb : ∀ k, (cr2Rd slave len).getLsbD k = decide ((cr2Rd slave len).toNat / 2 ^ k % 2 = 1) := fun k => by
    rw [BitVec.getLsbD, Nat.testBit_eq_decide_div_mod_eq]
  refine ⟨?_, ?_, ?_, ?_⟩
  · simp only [cr2OutOfScope, hb, h, Bool.or_eq_false_iff, decide_eq_false_iff_not, bne_eq_false_iff_eq]
    refine ⟨⟨⟨⟨⟨?_, ?_⟩, ?_⟩, ?_⟩, ?_⟩, BitVec.eq_of_toNat_eq ?_⟩
    all_goals first | omega | (rw [toNat_field, h]; simp only [BitVec.toNat_ofNat]; omega)
  · simp only [cr2Start, hb, h, decide_eq_true_eq]; omega
  · simp only [cr2Stop, hb, h, decide_eq_false_iff_not]; omega
  · apply BitVec.eq_of_toNat_eq
    rw [cr2Nbytes, toNat_field, h]
    omega

/-- An admitted write of a controller register changes the controller's registers alone, in one of three ways. -/
theorem regWrite_eq_ok {off : Byte} {v : Word} {s s' : State} (h : regWrite off v s = .ok s') :
    (off = offCr2 ∧ cr2WriteCheck v s = none ∧ s' = { s with i2c := { s.i2c with cr2 := v } }) ∨
    (off = offIcr ∧ s' = writeIcr v s) ∨
    (off = offTxdr ∧ v.extractLsb' 8 24 = 0#24 ∧
      s' = { s with i2c := { s.i2c with txdr := v.extractLsb' 0 8, isr := s.i2c.isr.txdrWritten } }) := by
  unfold regWrite at h
  split at h
  · next ho => exact .inl ⟨ho, writeCr2_eq_ok.1 h⟩
  · split at h
    · next ho => exact .inr (.inl ⟨ho, by simpa [eq_comm] using h⟩)
    · split at h
      · next ho =>
        unfold writeTxdr at h
        split at h
        · cases h
        · next hv => exact .inr (.inr ⟨ho, by simpa using hv, by simpa [eq_comm] using h⟩)
      · cases h

/-- A register read changes nothing, but for the `RXNE` flag that a read of `RXDR` clears. -/
theorem regRead_eq_ok {off : Byte} {v : Word} {s s' : State} (h : regRead off s = .ok (v, s')) :
    s' = s ∨ (off = offRxdr ∧ s' = { s with i2c := { s.i2c with isr := s.i2c.isr.rxdrRead } }) := by
  unfold regRead at h
  repeat' split at h
  all_goals first
    | (simp only [readRxdr, Except.ok.injEq, Prod.mk.injEq] at h; obtain ⟨-, rfl⟩ := h
       first
       | exact .inl rfl
       | exact .inr ⟨by assumption, rfl⟩)
    | cases h

/-! The reader. -/

/-- A normal start stores the fields, writes `CR2` and `TXDR`, and enters `SentRegister` (R225). -/
theorem startTransaction_eq_ok {slave : BitVec 7} {reg : Byte} {buf : Word} {len : Byte} {s s' : State}
    (h : startTransaction slave reg buf len s = .ok s') :
    cr2WriteCheck (cr2Wr slave) s = none ∧
    s' = { s with
      i2c := { s.i2c with cr2 := cr2Wr slave, txdr := reg, isr := s.i2c.isr.txdrWritten }
      rd := { s.rd with
        slave := some slave, reg := some reg, buf := some buf, len := some len, state := .sentRegister } } := by
  unfold startTransaction at h
  split at h
  · cases h
  · next s1 h1 =>
    rcases regWrite_eq_ok h1 with ⟨-, hc, rfl⟩ | ⟨ho, -⟩ | ⟨ho, -⟩
    · split at h
      · cases h
      · next s2 h2 =>
        rcases regWrite_eq_ok h2 with ⟨ho, -⟩ | ⟨ho, -⟩ | ⟨-, -, rfl⟩
        · exact absurd ho (by decide)
        · exact absurd ho (by decide)
        · refine ⟨hc, ?_⟩
          rw [lowByte_zext] at h
          cases h
          rfl
    · exact absurd ho (by decide)
    · exact absurd ho (by decide)

/-- The per-state action of a `Poll` that neither faults nor refuses: nothing, the read phase programmed, or one byte
copied (R226). -/
theorem pollAction_eq_ok {f : IsrFlags} {s s' : State} (h : pollAction f s = .ok s') :
    s' = s ∨
    (s.rd.state = .sentRegister ∧ f.tc = true ∧ ∃ slave len,
      s.rd.slave = some slave ∧ s.rd.len = some len ∧ cr2WriteCheck (cr2Rd slave len) s = none ∧
      s' = { s with
        i2c := { s.i2c with cr2 := cr2Rd slave len }
        rd := { s.rd with offset := some 0, state := .readingData } }) ∨
    (s.rd.state = .readingData ∧ f.rxne = true ∧ ∃ buf len o,
      s.rd.buf = some buf ∧ s.rd.len = some len ∧ s.rd.offset = some o ∧
      s' = { s with
        i2c := { s.i2c with isr := s.i2c.isr.rxdrRead }
        mem := s.mem.write (buf.toNat + o) ((s.i2c.rxdr.setWidth 32).extractLsb' 0 8)
        rd := { s.rd with
          offset := some (o + 1), state := if o + 1 = len.toNat then .complete else .readingData } }) := by
  unfold pollAction at h
  split at h
  · next hs =>
    split at h
    · next hf =>
      unfold pollSentRegister Reader.slaveVal Reader.lenVal at h
      simp only [hs, reduceCtorEq, if_false] at h
      split at h
      · next slave len h1 h2 =>
        split at h
        · cases h
        · next s1 hw =>
          rcases regWrite_eq_ok hw with ⟨-, hc, rfl⟩ | ⟨ho, -⟩ | ⟨ho, -⟩
          · exact .inr (.inl ⟨hs, hf, slave, len, h1, h2, hc, by simpa [eq_comm] using h⟩)
          · exact absurd ho (by decide)
          · exact absurd ho (by decide)
      · cases h
    · exact .inl (by simpa [eq_comm] using h)
  · next hs =>
    split at h
    · next hf =>
      unfold pollReadingData Reader.bufVal Reader.lenVal Reader.offsetVal at h
      simp only [hs, reduceCtorEq, if_false] at h
      split at h
      · next buf len o h1 h2 h3 =>
        exact .inr (.inr ⟨hs, hf, buf, len, o, h1, h2, h3, by simpa [readRxdr, hs, eq_comm] using h⟩)
      · cases h
    · exact .inl (by simpa [eq_comm] using h)
  all_goals exact .inl (by simpa [eq_comm] using h)

/-! The schedule and the step. -/

/-- Which agents have a step does not depend on the environment's fields. -/
@[simp] theorem enabled_env (s : State) (e : Env) (a : Agent) : enabled { s with env := e } a = enabled s a := by
  cases a <;> rfl

/-- The agents listed are those that have a step. -/
theorem mem_enabledAgents {s : State} {a : Agent} : a ∈ enabledAgents s ↔ enabled s a = true := by
  unfold enabledAgents
  cases a <;> simp

/-- The free choice finds no agent only where none has a step; else it chooses one that has, and changes the
environment's fields alone (spec/44_host_program.md R258). -/
theorem pickFree_cases (s : State) :
    (pickFree s = none ∧ ∀ a, enabled s a = false) ∨
    ∃ a e, pickFree s = some (a, { s with env := e }) ∧ enabled s a = true := by
  unfold pickFree
  cases h : enabledAgents s with
  | nil => exact .inl ⟨rfl, fun a => by simpa [h] using (mem_enabledAgents (s := s) (a := a)).not⟩
  | cons a rest =>
    cases rest with
    | nil => exact .inr ⟨a, s.env, rfl, mem_enabledAgents.1 (by simp [h])⟩
    | cons b rest =>
      refine .inr ⟨_, _, rfl, mem_enabledAgents.1 ?_⟩
      have hlt : s.peek % (rest.length + 2) < (a :: b :: rest).length := Nat.mod_lt _ (Nat.succ_pos _)
      rw [h, List.getD_eq_getElem _ _ hlt]
      exact List.getElem_mem hlt

/-- The choice finds no agent only where none has a step; else it chooses one that has, and changes the environment's
fields alone. -/
theorem pick_cases (s : State) :
    (pick s = none ∧ ∀ a, enabled s a = false) ∨
    ∃ a e, pick s = some (a, { s with env := e }) ∧ enabled s a = true := by
  unfold pick
  split
  · exact pickFree_cases s
  · next a rest _ =>
    dsimp only
    split
    · next h => exact .inr ⟨a, _, rfl, by simpa using h⟩
    · rcases pickFree_cases { s with env := { s.env with sched := rest } } with ⟨h, hn⟩ | ⟨a, e, h, ha⟩
      · exact .inl ⟨h, fun a => by simpa using hn a⟩
      · exact .inr ⟨a, e, h, by simpa using ha⟩

/-- A step that answers a next state ran in an unmarked state and is the step of an agent that had one. -/
theorem step_eq_next {s s' : State} (h : step s = .next s') :
    s.faults = [] ∧ s.enc.fatal = false ∧ s.refused = false ∧
    ∃ a e, enabled s a = true ∧ agentStep a { s with env := e } = .next s' := by
  unfold step at h
  split at h
  · cases h
  · next hm =>
    split at h
    · cases h
    · next hr =>
      simp only [Bool.or_eq_true, Bool.not_eq_true', List.isEmpty_eq_false_iff, not_or, Bool.not_eq_true,
        ne_eq, not_not] at hm hr
      rcases pick_cases s with ⟨hp, -⟩ | ⟨a, e, hp, ha⟩
      · rw [hp] at h
        dsimp only at h
        split at h <;> cases h
      · rw [hp] at h
        exact ⟨hm.1, hm.2, hr, a, e, ha, h⟩

/-- The SPI engine moves its unit, the sensor, the SPI trace, the time and the draws; it records a fault or none. -/
theorem spiEngineStep_frame (s : State) :
    ∃ u d t l e f, spiEngineStep s =
      { s with spi := u, dev := d, t := t, traceSpi := s.traceSpi ++ l, env := e, faults := f } := by
  have raised : ∃ u d t l e f, s.raise .unwritten =
      { s with spi := u, dev := d, t := t, traceSpi := s.traceSpi ++ l, env := e, faults := f } :=
    ⟨s.spi, s.dev, s.t, [], s.env, _, by rw [List.append_nil]; rfl⟩
  unfold spiEngineStep
  split
  · exact ⟨s.spi, s.dev, s.t, [], s.env, s.faults, by rw [List.append_nil]⟩
  · unfold spiRise; split
    · exact ⟨_, s.dev, _, _, _, s.faults, rfl⟩
    · exact raised
  · unfold spiFall; split
    · exact ⟨_, s.dev, _, _, _, s.faults, rfl⟩
    · exact raised
  · unfold spiFinishFrame; split
    · obtain ⟨rg, rs, e, hx, -⟩ := deviceFrameEnd_frame _ _ _
      dsimp only
      rw [hx]
      exact ⟨_, _, _, _, _, s.faults, rfl⟩
    · exact raised

/-- The host's step refuses an unfetchable command or executes the fetched one. -/
theorem hostStep_cases (s : State) :
    (∃ e, fetch s = .error e ∧ hostStep s = .next (s.refuse .illegal)) ∨
    (∃ i, fetch s = .ok i ∧ hostStep s = exec i s) := by
  unfold hostStep
  cases h : fetch s with
  | error e => exact .inl ⟨e, rfl, rfl⟩
  | ok i => exact .inr ⟨i, rfl, rfl⟩

/-- A step that answers a next state is the refusal of an unfetchable command, the execution of the fetched one, or the
step of an engine or the slave, taken in an unmarked state. -/
theorem step_cases {s s' : State} (h : step s = .next s') :
    s.faults = [] ∧ s.enc.fatal = false ∧ s.refused = false ∧ ∃ e,
      s' = ({ s with env := e } : State).refuse .illegal ∨
      (∃ i, fetch s = .ok i ∧ exec i { s with env := e } = .next s') ∨
      s' = spiEngineStep { s with env := e } ∨ s' = i2cEngineStep { s with env := e } ∨
      s' = i2cSlaveStep { s with env := e } := by
  obtain ⟨h1, h2, h3, a, e, -, hs⟩ := step_eq_next h
  refine ⟨h1, h2, h3, e, ?_⟩
  cases a with
  | host =>
    rcases hostStep_cases { s with env := e } with ⟨x, -, hx⟩ | ⟨i, hi, hx⟩
    · simp only [agentStep, hx] at hs; exact .inl (by simpa [eq_comm] using hs)
    · simp only [agentStep, hx] at hs; exact .inr (.inl ⟨i, hi, hs⟩)
  | spiEngine => exact .inr (.inr (.inl (by simpa [agentStep, eq_comm] using hs)))
  | i2cEngine => exact .inr (.inr (.inr (.inl (by simpa [agentStep, eq_comm] using hs))))
  | i2cSlave => exact .inr (.inr (.inr (.inr (by simpa [agentStep, eq_comm] using hs))))

end Sys2Proof.Machine
end

