-- ==== Sys2Proof/Laws/I2cEngine.lean ====
section
/-! SUPPORT. What one step of the I2C engine can do: which phase each of its rules needs, and all it can change. -/

namespace Sys2Proof.Machine

/-- The phase, the lines and the flags under which each rule of the engine is enabled (spec/42_i2c_transactor.md R185 to
R197). -/
theorem engRule_phase {s : State} {r : EngRule} (h : engRule s = some r) :
    match r with
    | .start => (s.i2c.phase = .idle ∨ (s.i2c.phase = .tcHold ∧ s.sl.sclHold = false)) ∧ cr2Start s.i2c.cr2 = true
    | .sendBit => (s.i2c.phase = .addr ∨ s.i2c.phase = .txByte) ∧ s.sl.sclHold = false ∧ 0 < s.i2c.bit
    | .addrAck => s.i2c.phase = .addrAck ∧ s.sl.sclHold = false
    | .dataAck => s.i2c.phase = .txAck ∧ s.sl.sclHold = false
    | .txLoad => s.i2c.phase = .txWait ∧ s.i2c.isr.txe = false
    | .recvBit => s.i2c.phase = .rxByte ∧ s.sl.sclHold = false ∧ 0 < s.i2c.bit
    | .rxStore => s.i2c.phase = .rxWait ∧ s.i2c.isr.rxne = false
    | .masterAck => s.i2c.phase = .rxAck ∧ s.sl.sclHold = false
    | .stopRequest => s.i2c.phase = .tcHold ∧ cr2Stop s.i2c.cr2 = true
    | .stop => s.i2c.phase = .stopPend ∧ s.sl.sclHold = false := by
  unfold engRule at h
  dsimp only at h
  cases hp : s.i2c.phase <;> simp only [hp] at h <;>
    (repeat' split at h) <;> first | (cases h; done) | (cases h; simp_all)

/-- The engine changed its own unit, the slave's SDA, the time, one event at most, the draws. -/
def EngFrame (s s' : State) : Prop :=
  ∃ u d t l e,
    s' = { s with i2c := u, sl := { s.sl with sdaDrive := d }, t := t, traceI2c := s.traceI2c ++ l, env := e } ∧
    s.t ≤ t ∧ (l = [] ∧ t = s.t ∨ ∃ ev, l = [⟨t, ev⟩])

/-- A step that emits one event at the time reached. -/
theorem EngFrame.emit {s s' : State} (t : Nat) (ev : I2cEvent) (u : I2cUnit) (d : Drive) (e : Env) (ht : s.t ≤ t)
    (h : s' = { s with
      i2c := u, sl := { s.sl with sdaDrive := d }, t := t, traceI2c := s.traceI2c ++ [⟨t, ev⟩], env := e }) :
    EngFrame s s' :=
  ⟨u, d, t, _, e, h, ht, .inr ⟨ev, rfl⟩⟩

/-- A step that emits nothing and takes no time. -/
theorem EngFrame.quiet {s s' : State} (u : I2cUnit) (h : s' = { s with i2c := u }) : EngFrame s s' :=
  ⟨u, s.sl.sdaDrive, s.t, [], s.env, by rw [h, List.append_nil], Nat.le_refl _, .inl ⟨rfl, rfl⟩⟩

/-- What is done to the unit afterwards keeps the frame. -/
theorem EngFrame.with_i2c {s s' : State} (h : EngFrame s s') (u : I2cUnit) : EngFrame s { s' with i2c := u } := by
  obtain ⟨u', d, t, l, e, rfl, ht⟩ := h
  exact ⟨u, d, t, l, e, rfl, ht⟩

theorem engFrame_endOfTransfer {s s' : State} (h : EngFrame s s') : EngFrame s (engEndOfTransfer s') := by
  unfold engEndOfTransfer
  split <;> exact h.with_i2c _

/-- An engine step stays within that frame, or records `F_UNWRITTEN` where the shift register holds no value. -/
theorem i2cEngineStep_frame (s : State) :
    EngFrame s (i2cEngineStep s) ∨
    (i2cEngineStep s = s.raise .unwritten ∧ s.i2c.shift = none ∧
      (s.i2c.phase = .addr ∨ s.i2c.phase = .txByte ∨ s.i2c.phase = .rxByte ∨ s.i2c.phase = .rxWait)) := by
  unfold i2cEngineStep
  cases hr : engRule s with
  | none => exact .inl (.quiet s.i2c rfl)
  | some r =>
    have hb : ∀ b, EngFrame s ((s.elapse 0).masterBit b) := fun b =>
      .emit (s.t + (0 + s.peek)) _ _ _ _ (Nat.le_add_right _ _) rfl
    have hs : ∀ b, EngFrame s ((s.elapse 0).pop.slaveBit b) := fun b =>
      .emit (s.t + (0 + s.peek)) _ _ _ _ (Nat.le_add_right _ _) rfl
    cases r with
    | start => exact .inl (.emit (s.t + (0 + s.peek)) _ _ _ _ (Nat.le_add_right _ _) rfl)
    | sendBit =>
      simp only [engEffect, engSendBit]
      split
      · next h =>
        exact .inr ⟨rfl, h, (engRule_phase hr).1.imp id .inl⟩
      · exact .inl ((hb _).with_i2c _)
    | addrAck =>
      simp only [engEffect, engAddrAck]
      split
      · exact .inl (((hs _).with_i2c _).with_i2c _)
      · split
        · exact .inl (((hs _).with_i2c _).with_i2c _)
        · exact .inl (((hs _).with_i2c _).with_i2c _)
    | dataAck =>
      simp only [engEffect, engDataAck]
      split
      · exact .inl ((hs _).with_i2c _)
      · split
        · exact .inl (engFrame_endOfTransfer ((hs _).with_i2c _))
        · exact .inl (((hs _).with_i2c _).with_i2c _)
    | txLoad => exact .inl (.quiet _ rfl)
    | recvBit =>
      simp only [engEffect, engRecvBit]
      split
      · next h =>
        exact .inr ⟨rfl, h, by simp [(engRule_phase hr).1]⟩
      · exact .inl ((hs _).with_i2c _)
    | rxStore =>
      simp only [engEffect, engRxStore]
      split
      · next h =>
        exact .inr ⟨rfl, h, by simp [(engRule_phase hr).1]⟩
      · exact .inl (.quiet _ rfl)
    | masterAck =>
      simp only [engEffect, engMasterAck]
      split
      · exact .inl ((hb _).with_i2c _)
      · exact .inl (engFrame_endOfTransfer (hb _))
    | stopRequest => exact .inl (.quiet _ rfl)
    | stop => exact .inl (.emit (s.t + (0 + s.peek)) _ _ _ _ (Nat.le_add_right _ _) rfl)

/-- A step of the slave touches the master's drive of SCL, the hold and the trace alone: the release of a hold, a hold, or
nothing (spec/42_i2c_transactor.md R198). -/
theorem i2cSlaveStep_cases (s : State) :
    (s.sl.sclHold = true ∧ i2cSlaveStep s = slaveRelease s) ∨
    (s.sl.sclHold = false ∧ s.i2c.owner = true ∧ s.i2c.sclDrive = .low ∧ i2cSlaveStep s = slaveHold s) ∨
    (s.sl.sclHold = false ∧ slaveMayHold s = false ∧ i2cSlaveStep s = s) := by
  unfold i2cSlaveStep
  cases hh : s.sl.sclHold with
  | true => exact .inl ⟨rfl, rfl⟩
  | false =>
    cases hm : slaveMayHold s with
    | true =>
      have := hm
      simp only [slaveMayHold, Bool.and_eq_true, beq_iff_eq] at this
      exact .inr (.inl ⟨rfl, this.1.1, this.2, rfl⟩)
    | false => exact .inr (.inr ⟨rfl, rfl, rfl⟩)

/-- Clearing `CR2.START` leaves the other fields that a rule checks. -/
theorem cr2ClearStart_fields (v : Word) :
    cr2Start (cr2ClearStart v) = false ∧ cr2Stop (cr2ClearStart v) = cr2Stop v ∧
    cr2OutOfScope (cr2ClearStart v) = cr2OutOfScope v ∧ cr2Nbytes (cr2ClearStart v) = cr2Nbytes v := by
  refine ⟨?_, ?_, ?_, ?_⟩
  · simp [cr2Start, cr2ClearStart]
  · simp [cr2Stop, cr2ClearStart]
  · simp [cr2OutOfScope, cr2ClearStart]
    have : BitVec.extractLsb' 27 5 (v &&& 4294959103#32) = BitVec.extractLsb' 27 5 v := by
      ext i hi
      simp
      have : i = 0 ∨ i = 1 ∨ i = 2 ∨ i = 3 ∨ i = 4 := by omega
      rcases this with rfl | rfl | rfl | rfl | rfl <;> simp
    rw [this]
  · simp [cr2Nbytes, cr2ClearStart]
    ext i hi
    simp
    have : i = 0 ∨ i = 1 ∨ i = 2 ∨ i = 3 ∨ i = 4 ∨ i = 5 ∨ i = 6 ∨ i = 7 := by omega
    rcases this with rfl | rfl | rfl | rfl | rfl | rfl | rfl | rfl <;> simp

/-- Clearing `CR2.STOP` leaves the other fields that a rule checks. -/
theorem cr2ClearStop_fields (v : Word) :
    cr2Stop (cr2ClearStop v) = false ∧ cr2Start (cr2ClearStop v) = cr2Start v ∧
    cr2OutOfScope (cr2ClearStop v) = cr2OutOfScope v ∧ cr2Nbytes (cr2ClearStop v) = cr2Nbytes v := by
  refine ⟨?_, ?_, ?_, ?_⟩
  · simp [cr2Stop, cr2ClearStop]
  · simp [cr2Start, cr2ClearStop]
  · simp [cr2OutOfScope, cr2ClearStop]
    have : BitVec.extractLsb' 27 5 (v &&& 4294950911#32) = BitVec.extractLsb' 27 5 v := by
      ext i hi
      simp
      have : i = 0 ∨ i = 1 ∨ i = 2 ∨ i = 3 ∨ i = 4 := by omega
      rcases this with rfl | rfl | rfl | rfl | rfl <;> simp
    rw [this]
  · simp [cr2Nbytes, cr2ClearStop]
    ext i hi
    simp
    have : i = 0 ∨ i = 1 ∨ i = 2 ∨ i = 3 ∨ i = 4 ∨ i = 5 ∨ i = 6 ∨ i = 7 := by omega
    rcases this with rfl | rfl | rfl | rfl | rfl | rfl | rfl | rfl <;> simp

end Sys2Proof.Machine
end

