-- ==== Sys2Proof/Laws/PerInstr.lean ====
section
/-! SUPPORT. A statement about every instruction, as syntax, proved constructor by constructor: the encoding has the
length of the instruction, and its first word has the opcode of the instruction's row. -/

namespace Sys2Proof.Laws.FirstWord

/-- The encoding has as many words as the instruction (spec/30_encoding.md R90), and some row of the opcode map has the
instruction's mnemonic, its length, and the opcode of its first word (R88). -/
def Statement (i : Instr) : Prop :=
  (encode i).length = i.words ∧
  ∃ row ∈ opcodeTable, row.mnemonic = i.mnemonic ∧ row.words = i.words ∧
    ∀ w0, (encode i).head? = some w0 → opcode w0 = opcode row.matchWord

theorem spiConfig (freq : Word) (mode : BitVec 2) (width : Nat) : Statement (.spiConfig freq mode width) :=
  ⟨rfl, ⟨"SPI_CONFIG", 2, 0x01000000#32, 0xFFFFE0FC#32⟩, by decide, rfl, rfl, fun _ h => by
    cases h; exact (fields_FCFG _ _ _).1⟩

theorem spiXfer (w : Half) : Statement (.spiXfer w) :=
  ⟨rfl, ⟨"SPI_XFER", 1, 0x02000000#32, 0xFFFF0000#32⟩, by decide, rfl, rfl, fun _ h => by
    cases h; exact (fields_FI16 _ _).1⟩

theorem spiStart (w : Half) : Statement (.spiStart w) :=
  ⟨rfl, ⟨"SPI_START", 1, 0x03000000#32, 0xFFFF0000#32⟩, by decide, rfl, rfl, fun _ h => by
    cases h; exact (fields_FI16 _ _).1⟩

theorem spiFinish : Statement .spiFinish :=
  ⟨rfl, ⟨"SPI_FINISH", 1, 0x04000000#32, 0xFFFFFFFF#32⟩, by decide, rfl, rfl, fun _ h => by
    cases h; exact (fields_F0 _).1⟩

theorem encSample : Statement .encSample :=
  ⟨rfl, ⟨"ENC_SAMPLE", 1, 0x10000000#32, 0xFFFFFFFF#32⟩, by decide, rfl, rfl, fun _ h => by
    cases h; exact (fields_F0 _).1⟩

theorem encStartSample : Statement .encStartSample :=
  ⟨rfl, ⟨"ENC_START_SAMPLE", 1, 0x11000000#32, 0xFFFFFFFF#32⟩, by decide, rfl, rfl, fun _ h => by
    cases h; exact (fields_F0 _).1⟩

theorem encFinishSample : Statement .encFinishSample :=
  ⟨rfl, ⟨"ENC_FINISH_SAMPLE", 1, 0x12000000#32, 0xFFFFFFFF#32⟩, by decide, rfl, rfl, fun _ h => by
    cases h; exact (fields_F0 _).1⟩

theorem encSetFilterUs (f : Half) : Statement (.encSetFilterUs f) :=
  ⟨rfl, ⟨"ENC_SET_FILTER_US", 1, 0x13000000#32, 0xFFFF0000#32⟩, by decide, rfl, rfl, fun _ h => by
    cases h; exact (fields_FI16 _ _).1⟩

theorem i2cRegRd (off : Byte) : Statement (.i2cRegRd off) :=
  ⟨rfl, ⟨"I2C_REG_RD", 1, 0x20000000#32, 0xFFFFFF00#32⟩, by decide, rfl, rfl, fun _ h => by
    cases h; exact (fields_FREG _ _).1⟩

theorem i2cRegWr (off : Byte) (value : Word) : Statement (.i2cRegWr off value) :=
  ⟨rfl, ⟨"I2C_REG_WR", 2, 0x21000000#32, 0xFFFFFF00#32⟩, by decide, rfl, rfl, fun _ h => by
    cases h; exact (fields_FREG _ _).1⟩

theorem i2cStartRead (slave : BitVec 7) (reg : Byte) (buf : Word) (len : Byte) :
    Statement (.i2cStartRead slave reg buf len) :=
  ⟨rfl, ⟨"I2C_START_READ", 2, 0x30000000#32, 0xFF800000#32⟩, by decide, rfl, rfl, fun _ h => by
    cases h; exact (fields_FRD _ _ _ _).1⟩

theorem i2cPoll : Statement .i2cPoll :=
  ⟨rfl, ⟨"I2C_POLL", 1, 0x31000000#32, 0xFFFFFFFF#32⟩, by decide, rfl, rfl, fun _ h => by
    cases h; exact (fields_F0 _).1⟩

theorem i2cCheckRead : Statement .i2cCheckRead :=
  ⟨rfl, ⟨"I2C_CHECK_READ", 1, 0x32000000#32, 0xFFFFFFFF#32⟩, by decide, rfl, rfl, fun _ h => by
    cases h; exact (fields_F0 _).1⟩

theorem waitUs (n : BitVec 24) : Statement (.waitUs n) :=
  ⟨rfl, ⟨"WAIT_US", 1, 0x40000000#32, 0xFF000000#32⟩, by decide, rfl, rfl, fun _ h => by
    cases h; exact (fields_FI24 _ _).1⟩

theorem waitMs (n : BitVec 24) : Statement (.waitMs n) :=
  ⟨rfl, ⟨"WAIT_MS", 1, 0x41000000#32, 0xFF000000#32⟩, by decide, rfl, rfl, fun _ h => by
    cases h; exact (fields_FI24 _ _).1⟩

theorem hostBns (off : Half) : Statement (.hostBns off) :=
  ⟨rfl, ⟨"HOST_BNS", 1, 0x50000000#32, 0xFFFF0000#32⟩, by decide, rfl, rfl, fun _ h => by
    cases h; exact (fields_FI16 _ _).1⟩

theorem hostEnd : Statement .hostEnd :=
  ⟨rfl, ⟨"HOST_END", 1, 0xFF000000#32, 0xFFFFFFFF#32⟩, by decide, rfl, rfl, fun _ h => by
    cases h; exact (fields_F0 _).1⟩

end Sys2Proof.Laws.FirstWord
end

