-- ==== Sys2Proof/Laws/Runs.lean ====
section
/-! SUPPORT. Runs: one step of a run is a step of the machine under some turn and answers, and what every step keeps holds
of every state a run reaches. -/

namespace Sys2Proof.Machine

/-- A step of the machine is a step of some agent. -/
theorem moves_of_step {s s' : State} (h : step s = .next s') : ∃ a, Moves a s s' := by
  obtain ⟨h1, h2, h3, a, e, ha, hs⟩ := step_eq_next h
  exact ⟨a, by simp [State.running, h1, h2, h3], ha, e, hs⟩

/-- A step of an agent is a step of the machine, for some fields of the environment. -/
theorem step_of_moves {a : Agent} {s s' : State} (h : Moves a s s') : ∃ e, step { s with env := e } = .next s' := by
  obtain ⟨hr, ha, e, hs⟩ := h
  refine ⟨{ e with sched := a :: e.sched }, ?_⟩
  simp only [State.running, Bool.and_eq_true, Bool.not_eq_true'] at hr
  have hp : pick { s with env := { e with sched := a :: e.sched } } = some (a, { s with env := e }) := by
    unfold pick
    simp [ha]
  unfold step
  rw [if_neg (by simp [hr.1.1, hr.2]), if_neg (by simp [hr.1.2]), hp]
  exact hs

/-- What does not depend on the environment's fields and holds after every step from where it holds, holds of every state
a run reaches. -/
theorem Reaches.keeps {P : State → Prop} {boot : BootI2c} {s₀ s : State} (henv : ∀ s e, P s → P { s with env := e })
    (hstep : ∀ s s', P s → step s = .next s' → P s') (h₀ : P s₀) (h : Reaches boot s₀ s) : P s := by
  induction h with
  | start _ => exact h₀
  | move _ hm ih =>
    obtain ⟨e, he⟩ := step_of_moves hm
    exact hstep _ _ (henv _ e ih) he

/-- Every run has the boot premise. -/
theorem Reaches.booted {boot : BootI2c} {s₀ s : State} (h : Reaches boot s₀ s) : Config.bootI2cConfigured boot := by
  induction h with
  | start h => exact h
  | move _ _ ih => exact ih

end Sys2Proof.Machine
end

