-- ==== Sys2Proof/Tests/Slice0.lean ====
section
/-! SUPPORT. Tests. The expected words and values are those of spec/95_test_vectors.md (the vector's name stands beside
each) or of the rule named. Then, for each statement that has hypotheses, a concrete state that meets them, clause by
clause, at the edges of their ranges. -/

namespace Sys2Proof.Tests

open Sys2Proof.Machine

/-! Ill-formed instructions are refused: a width is 1 to 32 (spec/30_encoding.md R86). -/

theorem test_wellFormed_width_zero : (Instr.spiConfig 12000000#32 0#2 0).wellFormed = false := by decide
theorem test_wellFormed_width_33 : (Instr.spiConfig 12000000#32 0#2 33).wellFormed = false := by decide
theorem test_wellFormed_width_edges :
    (Instr.spiConfig 0#32 3#2 1).wellFormed = true ∧ (Instr.spiConfig 0#32 3#2 32).wellFormed = true := by decide

/-! Decoding (L2.1; words the table does not list are written from R81 to R88). -/

/-- What the decoder answers; `none` where it refuses. -/
def read (ws : List Word) : Option Instr := (decode ws).toOption

theorem test_decode_spiConfig : read [0x01001000#32, 0x00B71B00#32] = some (.spiConfig 12000000#32 0#2 16) := by decide
theorem test_decode_spiConfig_mode : read [0x01001001#32, 0x00B71B00#32] = some (.spiConfig 12000000#32 1#2 16) := by
  decide
theorem test_decode_spiConfig_width : read [0x01000000#32, 0x00B71B00#32] = some (.spiConfig 12000000#32 0#2 32) := by
  decide
theorem test_decode_spiXfer : read [0x0200FFFF#32] = some (.spiXfer 0xFFFF#16) := by decide
theorem test_decode_spiStart : read [0x03001234#32] = some (.spiStart 0x1234#16) := by decide
theorem test_decode_spiFinish : read [0x04000000#32] = some .spiFinish := by decide
theorem test_decode_encSample : read [0x10000000#32] = some .encSample := by decide
theorem test_decode_encStartSample : read [0x11000000#32] = some .encStartSample := by decide
theorem test_decode_encFinishSample : read [0x12000000#32] = some .encFinishSample := by decide
theorem test_decode_encSetFilterUs : read [0x130003E8#32] = some (.encSetFilterUs 1000#16) := by decide
theorem test_decode_i2cRegRd : read [0x20000018#32] = some (.i2cRegRd 0x18#8) := by decide
theorem test_decode_i2cRegWr : read [0x2100001C#32, 0x00000010#32] = some (.i2cRegWr 0x1C#8 0x10#32) := by decide
theorem test_decode_i2cStartRead :
    read [0x30501002#32, 0x00000100#32] = some (.i2cStartRead 0x50#7 0x10#8 0x100#32 2#8) := by decide
theorem test_decode_i2cStartRead_edge :
    read [0x307FFFFF#32, 0x00000000#32] = some (.i2cStartRead 0x7F#7 0xFF#8 0#32 255#8) := by decide
theorem test_decode_i2cPoll : read [0x31000000#32] = some .i2cPoll := by decide
theorem test_decode_i2cCheckRead : read [0x32000000#32] = some .i2cCheckRead := by decide
theorem test_decode_waitUs : read [0x40000002#32] = some (.waitUs 2#24) := by decide
theorem test_decode_waitMs : read [0x41FFFFFF#32] = some (.waitMs 16777215#24) := by decide
theorem test_decode_hostBns : read [0x50008000#32] = some (.hostBns 0x8000#16) := by decide
theorem test_decode_hostEnd : read [0xFF000000#32] = some .hostEnd := by decide
theorem test_decode_reserved_bits :
    read [0x01001004#32, 0x00B71B00#32] = none ∧ read [0x01002000#32, 0x00B71B00#32] = none ∧
    read [0x02010000#32] = none ∧ read [0x04000001#32] = none ∧ read [0x20000118#32] = none ∧
    read [0x30800000#32, 0#32] = none ∧ read [0x50010000#32] = none := by decide
theorem test_decode_unlisted :
    read [0#32] = none ∧ read [0x05000000#32] = none ∧ read [0x14000000#32] = none ∧ read [0x22000000#32] = none ∧
    read [0x33000000#32] = none ∧ read [0x42000000#32] = none ∧ read [0x51000000#32] = none ∧
    read [0xFE000000#32] = none := by decide
theorem test_decode_missing_word : read [0x21000004#32] = none ∧ read [] = none := by decide
theorem test_encode_words :
    encode (.spiConfig 12000000#32 0#2 16) = [0x01001000#32, 0x00B71B00#32] ∧
    encode (.i2cStartRead 0x50#7 0x10#8 0x100#32 2#8) = [0x30501002#32, 0x00000100#32] ∧
    encode (.hostBns 0xFFFE#16) = [0x5000FFFE#32] := by decide

/-! Operand values (L2.2, L2.3, L1.1). -/

theorem test_filterCode :
    filterCode 64#16 = 51#16 ∧ filterCode 65#16 = 68#16 ∧ filterCode 257#16 = 119#16 ∧ filterCode 512#16 = 119#16 ∧
    filterCode 8193#16 = 187#16 := by decide
theorem test_sensor_words : wRd14 = 0x4E00#16 ∧ wWr14 0x77#8 = 0x8E77#16 := by decide
theorem test_cr2_values :
    cr2Wr 0x50#7 = 0x000120A0#32 ∧ cr2Rd 0x50#7 2#8 = 0x020224A0#32 ∧ cr2Rd 0x7F#7 255#8 = 0x02FF24FE#32 ∧
    addressByte 0x020224A0#32 = 0xA1#8 ∧ cr2ClearStart 0x020224A0#32 = 0x020204A0#32 := by decide
theorem test_codes : FaultCode.verify.code = 0x23#8 ∧ RefusalCode.busyWrite.code = 0x44#8 := by decide

/-! States to start from. -/

/-- The controller as boot must leave it (spec/70_reset_and_hazards.md R304). -/
def boot : BootI2c := ⟨true, true, false, true, false, false, true⟩

theorem boot_configured : Config.bootI2cConfigured boot := by decide

/-- Boot that does not honour the slaves' stretching, or leaves an interrupt enabled, starts no run (R304). -/
theorem test_boot_premise :
    ¬Config.bootI2cConfigured { boot with stretching := false } ∧
    ¬Config.bootI2cConfigured { boot with interrupts := true } := by decide

/-- The SPI unit configured (spec/40_spi_transactor.md R110). -/
def configured : State :=
  { State.reset with spi := { State.reset.spi with
      configured := true, freqReq := some 12000000#32, mode := some 0#2, width := some 16#5 } }

/-- A frame with word `0xA5C3` under way, the sensor answering `0x0F0F`. -/
def framing (phase : SpiPhase) (sclk : Bool) (bit : Nat) : State :=
  { configured with
    spi := { configured.spi with
      phase := phase, sclk := sclk, bit := bit, tx := some 0xA5C3#16, rx := some 0#16, word := some 0xA5C3#16,
      csN := false, mosi := some true }
    dev := { State.reset.dev with out := some 0x0F0F#16 } }

/-- A frame has ended with the word `v`. -/
def received (v : Half) : State :=
  { configured with spi := { configured.spi with done := true, result := some v } }

/-- A split transfer is pending. -/
def pend (s : State) : State := { s with spi := { s.spi with pending := true } }

/-- `ENC_SET_FILTER_US` stands at `fs`, the code `0x77` wanted. -/
def filtering (fs : FilterStep) (s : State) : State :=
  { s with enc := { s.enc with fs := fs, desired := some 0x77#16 } }

/-- The master owns the bus in `phase`, with the address byte of a write to `0x50` (or its read) in the shift register. -/
def bus (phase : EngPhase) (bit cnt : Nat) (dir : Bool) (cr2 : Word) : State :=
  { State.reset with i2c := { State.reset.i2c with
      phase := phase, bit := bit, cnt := cnt, dir := dir, cr2 := cr2, shift := some 0xA0#8, owner := true,
      sclDrive := .low, isr := { State.reset.i2c.isr with busy := true } } }

/-- The shift register holds `b`. -/
def holding (b : Byte) (s : State) : State := { s with i2c := { s.i2c with shift := some b } }

/-- The reader in `state` with the operands of RD-1 and `o` bytes copied; `RXDR` holds `0x12`. -/
def reader (state : ReaderState) (o : Nat) (f : IsrFlags → IsrFlags) (s : State) : State :=
  { s with
    rd := { s.rd with
      state := state, slave := some 0x50#7, reg := some 0x10#8, buf := some 0x100#32, len := some 2#8,
      offset := some o }
    i2c := { s.i2c with isr := f s.i2c.isr, rxdr := 0x12#8 } }

/-- The next step is the given agent's, and the draws answer `ds`. -/
def turn (a : Agent) (ds : List Nat) (s : State) : State := { s with env := { s.env with sched := [a], draws := ds } }

/-- The host stands at the start of a program. -/
def program (ws : List Word) (s : State) : State := { s with host := { s.host with prog := ws } }

/-- What one execution leads to has a property. -/
def leads (i : Instr) (s : State) (p : State → Bool) : Bool :=
  match exec i s with
  | .next t => p t
  | .fault _ => false
  | .refused _ => false

/-! One execution each. -/

/-- SPI-11, SPI-13. -/
theorem test_spiConfig_refused :
    leads (.spiConfig 1000000#32 0#2 16) State.reset (fun t => t.refused && t.refusal == some .operand && t.host.pc == 0#32)
    = true := by decide
/-- R110, the example. -/
theorem test_spiConfig :
    leads (.spiConfig 12000000#32 0#2 16) State.reset
      (fun t => t.spi.configured && !t.spi.sclk && t.spi.csN && t.host.pc == 2#32) = true := by decide
/-- SPI-5. -/
theorem test_spiXfer_unconfigured :
    leads (.spiXfer 0#16) State.reset (fun t => t.faults == [.spiUnconfig] && t.host.pc == 0#32 && t.traceSpi == [])
    = true := by decide
/-- SPI-1, its last step. -/
theorem test_spiXfer :
    leads (.spiXfer 0xA5C3#16) (received 0x0F0F#16)
      (fun t => t.host.r == 0x0F0F#32 && !t.spi.done && t.host.pc == 1#32) = true := by decide
/-- SPI-7. -/
theorem test_spiStart_twice :
    leads (.spiStart 0#16) (pend (framing .setup false 16)) (fun t => t.faults == [.spiContract]) = true := by decide
/-- SPI-3, its start. -/
theorem test_spiStart :
    leads (.spiStart 0x1234#16) configured
      (fun t => t.spi.pending && t.spi.phase == .setup && t.spi.bit == 16 && t.spi.tx == some 0x1234#16 && t.host.r == 0#32
        && t.host.pc == 1#32) = true := by decide
/-- SPI-6. -/
theorem test_spiFinish_alone : leads .spiFinish configured (fun t => t.faults == [.spiContract]) = true := by decide
/-- SPI-4. -/
theorem test_spiFinish :
    leads .spiFinish (pend (received 0x0001#16)) (fun t => t.host.r == 1#32 && !t.spi.pending && !t.spi.done) = true := by
  decide
/-- ENC-1, its last step. -/
theorem test_encSample : leads .encSample (received 0x3FFF#16) (fun t => t.host.r == 0x3FFF#32) = true := by decide
/-- ENC-14. -/
theorem test_encSample_pending :
    leads .encSample (pend (framing .shift false 3)) (fun t => t.faults == [.spiContract]) = true := by decide
/-- ENC-2, its start: the zero word. -/
theorem test_encStartSample :
    leads .encStartSample configured (fun t => t.spi.pending && t.spi.tx == some 0#16) = true := by decide
/-- ENC-2, its finish. -/
theorem test_encFinishSample :
    leads .encFinishSample (pend (received 0x1234#16)) (fun t => t.host.r == 0x1234#32) = true := by decide
/-- ENC-3, its last step: the fast path. -/
theorem test_encSetFilterUs_fast :
    leads (.encSetFilterUs 1000#16) (filtering .rdBack (received 0x7700#16))
      (fun t => t.enc.current == some 119#16 && t.enc.desired == some 119#16 && t.enc.fs == .none && t.host.pc == 1#32)
    = true := by decide
/-- ENC-7, its last step: the verification fails. -/
theorem test_encSetFilterUs_fatal :
    leads (.encSetFilterUs 1024#16) (filtering .verify (received 0x1200#16))
      (fun t => t.enc.final == some 0x12#16 && t.enc.fatal && t.faults == [.verify] && t.host.pc == 0#32) = true := by
  decide
/-- REG-1. -/
theorem test_i2cRegRd_isr : leads (.i2cRegRd 0x18#8) State.reset (fun t => t.host.r == 1#32) = true := by decide
/-- REG-6. -/
theorem test_i2cRegRd_refused :
    leads (.i2cRegRd 0x1A#8) State.reset (fun t => t.refusal == some .access && t.host.pc == 0#32) = true := by decide
/-- REG-10. -/
theorem test_i2cRegWr_refused :
    leads (.i2cRegWr 0x04#8 0x01012000#32) State.reset (fun t => t.refusal == some .outOfScope) = true := by decide
/-- REG-16. -/
theorem test_i2cRegWr_txdr :
    leads (.i2cRegWr 0x28#8 0x55#32) State.reset (fun t => t.i2c.txdr == 0x55#8 && t.i2c.isr.word == 0#32 && t.host.pc == 2#32)
    = true := by decide
/-- RD-1, step 1. -/
theorem test_i2cStartRead :
    leads (.i2cStartRead 0x50#7 0x10#8 0x100#32 2#8) State.reset
      (fun t => t.rd.state == .sentRegister && t.i2c.cr2 == 0x000120A0#32 && t.i2c.txdr == 0x10#8) = true := by decide
/-- RD-9. -/
theorem test_i2cStartRead_operand :
    leads (.i2cStartRead 0x50#7 0x10#8 0x100#32 0#8) (reader .readingData 1 id State.reset)
      (fun t => t.refusal == some .operand) = true := by decide
/-- RD-1, step 6: the sample `0x25`, the byte `0x34`. -/
theorem test_i2cPoll_complete :
    leads .i2cPoll (reader .readingData 1 (fun f => { f with rxne := true, stopf := true }) State.reset)
      (fun t => t.rd.state == .complete && t.rd.offset == some 2 && t.mem.read 0x101 == some 0x12#8
        && t.mem.read 0x100 == none && t.i2c.isr.word == 0x21#32) = true := by decide
/-- RD-5: `NACKF` and `TC` in one sample. -/
theorem test_i2cPoll_nack :
    leads .i2cPoll (reader .sentRegister 0 (fun f => { f with tc := true, nackf := true }) (bus .tcHold 0 0 false 0x000100A0#32))
      (fun t => t.rd.state == .error && t.rd.cause == .nack && t.i2c.cr2 == 0x020224A0#32 && !t.i2c.isr.nackf) = true := by
  decide
/-- RD-1, step 7. -/
theorem test_i2cCheckRead_complete :
    leads .i2cCheckRead (reader .complete 2 id State.reset) (fun t => t.rd.state == .idle && t.host.r == 1#32) = true := by
  decide
/-- RD-8. -/
theorem test_i2cCheckRead_early :
    leads .i2cCheckRead (reader .readingData 1 id State.reset) (fun t => t.rd.state == .readingData && t.host.r == 0#32)
    = true := by decide
/-- H-1 from time 0, the timer 5 ns late. -/
theorem test_waitUs : leads (.waitUs 2#24) (turn .host [5] State.reset) (fun t => t.t == 2005 && t.host.pc == 1#32) = true := by
  decide
/-- H-2, the timer not late. -/
theorem test_waitMs : leads (.waitMs 20#24) (turn .host [0] State.reset) (fun t => t.t == 20000000) = true := by decide
/-- H-4. -/
theorem test_hostBns_taken :
    leads (.hostBns 0xFFFE#16) { State.reset with host := { State.reset.host with pc := 4#32 } } (fun t => t.host.pc == 2#32)
    = true := by decide
/-- H-5. -/
theorem test_hostBns_not_taken :
    leads (.hostBns 0xFFFE#16) { State.reset with host := { State.reset.host with pc := 4#32, r := 2#32 } }
      (fun t => t.host.pc == 5#32) = true := by decide
/-- H-8. -/
theorem test_hostEnd : leads .hostEnd State.reset (fun t => t.host.ended && t.host.pc == 0#32) = true := by decide

/-! Engine steps. -/

/-- SPI-1, the first edge: MOSI bit 1, MISO bit 0. -/
theorem test_spi_rise :
    ((spiEngineStep (framing .setup false 16)).traceSpi.map Stamped.event) = [.sckRise true false] := by decide
/-- The last falling edge leads to the hold. -/
theorem test_spi_last_fall : (spiEngineStep (framing .shift true 1)).spi.phase = .hold := by decide
/-- ENG-1, the first bits: `S`, then the 1 of `0xA0`. -/
theorem test_i2c_start :
    (i2cEngineStep (i2cEngineStep { State.reset with i2c := { State.reset.i2c with cr2 := 0x000120A0#32 } })).traceI2c.map
      Stamped.event = [.start, .bitM true] := by decide
/-- ENG-2, the acknowledge bit: a NACK of the address. -/
theorem test_i2c_address_nack :
    let t := i2cEngineStep (turn .i2cEngine [7, 1] (bus .addrAck 0 1 false 0x000120A0#32))
    t.i2c.phase = .stopPend ∧ t.i2c.isr.nackf = true ∧ t.i2c.cr2 = 0x000100A0#32 ∧ t.traceI2c = [⟨7, .bitS true⟩] := by
  decide
/-- ENG-9, the last bit received of `0xC3`. -/
theorem test_i2c_receive :
    (i2cEngineStep (turn .i2cEngine [0, 1] (holding 0xE1#8 (bus .rxByte 1 1 true 0x020104A0#32)))).i2c.shift
    = some 0xC3#8 := by decide
/-- ENG-7: the slave holds the clock, and the engine has no step. -/
theorem test_i2c_stretch :
    let t := i2cSlaveStep (bus .addr 7 1 false 0x000120A0#32)
    t.traceI2c.map Stamped.event = [.stretch] ∧ t.scl = false ∧ enabled t .i2cEngine = false := by decide
/-- R198, R207: in the hold the master waits with SCL released, and after it drives SCL low again. -/
theorem test_i2c_stretch_drive :
    let t := i2cSlaveStep (bus .addr 7 1 false 0x000120A0#32)
    t.i2c.sclDrive = .released ∧ (i2cSlaveStep t).i2c.sclDrive = .low ∧ (i2cSlaveStep t).scl = false := by decide

/-! Witnesses: for each statement with hypotheses, states and operands that meet all of them together. -/

theorem witness_DecodeOfEncodeGivesInstruction :
    (Instr.spiConfig 0xFFFFFFFF#32 3#2 32).wellFormed = true ∧ (Instr.i2cStartRead 0x7F#7 0xFF#8 0#32 255#8).wellFormed = true := by
  decide

theorem witness_DecodeFollowsOpcodeTable :
    decodeWords 0x40FFFFFF#32 0#32 = some (.waitUs 0xFFFFFF#24) ∧ decodeWords 0x04000001#32 0#32 = none := by decide

/-- The three ways: the pc just beyond the program, a word that selects no row, a second word just missing. -/
theorem witness_UnfetchableCommandIsRefused :
    (∀ ws : List Word, (turn .host [] (program ws State.reset)).running = true ∧
      (turn .host [] (program ws State.reset)).host.ended = false ∧
      (turn .host [] (program ws State.reset)).env.sched = .host :: []) ∧
    (program [] State.reset).host.prog.length ≤ (program [] State.reset).host.pc.toNat ∧
    ((program [0#32] State.reset).host.prog[0]? = some 0#32 ∧ ∀ row ∈ opcodeTable, ¬row.selects 0#32) ∧
    ((program [0x21000004#32] State.reset).host.prog[0]? = some 0x21000004#32 ∧
      (∃ row ∈ opcodeTable, row.selects 0x21000004#32 ∧ row.words = 2) ∧
      (program [0x21000004#32] State.reset).host.prog.length ≤ 0 + 1) :=
  ⟨fun _ => ⟨rfl, rfl, rfl⟩, by decide, by decide, by decide⟩

/-- A decoded command; a turn fixed in advance; a step whose agent no turn fixes; a state with an agent that has a step; a
state with none, the host ended, and one with none, the host stuck at a byte host memory does not admit. -/
theorem witness_StepRunsDecodedInstruction :
    (let s := turn .host [] (program [0x20000018#32] State.reset)
     s.running = true ∧ s.host.ended = false ∧ s.env.sched = .host :: [] ∧
       decode (s.host.prog.drop s.host.pc.toNat) = .ok (.i2cRegRd 0x18#8) ∧ held (.i2cRegRd 0x18#8) s = false) ∧
    (let s := turn .spiEngine [] (framing .setup false 16)
     s.running = true ∧ s.env.sched = .spiEngine :: [] ∧ enabled s .spiEngine = true) ∧
    (∃ t, step (program [0x20000018#32] State.reset) = .next t ∧ State.reset.env.sched = []) ∧
    (State.reset.running = true ∧ enabled State.reset .host = true) ∧
    (let s : State := { State.reset with host := { State.reset.host with ended := true } }
     s.running = true ∧ s.host.ended = true ∧
       enabled s .host = false ∧ enabled s .spiEngine = false ∧ enabled s .i2cEngine = false ∧
       enabled s .i2cSlave = false) ∧
    (let s : State := program [0x31000000#32] (reader .readingData 1 (fun f => { f with rxne := true })
      { State.reset with mem := { cells := [], regions := [⟨0x100, 1⟩] } })
     s.running = true ∧ s.host.ended = false ∧
       enabled s .host = false ∧ enabled s .spiEngine = false ∧ enabled s .i2cEngine = false ∧
       enabled s .i2cSlave = false) :=
  ⟨by decide, by decide, ⟨_, rfl, rfl⟩, by decide, by decide, by decide⟩

/-- A marked state in which an operation still answers, and a marked state of each kind. -/
theorem witness_MarksAreStickyAndStopEveryAgent :
    (∃ t, exec .spiFinish (State.reset.raise .spiContract) = .next t) ∧
    FaultCode.spiContract ∈ (State.reset.raise .spiContract).faults ∧
    (State.reset.raise .spiContract).faults ≠ [] ∧ (State.reset.refuse .operand).refused = true ∧
    State.reset.raiseVerifyFail.enc.fatal = true :=
  ⟨⟨_, rfl⟩, by decide⟩

/-- In the middle of a frame, the engine's turn. -/
def midFrame : State := turn .spiEngine [] (framing .shift false 8)

theorem midFrame_spi : SpiInv midFrame := by constructor <;> decide
theorem midFrame_enc : EncInv midFrame := by constructor <;> decide
theorem midFrame_i2c : I2cInv midFrame := by constructor <;> decide
theorem midFrame_marks : MarkInv midFrame := by constructor <;> decide
theorem midFrame_reader : ReaderInv midFrame where
  fields h := absurd h (by decide)
  offsetReading h := absurd h (by decide)
  offsetComplete h := absurd h (by decide)
  causeError := by decide

/-- The reader in the middle of a read with a byte to take, the host about to poll. -/
def midRead : State :=
  turn .host [] (program [0x31000000#32]
    (reader .readingData 1 (fun f => { f with rxne := true }) (bus .rxByte 3 1 true 0x020204A0#32)))

theorem midRead_i2c : I2cInv midRead := by constructor <;> decide
theorem midRead_reader : ReaderInv midRead where
  fields _ := ⟨rfl, rfl, rfl, 2#8, rfl, by decide⟩
  offsetReading _ := ⟨1, 2#8, rfl, rfl, by decide⟩
  offsetComplete h := absurd h (by decide)
  causeError := by decide

theorem witness_NoStepReadsAnUnwrittenElement :
    SpiInv midFrame ∧ EncInv midFrame ∧ I2cInv midFrame ∧ ReaderInv midFrame ∧ MarkInv midFrame ∧
    ∃ t, step midFrame = .next t :=
  ⟨midFrame_spi, midFrame_enc, midFrame_i2c, midFrame_reader, midFrame_marks, _, rfl⟩

/-- No mark, in each of the three cases: active, refused at the edge of the width, configured. -/
theorem witness_SpiConfigFollowsItsRule :
    (framing .hold false 0).faults = [] ∧ (framing .hold false 0).spi.phase ≠ .idle ∧ State.reset.faults = [] ∧
    State.reset.spi.phase = .idle ∧ State.reset.spi.pending = false := by decide

theorem witness_BlockingTransferBeginsItsFrame :
    configured.spi.configured = true ∧ configured.spi.phase = .idle ∧ configured.spi.pending = false ∧
    configured.spi.done = false := by decide

theorem witness_BlockingTransferReturnsTheWord :
    (received 0xFFFF#16).spi.pending = false ∧ (received 0xFFFF#16).spi.phase = .idle ∧
    (received 0xFFFF#16).spi.done = true ∧ (received 0xFFFF#16).spi.result = some 0xFFFF#16 := by decide

/-- A frame at its end while the host loops on itself (`HOST_BNS 0`), and the same after the engine's step. -/
def fairStart : State := program [0x50000000#32] (framing .hold false 0)

/-- The run: the engine ends the frame, then the host loops for ever. -/
def fairRun : Nat → State
  | 0 => fairStart
  | _ + 1 => spiEngineStep fairStart

/-- Whose step each one is. -/
def fairTurn : Nat → Agent
  | 0 => .spiEngine
  | _ + 1 => .host

theorem fairRun_fair : FairRun boot fairRun fairTurn where
  booted := boot_configured
  moves n := by
    cases n with
    | zero => exact ⟨by decide, by decide, _, rfl⟩
    | succ n => exact ⟨rfl, (by decide : enabled (spiEngineStep fairStart) .host = true), _, rfl⟩
  fair a ha n h := by
    cases a with
    | host => exact ⟨n + 1, Nat.le_succ n, rfl⟩
    | spiEngine =>
      exact absurd (h (n + 1) (Nat.le_succ n)) (by show ¬enabled (spiEngineStep fairStart) _ = true; decide)
    | i2cEngine =>
      exact absurd (h (n + 1) (Nat.le_succ n)) (by show ¬enabled (spiEngineStep fairStart) _ = true; decide)
    | i2cSlave => cases ha

/-- Each operation at its await, fetched from its program; and a fair run that starts in a frame. -/
theorem witness_AwaitingHostHolds :
    (FairRun boot fairRun fairTurn ∧ SpiInv (fairRun 0) ∧ (fairRun 0).spi.phase ≠ .idle) ∧
    (let s := program [0x02000000#32] (framing .setup false 16)
     s.spi.phase ≠ .idle ∧ s.spi.pending = false ∧ fetch s = .ok (.spiXfer 0#16)) ∧
    (let s := program [0x10000000#32] (framing .hold false 0)
     s.spi.phase ≠ .idle ∧ s.spi.pending = false ∧ fetch s = .ok .encSample) ∧
    (let s := program [0x13000400#32] (filtering .verify (framing .shift true 1))
     s.spi.phase ≠ .idle ∧ s.spi.pending = false ∧ s.enc.fs = .verify ∧ fetch s = .ok (.encSetFilterUs 1024#16)) ∧
    (let s := program [0x04000000#32] (pend (framing .shift false 16))
     s.spi.phase ≠ .idle ∧ s.spi.pending = true ∧ fetch s = .ok .spiFinish) ∧
    (let s := program [0x12000000#32] (pend (framing .shift false 1))
     s.spi.phase ≠ .idle ∧ s.spi.pending = true ∧ fetch s = .ok .encFinishSample) :=
  ⟨⟨fairRun_fair, by constructor <;> decide, by decide⟩, by decide⟩

theorem witness_SplitStartGoesOn :
    configured.spi.configured = true ∧ configured.spi.phase = .idle ∧ configured.spi.pending = false := by decide

theorem witness_SplitFinishFollowsItsRule :
    (configured.faults = [] ∧ configured.spi.pending = false) ∧
    (let s := pend (framing .hold false 0)
     s.faults = [] ∧ s.spi.pending = true ∧ ¬(s.spi.phase = .idle ∧ s.spi.done = true)) ∧
    (let s := pend (received 0x0001#16)
     s.faults = [] ∧ s.spi.pending = true ∧ s.spi.phase = .idle ∧ s.spi.done = true ∧ s.spi.result = some 0x0001#16) := by
  decide

theorem witness_FrameStartFaultsInOrder :
    (State.reset.faults = [] ∧ State.reset.spi.configured = false ∧ State.reset.spi.phase = .idle ∧
      State.reset.spi.done = false) ∧
    (pend State.reset).spi.configured = false ∧ (pend State.reset).spi.pending = true ∧
    (pend (received 0#16)).faults = [] ∧ (pend (received 0#16)).spi.configured = true ∧
    (pend (received 0#16)).spi.pending = true := by decide

/-- The first edge of a frame and the last rising one. -/
theorem witness_RisingEdgeSamples :
    (let s := framing .setup false 16
     s.spi.phase = .setup ∧ s.spi.sclk = false ∧ 0 < s.spi.bit ∧ s.spi.tx = some 0xA5C3#16 ∧ s.spi.rx = some 0#16 ∧
       s.dev.out = some 0x0F0F#16) ∧
    (let s := framing .shift false 1
     s.spi.phase = .shift ∧ s.spi.sclk = false ∧ 0 < s.spi.bit ∧ s.spi.tx = some 0xA5C3#16 ∧ s.spi.rx = some 0#16 ∧
       s.dev.out = some 0x0F0F#16) := by decide

/-- The first and the last falling edge. -/
theorem witness_FallingEdgeShifts :
    (∀ b, (framing .shift true b).spi.phase = .shift ∧ (framing .shift true b).spi.sclk = true ∧
      (framing .shift true b).spi.tx = some 0xA5C3#16) ∧
    (framing .shift true 16).spi.bit - 1 > 0 ∧ ¬(framing .shift true 1).spi.bit - 1 > 0 :=
  ⟨fun _ => ⟨rfl, rfl, rfl⟩, by decide⟩

/-- A command word of each kind: register read, register write, any other. -/
theorem witness_FrameEndDeliversTheWord :
    (framing .hold false 0).spi.phase = .hold ∧ (framing .hold false 0).spi.rx = some 0#16 ∧
    (framing .hold false 0).spi.word = some 0xA5C3#16 ∧ (0xA5C3#16).extractLsb' 8 8 ≠ 0x8E#8 ∧
    (0x8E77#16).extractLsb' 8 8 = 0x8E#8 := by decide

theorem witness_FrameDeliversWords :
    configured.spi.configured = true ∧ configured.spi.phase = .idle ∧ configured.spi.pending = false ∧
    configured.spi.done = false ∧ configured.spi.sclk = false := by decide

theorem witness_StepKeepsSpiConsistent :
    SpiInv midFrame ∧ (∃ t, step midFrame = .next t) ∧ Reaches boot midFrame (spiEngineStep midFrame) :=
  ⟨midFrame_spi, ⟨_, rfl⟩, .move (a := .spiEngine) (.start boot_configured) ⟨rfl, by decide, _, rfl⟩⟩

theorem witness_FilterCodeFollowsTheTable : (64#16 : Half) ≤ 65#16 := by decide

theorem witness_FilterBeginsWithReadCommand :
    (configured.enc.fs = .none ∧ configured.spi.configured = true ∧ configured.spi.phase = .idle ∧
      configured.spi.pending = false) ∧
    (State.reset.enc.fs = .none ∧ State.reset.spi.configured = false ∧ State.reset.faults = []) ∧
    (pend configured).enc.fs = .none ∧ (pend configured).spi.configured = true ∧ (pend configured).spi.pending = true ∧
    (pend configured).faults = [] := by decide

theorem witness_FilterTakesItsStepsInOrder :
    (∀ p, (filtering p (received 0x1234#16)).enc.fs = p ∧ (filtering p (received 0x1234#16)).spi.pending = false ∧
      (filtering p (received 0x1234#16)).spi.phase = .idle ∧ (filtering p (received 0x1234#16)).spi.done = true ∧
      (filtering p (received 0x1234#16)).spi.result = some 0x1234#16) ∧
    (∀ p, (filtering p configured).enc.fs = p ∧ (filtering p configured).spi.configured = true ∧
      (filtering p configured).spi.phase = .idle ∧ (filtering p configured).spi.pending = false ∧
      (filtering p configured).spi.done = false) :=
  ⟨fun _ => ⟨rfl, rfl, rfl, rfl, rfl⟩, fun _ => ⟨rfl, rfl, rfl, rfl, rfl⟩⟩

/-- At the boundary of a bucket: 64 maps to 51. -/
theorem witness_FilterFastPathEnds :
    let s := filtering .rdBack (received 0x33FF#16)
    s.enc.fs = .rdBack ∧ s.spi.pending = false ∧ s.spi.phase = .idle ∧ s.spi.done = true ∧
      s.spi.result = some 0x33FF#16 ∧ filterCode 64#16 = ((0x33FF#16).extractLsb' 8 8).setWidth 16 := by decide

theorem witness_FilterMismatchWrites :
    let s := filtering .rdBack (received 0x33FF#16)
    s.enc.fs = .rdBack ∧ s.spi.configured = true ∧ s.spi.pending = false ∧ s.spi.phase = .idle ∧ s.spi.done = true ∧
      s.spi.result = some 0x33FF#16 ∧ filterCode 65#16 ≠ ((0x33FF#16).extractLsb' 8 8).setWidth 16 := by decide

theorem witness_FilterVerifyPasses :
    let s := filtering .verify (received 0x7700#16)
    s.enc.fs = .verify ∧ s.spi.pending = false ∧ s.spi.phase = .idle ∧ s.spi.done = true ∧
      s.spi.result = some 0x7700#16 ∧ s.enc.desired = some (((0x7700#16).extractLsb' 8 8).setWidth 16) := by decide

theorem witness_FilterVerifyFailureIsFatal :
    let s := filtering .verify (received 0x1200#16)
    s.faults = [] ∧ s.enc.fs = .verify ∧ s.spi.pending = false ∧ s.spi.phase = .idle ∧ s.spi.done = true ∧
      s.spi.result = some 0x1200#16 ∧ s.enc.desired = some 0x77#16 ∧
      0x77#16 ≠ ((0x1200#16).extractLsb' 8 8).setWidth 16 := by decide

/-- After each of the two commands, the wait just begun. -/
theorem witness_FilterAnswersComeInTime :
    (let s : State := filtering .turn { configured with dev := { configured.dev with resp := .regRead 0 } }
     0 ≤ s.t ∧ s.spi.configured = true ∧ s.spi.phase = .idle ∧ s.spi.pending = false ∧ s.spi.done = false ∧
       s.enc.fs = .turn ∧ s.dev.resp = .regRead 0) ∧
    (let s : State := filtering .commit { configured with dev := { configured.dev with resp := .regWrite 0x77#8 0 } }
     0 ≤ s.t ∧ s.spi.configured = true ∧ s.spi.phase = .idle ∧ s.spi.pending = false ∧ s.spi.done = false ∧
       s.enc.fs = .commit ∧ s.dev.resp = .regWrite 0x77#8 0) := by decide

/-- The host waits in the sequence. -/
theorem witness_StepKeepsFilterSequenceConsistent :
    EncInv (turn .host [] (program [0x13000400#32] (filtering .commit configured))) ∧
    ∃ t, step (turn .host [] (program [0x13000400#32] (filtering .commit configured))) = .next t :=
  ⟨by constructor <;> decide, _, rfl⟩

theorem witness_OtherRegisterWritesFollowTheirRules : (0x1C#8 : Byte) ≠ 0x04#8 ∧ (0x28#8 : Byte) ≠ 0x04#8 := by decide

theorem witness_EngineStartsTheTransfer :
    (let s : State := { State.reset with i2c := { State.reset.i2c with cr2 := 0x000120A0#32 } }
     s.i2c.cr2.getLsbD 13 = true ∧ s.i2c.phase = .idle) ∧
    (let s := bus .tcHold 0 0 false 0x020224A0#32
     s.i2c.cr2.getLsbD 13 = true ∧ s.i2c.phase = .tcHold ∧ s.sl.sclHold = false) := by decide

/-- The first and the last bit of a byte, in both directions. -/
theorem witness_EngineMovesBits :
    ∀ p : EngPhase, ∀ n ∈ [8, 1], (bus p n 1 false 0#32).sl.sclHold = false ∧ 0 < (bus p n 1 false 0#32).i2c.bit ∧
      (bus p n 1 false 0#32).i2c.shift = some 0xA0#8 ∧ (bus p n 1 false 0#32).i2c.phase = p := by
  intro p n h
  simp only [List.mem_cons, List.not_mem_nil, or_false] at h
  rcases h with rfl | rfl <;> exact ⟨rfl, Nat.succ_pos _, rfl, rfl⟩

/-- Both acknowledge phases, both answers, both directions, the last byte and the one before. -/
theorem witness_EngineTakesTheAcknowledge :
    (bus .addrAck 0 255 true 0#32).sl.sclHold = false ∧ (bus .addrAck 0 255 true 0#32).i2c.phase = .addrAck ∧
    (bus .txAck 0 2 false 0#32).i2c.phase = .txAck ∧ (bus .txAck 0 2 false 0#32).i2c.cnt - 1 ≠ 0 ∧
    (bus .txAck 0 1 false 0#32).i2c.cnt - 1 = 0 ∧
    (i2cEngineStep (turn .i2cEngine [0, 1] (bus .txAck 0 1 false 0#32))).traceI2c = [⟨0, .bitS true⟩] ∧
    (i2cEngineStep (turn .i2cEngine [0, 0] (bus .txAck 0 1 false 0#32))).traceI2c = [⟨0, .bitS false⟩] := by decide

theorem witness_EngineLoadsAndStores :
    (bus .txWait 0 1 false 0#32).i2c.phase = .txWait ∧ (bus .rxWait 0 1 true 0#32).i2c.phase = .rxWait ∧
    (bus .rxWait 0 1 true 0#32).i2c.shift = some 0xA0#8 := by decide

theorem witness_EngineEndsTheTransfer :
    ((bus .rxAck 0 1 true 0#32).i2c.phase = .rxAck ∧ (bus .rxAck 0 1 true 0#32).sl.sclHold = false ∧
      0 < (bus .rxAck 0 1 true 0#32).i2c.cnt ∧ (bus .rxAck 0 0 true 0#32).i2c.cnt = 0) ∧
    (let s := bus .tcHold 0 0 false 0x00004000#32
     s.i2c.phase = .tcHold ∧ s.i2c.cr2.getLsbD 13 = false ∧ s.i2c.cr2.getLsbD 14 = true) ∧
    (bus .stopPend 0 0 true 0#32).i2c.phase = .stopPend ∧ (bus .stopPend 0 0 true 0#32).sl.sclHold = false := by decide

theorem witness_StretchedClockHoldsTheEngine :
    (let s := i2cSlaveStep (bus .addr 7 1 false 0x000120A0#32)
     s.sl.sclHold = true ∧ s.i2c.phase ≠ .idle) ∧
    (let s := bus .addr 7 1 false 0x000120A0#32
     s.sl.sclHold = false ∧ s.i2c.owner = true ∧ s.i2c.sclDrive = .low) := by decide

/-- A received byte waits, and the engine goes on. -/
theorem witness_ReceivedByteIsNeverOverwritten :
    midRead.i2c.isr.rxne = true ∧ (∃ t, step midRead = .next t) ∧
    ∃ t, step (turn .i2cEngine [] midRead) = .next t :=
  ⟨rfl, ⟨_, rfl⟩, _, rfl⟩

/-- A step that sets `BUSY` and one that clears it. -/
theorem witness_BusyRunsFromStartToStop :
    (∃ t, step (turn .i2cEngine [] { State.reset with i2c := { State.reset.i2c with cr2 := 0x000120A0#32 } }) = .next t ∧
      t.i2c.isr.busy = true) ∧
    ∃ t, step (turn .i2cEngine [] (bus .stopPend 0 0 true 0#32)) = .next t ∧ t.i2c.isr.busy = false :=
  ⟨⟨_, rfl, rfl⟩, _, rfl, rfl⟩

theorem witness_TcIsClearedOnlyByTheEngine :
    (∃ t, exec (.i2cRegWr 0x1C#8 0xFFFFFFFF#32) State.reset = .next t) ∧
    (let s := reader .sentRegister 0 (fun f => { f with tc := true }) (bus .tcHold 0 0 false 0x00004000#32)
     s.i2c.isr.tc = true ∧ (i2cEngineStep s).i2c.isr.tc = false) :=
  ⟨⟨_, rfl⟩, by decide⟩

/-- From reset; the acknowledge draws of each of the three cases. -/
theorem witness_WritePhasePutsTheseEventsOnTheBus :
    (1#8 : Byte) ≠ 0#8 ∧ State.reset.rd.state = .idle ∧ State.reset.i2c.phase = .idle ∧
    State.reset.i2c.cr2.getLsbD 13 = false ∧ State.reset.i2c.cr2.getLsbD 14 = false ∧ State.reset.sl.sclHold = false ∧
    (turn .host (List.replicate 21 0) State.reset).answer 10 % 2 = 0 ∧
    (turn .host (List.replicate 21 0) State.reset).answer 20 % 2 = 0 ∧
    (turn .host (List.replicate 10 0 ++ [1]) State.reset).answer 10 % 2 = 1 ∧
    (turn .host (List.replicate 20 0 ++ [1]) State.reset).answer 10 % 2 = 0 ∧
    (turn .host (List.replicate 20 0 ++ [1]) State.reset).answer 20 % 2 = 1 := by decide

theorem witness_StepKeepsI2cConsistent :
    I2cInv midRead ∧ (∃ t, step midRead = .next t) ∧ (∃ t, step (turn .i2cEngine [] midRead) = .next t) ∧
    Reaches boot midRead (i2cEngineStep midRead) :=
  ⟨midRead_i2c, ⟨_, rfl⟩, ⟨_, rfl⟩, .move (a := .i2cEngine) (.start boot_configured) ⟨rfl, by decide, _, rfl⟩⟩

theorem witness_PollProgramsTheReadPhase :
    (∀ cr2 : Word,
      let s := reader .sentRegister 0 (fun f => { f with tc := true }) (bus .tcHold 0 0 false cr2)
      s.rd.state = .sentRegister ∧ s.i2c.isr.tc = true ∧ s.rd.slave = some 0x50#7 ∧ s.rd.len = some 2#8 ∧
        s.i2c.isr.nackf = false ∧ s.i2c.phase = .tcHold ∧ s.i2c.cr2 = cr2) ∧
    2#8 ≠ 0#8 ∧ (0x000100A0#32).getLsbD 13 = false ∧ (0x000100A0#32).getLsbD 14 = false ∧
    (0x000120A0#32).getLsbD 13 = true ∧ (0x000040A0#32).getLsbD 14 = true :=
  ⟨fun _ => ⟨rfl, rfl, rfl, rfl, rfl, rfl, rfl⟩, by decide⟩

/-- The first byte of two and the last. -/
theorem witness_PollCopiesOneByte :
    ∀ o ∈ [0, 1],
      let s := reader .readingData o (fun f => { f with rxne := true }) State.reset
      s.rd.state = .readingData ∧ s.i2c.isr.rxne = true ∧ s.i2c.isr.nackf = false ∧ s.rd.buf = some 0x100#32 ∧
        s.rd.len = some 2#8 ∧ s.rd.offset = some o ∧ s.mem.admits ((0x100#32).toNat + o) = true := by decide

theorem witness_PollWithNothingToDoOnlyAdvances :
    (let s := reader .sentRegister 0 id State.reset
     s.i2c.isr.nackf = false ∧ s.rd.state = .sentRegister ∧ s.i2c.isr.tc = false) ∧
    (let s := reader .readingData 1 id State.reset
     s.i2c.isr.nackf = false ∧ s.rd.state = .readingData ∧ s.i2c.isr.rxne = false) ∧
    (let s := reader .complete 2 (fun f => { f with tc := true, rxne := true }) State.reset
     s.i2c.isr.nackf = false ∧ s.rd.state = .complete) := by decide

/-- A NACK sampled together with a byte to copy. -/
theorem witness_NackOverridesThePoll :
    let s := reader .readingData 1 (fun f => { f with rxne := true, nackf := true }) State.reset
    s.i2c.isr.nackf = true ∧
      ∃ t, exec .i2cPoll { s with i2c := { s.i2c with isr := { s.i2c.isr with nackf := false } } } = .next t ∧
        t.host.pc = s.host.pc + 1#32 ∧ t.refused = s.refused ∧ t.faults = s.faults :=
  ⟨rfl, _, rfl, rfl, rfl, rfl⟩

/-- One byte beyond a region that ends at the buffer's second byte. -/
theorem witness_PollIsStuckOnUnadmittedMemory :
    let s : State := program [0x31000000#32] (reader .readingData 1 (fun f => { f with rxne := true })
      { State.reset with mem := { cells := [], regions := [⟨0x100, 1⟩] } })
    s.rd.state = .readingData ∧ s.i2c.isr.rxne = true ∧ s.rd.buf = some 0x100#32 ∧ s.rd.offset = some 1 ∧
      s.mem.admits ((0x100#32).toNat + 1) = false ∧ fetch s = .ok .i2cPoll := by decide

theorem witness_StepKeepsReaderConsistent : ReaderInv midRead ∧ ∃ t, step midRead = .next t := ⟨midRead_reader, _, rfl⟩

/-- A step that writes the byte at `0x101`. -/
theorem witness_MemoryIsWrittenOnlyByPoll :
    ReaderInv midRead ∧ ∃ t, step midRead = .next t ∧ t.mem.read 0x101 ≠ midRead.mem.read 0x101 :=
  ⟨midRead_reader, _, rfl, by decide⟩

theorem witness_StepKeepsMemoryCanonical : midRead.mem.wf ∧ ∃ t, step midRead = .next t := ⟨by decide, _, rfl⟩

theorem witness_BranchAndEndFollowTheirRules : Agent.spiEngine ≠ .host ∧ Agent.i2cSlave ≠ .host := by decide

/-- An operation that writes `host.r` and moves `pc`, one that faults, one that is refused. -/
theorem witness_ResultRegisterHasSixWriters :
    (∃ t, exec (.i2cRegRd 0x18#8) State.reset = .next t ∧ t.host.r ≠ State.reset.host.r ∧ t.host.pc ≠ State.reset.host.pc) ∧
    (∃ t, exec .spiFinish State.reset = .next t ∧ t.faults ≠ State.reset.faults) ∧
    ∃ t, exec (.i2cRegRd 0x1A#8) State.reset = .next t ∧ t.refused = true ∧ State.reset.refused = false :=
  ⟨⟨_, rfl, by decide⟩, ⟨_, rfl, by decide⟩, _, rfl, by decide⟩

theorem witness_StepKeepsTimeOrder : TimeInv (turn .i2cSlave [] (bus .addr 8 1 false 0#32)) ∧
    ∃ t, step (turn .i2cSlave [] (bus .addr 8 1 false 0#32)) = .next t where
  left :=
    { riseStamp := by decide
      fallStamp := fun _ h => by cases h
      respStamp := fun _ h => by rcases h with h | ⟨_, h⟩ <;> cases h
      spiStamps := by decide
      i2cStamps := by decide
      spiOrder := by decide
      i2cOrder := by decide }
  right := ⟨_, rfl⟩

/-- An operation and a step of each unit, and two states that differ in the other unit alone. -/
theorem witness_SpiAndI2cShareNoState :
    (∃ t, exec (.spiXfer 0#16) configured = .next t) ∧ (∃ t, exec .i2cPoll State.reset = .next t) ∧
    SpiAgree (framing .setup false 16) { framing .setup false 16 with i2c := (bus .addr 8 1 false 0#32).i2c } ∧
    I2cAgree (bus .addr 8 1 false 0#32) { bus .addr 8 1 false 0#32 with spi := configured.spi } :=
  ⟨⟨_, rfl⟩, ⟨_, rfl⟩, ⟨rfl, rfl, rfl, rfl, rfl, rfl, rfl, rfl, rfl, rfl⟩,
    ⟨rfl, rfl, rfl, rfl, rfl, rfl, rfl, rfl, rfl, rfl, rfl⟩⟩

end Sys2Proof.Tests
end

section
/-! The two units share no state (spec/00_scope.md R17). What the SPI side never touches is replaced as a whole by that of
another state; a step of the SPI side that commutes with this replacement reads and writes none of it, and both halves of
R17 (what a step leaves alone, and that it does not depend on it) follow from the one equation. The I2C side likewise. -/

namespace Sys2Proof.Machine

/-! Replacing one side of the state. -/

/-- `s` with the I2C side (controller, reader, slave, buffer memory, trace) of `g`. -/
def State.withI2cSide (s g : State) : State :=
  { s with i2c := g.i2c, rd := g.rd, sl := g.sl, mem := g.mem, traceI2c := g.traceI2c }

/-- `s` with the SPI side (unit, sequencer, sensor, trace) of `g`. -/
def State.withSpiSide (s g : State) : State :=
  { s with spi := g.spi, enc := g.enc, dev := g.dev, traceSpi := g.traceSpi }

/-- The effect neither reads nor writes what `graft` replaces: it commutes with the replacement. -/
def Ignores (graft : State → State → State) (f : State → State) : Prop := ∀ s g, f (graft s g) = graft (f s) g

/-- The operation always answers a next state, and neither reads nor writes what `graft` replaces. -/
def OpIgnores (graft : State → State → State) (i : Instr) : Prop :=
  ∀ s g, ∃ s', exec i s = .next s' ∧ exec i (graft s g) = .next (graft s' g)

abbrev IgnoresI2cSide : (State → State) → Prop := Ignores State.withI2cSide
abbrev IgnoresSpiSide : (State → State) → Prop := Ignores State.withSpiSide
abbrev OpIgnoresI2cSide : Instr → Prop := OpIgnores State.withI2cSide
abbrev OpIgnoresSpiSide : Instr → Prop := OpIgnores State.withSpiSide

@[simp] theorem State.withI2cSide_spi (s g : State) : (s.withI2cSide g).spi = s.spi := rfl
@[simp] theorem State.withI2cSide_enc (s g : State) : (s.withI2cSide g).enc = s.enc := rfl
@[simp] theorem State.withI2cSide_dev (s g : State) : (s.withI2cSide g).dev = s.dev := rfl
@[simp] theorem State.withI2cSide_peekBit (s g : State) : (s.withI2cSide g).peekBit = s.peekBit := rfl

@[simp] theorem State.withSpiSide_i2c (s g : State) : (s.withSpiSide g).i2c = s.i2c := rfl
@[simp] theorem State.withSpiSide_rd (s g : State) : (s.withSpiSide g).rd = s.rd := rfl
@[simp] theorem State.withSpiSide_sl (s g : State) : (s.withSpiSide g).sl = s.sl := rfl
@[simp] theorem State.withSpiSide_peekBit (s g : State) : (s.withSpiSide g).peekBit = s.peekBit := rfl
@[simp] theorem State.withSpiSide_elapse (s g : State) (n : Nat) :
    (s.withSpiSide g).elapse n = (s.elapse n).withSpiSide g := rfl
@[simp] theorem State.withSpiSide_pop (s g : State) : (s.withSpiSide g).pop = s.pop.withSpiSide g := rfl
@[simp] theorem State.withSpiSide_slaveBit (s g : State) (b : Bool) :
    (s.withSpiSide g).slaveBit b = (s.slaveBit b).withSpiSide g := rfl

/-! What follows for an effect and for an operation, whichever side is replaced. -/

section
variable {graft : State → State → State} {f : State → State} {i : Instr} {s s' g t s₁ s₂ t₁ t₂ : State}

theorem Ignores.of_eq (hf : Ignores graft f) (ht : t = graft s g) : f t = graft (f s) g := by rw [ht, hf]

/-- An effect that ignores a side leaves the state's own side in place. -/
theorem Ignores.keeps (hf : Ignores graft f) (hs : s = graft s s) : f s = graft (f s) s := hf.of_eq hs

/-- Where two states differ in the ignored side at most, so do the states the effect leads to. -/
theorem Ignores.differ (hf : Ignores graft f) (h : ∃ g, s₂ = graft s₁ g) : ∃ g, f s₂ = graft (f s₁) g :=
  h.imp fun _ => hf.of_eq

/-- An operation whose whole effect ignores a side. -/
theorem Ignores.op (hf : Ignores graft f) (h : ∀ s, exec i s = .next (f s)) : OpIgnores graft i :=
  fun s g => ⟨f s, h s, by rw [h, hf]⟩

theorem OpIgnores.exec_graft (hi : OpIgnores graft i) (h : exec i s = .next s') (g : State) :
    exec i (graft s g) = .next (graft s' g) := by
  obtain ⟨t, ht, htg⟩ := hi s g
  cases h.symm.trans ht
  exact htg

theorem OpIgnores.keeps (hi : OpIgnores graft i) (hs : s = graft s s) (h : exec i s = .next s') :
    s' = graft s' s := by
  have hg := hi.exec_graft h s
  rw [← hs, h] at hg
  exact Host.Outcome.next.inj hg

theorem OpIgnores.differ (hi : OpIgnores graft i) (h : ∃ g, s₂ = graft s₁ g) (h₁ : exec i s₁ = .next t₁)
    (h₂ : exec i s₂ = .next t₂) : ∃ g, t₂ = graft t₁ g := by
  obtain ⟨g, rfl⟩ := h
  exact ⟨g, Host.Outcome.next.inj (h₂.symm.trans (hi.exec_graft h₁ g))⟩

end

/-! The two replacements and the statement's own terms. -/

/-- A state that has the I2C side of `s`. -/
theorem i2cSide_eq_of_graft {s s' : State} (h : s' = s'.withI2cSide s) :
    s'.i2c = s.i2c ∧ s'.rd = s.rd ∧ s'.sl = s.sl ∧ s'.mem = s.mem ∧ s'.traceI2c = s.traceI2c := by
  rw [h]; exact ⟨rfl, rfl, rfl, rfl, rfl⟩

/-- A state that has the SPI side of `s`. -/
theorem spiSide_eq_of_graft {s s' : State} (h : s' = s'.withSpiSide s) :
    s'.spi = s.spi ∧ s'.enc = s.enc ∧ s'.dev = s.dev ∧ s'.traceSpi = s.traceSpi := by
  rw [h]; exact ⟨rfl, rfl, rfl, rfl⟩

/-- Two states agree on the SPI side exactly when they differ in the I2C side at most. -/
theorem spiAgree_iff {s₁ s₂ : State} : SpiAgree s₁ s₂ ↔ ∃ g, s₂ = s₁.withI2cSide g := by
  constructor
  · rintro ⟨hspi, henc, hdev, htrace, ht, hhost, hfaults, hrefused, hrefusal, henv⟩
    refine ⟨s₂, ?_⟩
    simp only [State.withI2cSide, hspi, henc, hdev, htrace, ht, hhost, hfaults, hrefused, hrefusal, henv]
  · rintro ⟨g, rfl⟩
    exact ⟨rfl, rfl, rfl, rfl, rfl, rfl, rfl, rfl, rfl, rfl⟩

/-- Two states agree on the I2C side exactly when they differ in the SPI side at most. -/
theorem i2cAgree_iff {s₁ s₂ : State} : I2cAgree s₁ s₂ ↔ ∃ g, s₂ = s₁.withSpiSide g := by
  constructor
  · rintro ⟨hi2c, hrd, hsl, hmem, htrace, ht, hhost, hfaults, hrefused, hrefusal, henv⟩
    refine ⟨s₂, ?_⟩
    simp only [State.withSpiSide, hi2c, hrd, hsl, hmem, htrace, ht, hhost, hfaults, hrefused, hrefusal, henv]
  · rintro ⟨g, rfl⟩
    exact ⟨rfl, rfl, rfl, rfl, rfl, rfl, rfl, rfl, rfl, rfl, rfl⟩

/-! The SPI side: the sensor, the frame engine, the transfers, the filter sequencer. -/

theorem deviceFrameStart_ignoresI2cSide (tFall : Nat) : IgnoresI2cSide (deviceFrameStart tFall) := by
  intro s g
  unfold deviceFrameStart
  rw [State.withI2cSide_dev]
  split
  · rfl
  · split <;> rfl
  · split <;> rfl

theorem deviceCommit_ignoresI2cSide (v : Byte) : IgnoresI2cSide (deviceCommit v) := by
  intro s g
  unfold deviceCommit
  rw [State.withI2cSide_peekBit]
  split <;> rfl

theorem deviceFrameEnd_ignoresI2cSide (w : Half) (tRise : Nat) : IgnoresI2cSide (deviceFrameEnd w tRise) := by
  intro s g
  unfold deviceFrameEnd
  split
  · rfl
  · split
    · exact congrArg (fun t : State => { t with dev := { t.dev with resp := .regWrite (w.extractLsb' 0 8) tRise } })
        (deviceCommit_ignoresI2cSide _ { s with dev := { s.dev with inWord := some w } } g)
    · rfl

theorem spiRise_ignoresI2cSide : IgnoresI2cSide spiRise := by
  intro s g
  unfold spiRise
  rw [State.withI2cSide_spi, State.withI2cSide_dev]
  split <;> rfl

theorem spiFall_ignoresI2cSide : IgnoresI2cSide spiFall := by
  intro s g
  unfold spiFall
  rw [State.withI2cSide_spi]
  split <;> rfl

theorem spiFinishFrame_ignoresI2cSide : IgnoresI2cSide spiFinishFrame := by
  intro s g
  unfold spiFinishFrame
  rw [State.withI2cSide_spi]
  split
  · exact (deviceFrameEnd_ignoresI2cSide _ _).of_eq rfl
  · rfl

theorem spiEngineStep_ignoresI2cSide : IgnoresI2cSide spiEngineStep := by
  intro s g
  have hrule : spiRule (s.withI2cSide g) = spiRule s := rfl
  unfold spiEngineStep
  rw [hrule]
  split
  · rfl
  · exact spiRise_ignoresI2cSide s g
  · exact spiFall_ignoresI2cSide s g
  · exact spiFinishFrame_ignoresI2cSide s g

theorem startFrame_ignoresI2cSide (w : Half) : IgnoresI2cSide (startFrame w) :=
  fun _ _ => (deviceFrameStart_ignoresI2cSide _).of_eq rfl

theorem beginFrame_ignoresI2cSide (w : Half) : IgnoresI2cSide (beginFrame w) := by
  intro s g
  have hcheck : frameCheck (s.withI2cSide g) = frameCheck s := rfl
  unfold beginFrame
  rw [hcheck]
  split
  · rfl
  · exact startFrame_ignoresI2cSide w s g

/-- Taking the word ignores the I2C side if what the operation does with it does. -/
theorem takeResult_ignoresI2cSide {k : Half → State → State} (hk : ∀ v, IgnoresI2cSide (k v)) :
    IgnoresI2cSide (takeResult k) := by
  intro s g
  unfold takeResult
  rw [State.withI2cSide_spi]
  split
  · rfl
  · exact (hk _).of_eq rfl

theorem spiTransfer_ignoresI2cSide (w : Half) {k : Half → State → State} (hk : ∀ v, IgnoresI2cSide (k v)) :
    IgnoresI2cSide (spiTransfer w k) := by
  intro s g
  have hprogress : frameInProgress (s.withI2cSide g) = frameInProgress s := rfl
  have hready : frameReady (s.withI2cSide g) = frameReady s := rfl
  unfold spiTransfer
  rw [hprogress, hready]
  split
  · split
    · exact takeResult_ignoresI2cSide hk s g
    · rfl
  · exact beginFrame_ignoresI2cSide w s g

theorem returnWord_ignoresI2cSide (v : Half) : IgnoresI2cSide (returnWord v) := fun _ _ => rfl

theorem splitStart_ignoresI2cSide (w : Half) : IgnoresI2cSide (splitStart w) := by
  intro s g
  have hcheck : frameCheck (s.withI2cSide g) = frameCheck s := rfl
  unfold splitStart
  rw [hcheck]
  split
  · rfl
  · dsimp only
    rw [startFrame_ignoresI2cSide w s g]
    rfl

theorem splitFinish_ignoresI2cSide : IgnoresI2cSide splitFinish := by
  intro s g
  have hready : frameReady (s.withI2cSide g) = frameReady s := rfl
  unfold splitFinish
  rw [State.withI2cSide_spi, hready]
  split
  · rfl
  · split
    · exact takeResult_ignoresI2cSide (fun _ _ _ => rfl) s g
    · rfl

theorem filterDecide_ignoresI2cSide (f : Half) : IgnoresI2cSide (filterDecide f) := by
  intro s g
  unfold filterDecide
  rw [State.withI2cSide_enc]
  split
  · rfl
  · split
    · rfl
    · exact (beginFrame_ignoresI2cSide _).of_eq rfl

theorem filterReadBack_ignoresI2cSide (f v : Half) : IgnoresI2cSide (filterReadBack f v) :=
  fun _ _ => (filterDecide_ignoresI2cSide f).of_eq rfl

theorem filterVerify_ignoresI2cSide (v : Half) : IgnoresI2cSide (filterVerify v) := by
  intro s g
  unfold filterVerify
  rw [State.withI2cSide_enc]
  split
  · rfl
  · split <;> rfl

theorem filterStep_ignoresI2cSide (f : Half) : IgnoresI2cSide (filterStep f) := by
  intro s g
  unfold filterStep
  rw [State.withI2cSide_enc]
  split
  · exact (beginFrame_ignoresI2cSide _).of_eq rfl
  · exact spiTransfer_ignoresI2cSide _ (fun _ _ _ => rfl) s g
  · rfl
  · exact spiTransfer_ignoresI2cSide _ (filterReadBack_ignoresI2cSide f) s g
  · exact filterDecide_ignoresI2cSide f s g
  · exact spiTransfer_ignoresI2cSide _ (fun _ _ _ => rfl) s g
  · rfl
  · exact spiTransfer_ignoresI2cSide _ filterVerify_ignoresI2cSide s g

/-- `SPI_CONFIG` answers one of three states, none of which looks at the I2C side. -/
theorem spiConfig_opIgnoresI2cSide (freq : Word) (mode : BitVec 2) (width : Nat) :
    OpIgnoresI2cSide (.spiConfig freq mode width) := by
  intro s g
  refine ⟨_, rfl, congrArg Host.Outcome.next ?_⟩
  rw [State.withI2cSide_spi]
  split
  · rfl
  · split <;> rfl

theorem opIgnoresI2cSide_of_isSpiOp {i : Instr} (hi : isSpiOp i = true) : OpIgnoresI2cSide i := by
  have hxfer (w : Half) := spiTransfer_ignoresI2cSide w returnWord_ignoresI2cSide
  cases i with
  | spiConfig freq mode width => exact spiConfig_opIgnoresI2cSide freq mode width
  | spiXfer w => exact (hxfer w).op fun _ => rfl
  | spiStart w => exact (splitStart_ignoresI2cSide w).op fun _ => rfl
  | spiFinish => exact splitFinish_ignoresI2cSide.op fun _ => rfl
  | encSample => exact (hxfer wNop).op fun _ => rfl
  | encStartSample => exact (splitStart_ignoresI2cSide wNop).op fun _ => rfl
  | encFinishSample => exact splitFinish_ignoresI2cSide.op fun _ => rfl
  | encSetFilterUs f => exact (filterStep_ignoresI2cSide f).op fun _ => rfl
  | _ => cases hi

/-! The I2C side: the engine and the slave. -/

theorem engEndOfTransfer_ignoresSpiSide : IgnoresSpiSide engEndOfTransfer := by
  intro s g
  unfold engEndOfTransfer
  rw [State.withSpiSide_i2c]
  split <;> rfl

theorem engSendBit_ignoresSpiSide : IgnoresSpiSide engSendBit := by
  intro s g
  unfold engSendBit
  rw [State.withSpiSide_i2c]
  split <;> rfl

theorem engAddrAck_ignoresSpiSide : IgnoresSpiSide engAddrAck := by
  intro s g
  unfold engAddrAck
  dsimp only
  rw [State.withSpiSide_elapse, State.withSpiSide_pop, State.withSpiSide_slaveBit, State.withSpiSide_peekBit,
    State.withSpiSide_i2c]
  split
  · rfl
  · split <;> rfl

theorem engDataAck_ignoresSpiSide : IgnoresSpiSide engDataAck := by
  intro s g
  unfold engDataAck
  dsimp only
  rw [State.withSpiSide_elapse, State.withSpiSide_pop, State.withSpiSide_slaveBit, State.withSpiSide_peekBit,
    State.withSpiSide_i2c]
  split
  · rfl
  · split
    · exact engEndOfTransfer_ignoresSpiSide.of_eq rfl
    · rfl

theorem engRecvBit_ignoresSpiSide : IgnoresSpiSide engRecvBit := by
  intro s g
  unfold engRecvBit
  rw [State.withSpiSide_i2c]
  split <;> rfl

theorem engRxStore_ignoresSpiSide : IgnoresSpiSide engRxStore := by
  intro s g
  unfold engRxStore
  rw [State.withSpiSide_i2c]
  split <;> rfl

theorem engMasterAck_ignoresSpiSide : IgnoresSpiSide engMasterAck := by
  intro s g
  unfold engMasterAck
  rw [State.withSpiSide_i2c]
  split
  · rfl
  · exact engEndOfTransfer_ignoresSpiSide.of_eq rfl

theorem engEffect_ignoresSpiSide (r : EngRule) : IgnoresSpiSide (engEffect r) := by
  cases r with
  | start => exact fun _ _ => rfl
  | sendBit => exact engSendBit_ignoresSpiSide
  | addrAck => exact engAddrAck_ignoresSpiSide
  | dataAck => exact engDataAck_ignoresSpiSide
  | txLoad => exact fun _ _ => rfl
  | recvBit => exact engRecvBit_ignoresSpiSide
  | rxStore => exact engRxStore_ignoresSpiSide
  | masterAck => exact engMasterAck_ignoresSpiSide
  | stopRequest => exact fun _ _ => rfl
  | stop => exact fun _ _ => rfl

theorem i2cEngineStep_ignoresSpiSide : IgnoresSpiSide i2cEngineStep := by
  intro s g
  have hrule : engRule (s.withSpiSide g) = engRule s := rfl
  unfold i2cEngineStep
  rw [hrule]
  split
  · rfl
  · exact engEffect_ignoresSpiSide _ s g

theorem i2cSlaveStep_ignoresSpiSide : IgnoresSpiSide i2cSlaveStep := by
  intro s g
  have hmay : slaveMayHold (s.withSpiSide g) = slaveMayHold s := rfl
  unfold i2cSlaveStep
  rw [State.withSpiSide_sl, hmay]
  split
  · rfl
  · split <;> rfl

/-! The I2C side: the registers and the reader. -/

theorem writeCr2_withSpiSide (v : Word) (s g : State) :
    writeCr2 v (s.withSpiSide g) = (writeCr2 v s).map (·.withSpiSide g) := by
  unfold writeCr2
  rw [cr2WriteCheck_congr (State.withSpiSide_i2c s g)]
  split <;> rfl

theorem writeTxdr_withSpiSide (v : Word) (s g : State) :
    writeTxdr v (s.withSpiSide g) = (writeTxdr v s).map (·.withSpiSide g) := by
  unfold writeTxdr
  split <;> rfl

theorem regWrite_withSpiSide (off : Byte) (v : Word) (s g : State) :
    regWrite off v (s.withSpiSide g) = (regWrite off v s).map (·.withSpiSide g) := by
  unfold regWrite
  split
  · exact writeCr2_withSpiSide v s g
  · split
    · rfl
    · split
      · exact writeTxdr_withSpiSide v s g
      · rfl

theorem regRead_withSpiSide (off : Byte) (s g : State) :
    regRead off (s.withSpiSide g) = (regRead off s).map (Prod.map id (·.withSpiSide g)) := by
  unfold regRead
  repeat' split
  all_goals rfl

/-- The request of a transaction, stored in the reader before any register is written (spec/43_i2c_reader.md R225). -/
def storeRequest (slave : BitVec 7) (reg : Byte) (buf : Word) (len : Byte) (s : State) : State :=
  { s with rd := { s.rd with slave := some slave, reg := some reg, buf := some buf, len := some len } }

theorem startTransaction_eq (slave : BitVec 7) (reg : Byte) (buf : Word) (len : Byte) (s : State) :
    startTransaction slave reg buf len s =
      (regWrite offCr2 (cr2Wr slave) (storeRequest slave reg buf len s)).bind fun t =>
        (regWrite offTxdr (reg.setWidth 32) t).map fun u => { u with rd := { u.rd with state := .sentRegister } } := by
  unfold startTransaction storeRequest
  cases regWrite offCr2 (cr2Wr slave) _ with
  | error c => rfl
  | ok t =>
    dsimp only [Except.bind]
    cases regWrite offTxdr (reg.setWidth 32) t <;> rfl

theorem storeRequest_ignoresSpiSide (slave : BitVec 7) (reg : Byte) (buf : Word) (len : Byte) :
    IgnoresSpiSide (storeRequest slave reg buf len) := fun _ _ => rfl

theorem startTransaction_withSpiSide (slave : BitVec 7) (reg : Byte) (buf : Word) (len : Byte) (s g : State) :
    startTransaction slave reg buf len (s.withSpiSide g) =
      (startTransaction slave reg buf len s).map (·.withSpiSide g) := by
  rw [startTransaction_eq, startTransaction_eq, storeRequest_ignoresSpiSide, regWrite_withSpiSide]
  cases regWrite offCr2 (cr2Wr slave) (storeRequest slave reg buf len s) with
  | error c => rfl
  | ok t =>
    simp only [Except.map, Except.bind, regWrite_withSpiSide]
    cases regWrite offTxdr (reg.setWidth 32) t <;> rfl

theorem pollSentRegister_withSpiSide (s g : State) :
    pollSentRegister (s.withSpiSide g) = (pollSentRegister s).map (·.withSpiSide g) := by
  unfold pollSentRegister
  rw [State.withSpiSide_rd]
  split
  · rw [regWrite_withSpiSide]
    cases regWrite offCr2 _ s <;> rfl
  · rfl

theorem pollReadingData_withSpiSide (s g : State) :
    pollReadingData (s.withSpiSide g) = (pollReadingData s).map (·.withSpiSide g) := by
  unfold pollReadingData
  rw [State.withSpiSide_rd]
  split <;> rfl

theorem pollAction_withSpiSide (f : IsrFlags) (s g : State) :
    pollAction f (s.withSpiSide g) = (pollAction f s).map (·.withSpiSide g) := by
  unfold pollAction
  rw [State.withSpiSide_rd]
  split
  · split
    · exact pollSentRegister_withSpiSide s g
    · rfl
  · split
    · exact pollReadingData_withSpiSide s g
    · rfl
  all_goals rfl

theorem pollNack_ignoresSpiSide (f : IsrFlags) : IgnoresSpiSide (pollNack f) := by
  intro s g
  unfold pollNack
  split <;> rfl

theorem halt_ignoresSpiSide (h : Halt) : IgnoresSpiSide (State.halt h) := by
  intro s g
  cases h <;> rfl

theorem i2cRegRd_opIgnoresSpiSide (off : Byte) : OpIgnoresSpiSide (.i2cRegRd off) := by
  intro s g
  simp only [exec, execI2cRegRd, regRead_withSpiSide]
  cases regRead off s with
  | error c => exact ⟨_, rfl, rfl⟩
  | ok p => exact ⟨_, rfl, rfl⟩

theorem i2cRegWr_opIgnoresSpiSide (off : Byte) (value : Word) : OpIgnoresSpiSide (.i2cRegWr off value) := by
  intro s g
  simp only [exec, execI2cRegWr, regWrite_withSpiSide]
  cases regWrite off value s with
  | error c => exact ⟨_, rfl, rfl⟩
  | ok s' => exact ⟨_, rfl, rfl⟩

theorem i2cStartRead_opIgnoresSpiSide (slave : BitVec 7) (reg : Byte) (buf : Word) (len : Byte) :
    OpIgnoresSpiSide (.i2cStartRead slave reg buf len) := by
  intro s g
  simp only [exec, execI2cStartRead, State.withSpiSide_rd, State.withSpiSide_i2c, startTransaction_withSpiSide]
  split
  · exact ⟨_, rfl, rfl⟩
  · split
    · exact ⟨_, rfl, rfl⟩
    · split
      · exact ⟨_, rfl, rfl⟩
      · cases startTransaction slave reg buf len s with
        | error c => exact ⟨_, rfl, rfl⟩
        | ok s' => exact ⟨_, rfl, rfl⟩

theorem i2cPoll_opIgnoresSpiSide : OpIgnoresSpiSide .i2cPoll := by
  intro s g
  have hblocked : pollBlocked (s.withSpiSide g) = pollBlocked s := rfl
  simp only [exec, execI2cPoll, State.withSpiSide_i2c, hblocked, pollAction_withSpiSide]
  split
  · exact ⟨_, rfl, rfl⟩
  · cases pollAction s.i2c.isr s with
    | error h => exact ⟨_, rfl, congrArg _ (halt_ignoresSpiSide h s g)⟩
    | ok s' => exact ⟨_, rfl, congrArg (fun t : State => Host.Outcome.next (t.advance 1)) (pollNack_ignoresSpiSide _ s' g)⟩

theorem i2cCheckRead_opIgnoresSpiSide : OpIgnoresSpiSide .i2cCheckRead := by
  intro s g
  simp only [exec, execI2cCheckRead, State.withSpiSide_rd]
  cases s.rd.state <;> exact ⟨_, rfl, rfl⟩

theorem opIgnoresSpiSide_of_isI2cOp {i : Instr} (hi : isI2cOp i = true) : OpIgnoresSpiSide i := by
  cases i with
  | i2cRegRd off => exact i2cRegRd_opIgnoresSpiSide off
  | i2cRegWr off value => exact i2cRegWr_opIgnoresSpiSide off value
  | i2cStartRead slave reg buf len => exact i2cStartRead_opIgnoresSpiSide slave reg buf len
  | i2cPoll => exact i2cPoll_opIgnoresSpiSide
  | i2cCheckRead => exact i2cCheckRead_opIgnoresSpiSide
  | _ => cases hi

/-- Settles O60: every step of one side commutes with replacing the other side by that of any state. -/
theorem spiAndI2cShareNoState : Obligations.SpiAndI2cShareNoState := by
  have hspi {i : Instr} (hi : isSpiOp i = true) := opIgnoresI2cSide_of_isSpiOp hi
  have hi2c {i : Instr} (hi : isI2cOp i = true) := opIgnoresSpiSide_of_isI2cOp hi
  refine ⟨fun s => i2cSide_eq_of_graft (spiEngineStep_ignoresI2cSide.keeps rfl), ?_,
    fun i s s' hi h => i2cSide_eq_of_graft ((hspi hi).keeps rfl h),
    fun i s s' hi h => spiSide_eq_of_graft ((hi2c hi).keeps rfl h), ?_, ?_⟩
  · rintro s s' (rfl | rfl)
    · exact spiSide_eq_of_graft (i2cEngineStep_ignoresSpiSide.keeps rfl)
    · exact spiSide_eq_of_graft (i2cSlaveStep_ignoresSpiSide.keeps rfl)
  · intro s₁ s₂ h
    rw [spiAgree_iff] at h
    exact ⟨spiAgree_iff.2 (spiEngineStep_ignoresI2cSide.differ h),
      fun i t₁ t₂ hi h₁ h₂ => spiAgree_iff.2 ((hspi hi).differ h h₁ h₂)⟩
  · intro s₁ s₂ h
    rw [i2cAgree_iff] at h
    exact ⟨i2cAgree_iff.2 (i2cEngineStep_ignoresSpiSide.differ h),
      i2cAgree_iff.2 (i2cSlaveStep_ignoresSpiSide.differ h),
      fun i t₁ t₂ hi h₁ h₂ => i2cAgree_iff.2 ((hi2c hi).differ h h₁ h₂)⟩

end Sys2Proof.Machine
end

section
/-! The fault set and the refusal mark are sticky (spec/10_state.md R39). An effect moves the marks in one of two ways: it
may record a fault and leaves the refusal mark alone (`FaultsGrow`: the engines, the slave and most operations), or it may
refuse as well (`MarksGrow`: every operation). -/

namespace Sys2Proof.Machine

/-- Going from `s` to `s'` no fault is removed, and the refusal mark is left alone (spec/60_exceptions.md R277). -/
structure FaultsGrow (s s' : State) : Prop where
  faults : s.faults ⊆ s'.faults
  refused : s'.refused = s.refused

/-- Going from `s` to `s'` no fault is removed, and the refusal mark is not cleared (R39). -/
structure MarksGrow (s s' : State) : Prop where
  faults : s.faults ⊆ s'.faults
  refused : s.refused = true → s'.refused = true

/-- Wherever the operation answers a next state, no mark is gone from it. -/
def OpKeepsMarks (i : Instr) : Prop := ∀ s s', exec i s = .next s' → MarksGrow s s'

/-! What the two relations give, and the three effects that move a mark. -/

section
variable {s s₁ s₂ : State} {i : Instr} {f : State → State}

theorem FaultsGrow.of_eq (hf : s₂.faults = s.faults) (hr : s₂.refused = s.refused) : FaultsGrow s s₂ :=
  ⟨hf.symm ▸ List.Subset.refl _, hr⟩

/-- An effect taken from a state with the marks of `s`. -/
theorem FaultsGrow.after (h : FaultsGrow s₁ s₂) (hf : s₁.faults = s.faults) (hr : s₁.refused = s.refused) :
    FaultsGrow s s₂ :=
  ⟨hf ▸ h.faults, h.refused.trans hr⟩

theorem FaultsGrow.marksGrow (h : FaultsGrow s s₂) : MarksGrow s s₂ := ⟨h.faults, h.refused.trans⟩

theorem MarksGrow.of_eq (hf : s₂.faults = s.faults) (hr : s₂.refused = s.refused) : MarksGrow s s₂ :=
  (FaultsGrow.of_eq hf hr).marksGrow

/-- An operation that always answers a next state. -/
theorem OpKeepsMarks.of_effect (h : ∀ s, exec i s = .next (f s)) (hf : ∀ s, MarksGrow s (f s)) : OpKeepsMarks i := by
  intro s s' hs
  cases (h s).symm.trans hs
  exact hf s

end

theorem raise_faultsGrow (c : FaultCode) (s : State) : FaultsGrow s (s.raise c) := by
  refine ⟨?_, rfl⟩
  rw [State.raise_faults]
  split
  · exact List.Subset.refl _
  · exact List.subset_append_left _ _

theorem raiseVerifyFail_faultsGrow (s : State) : FaultsGrow s s.raiseVerifyFail :=
  (raise_faultsGrow .verify _).after rfl rfl

theorem refuse_marksGrow (c : RefusalCode) (s : State) : MarksGrow s (s.refuse c) :=
  ⟨List.Subset.refl _, fun _ => rfl⟩

theorem halt_marksGrow (h : Halt) (s : State) : MarksGrow s (s.halt h) := by
  cases h with
  | fault c => exact (raise_faultsGrow c s).marksGrow
  | refuse c => exact refuse_marksGrow c s

/-! The SPI side: the transfers, the filter sequencer, the frame engine. -/

theorem startFrame_faultsGrow (w : Half) (s : State) : FaultsGrow s (startFrame w s) := by
  obtain ⟨tFall, v, -, hstart⟩ := startFrame_spec s
  rw [hstart w]
  exact .of_eq rfl rfl

theorem beginFrame_faultsGrow (w : Half) (s : State) : FaultsGrow s (beginFrame w s) := by
  rcases beginFrame_cases w s with ⟨c, -, h⟩ | ⟨-, h⟩ <;> rw [h]
  · exact raise_faultsGrow c s
  · exact startFrame_faultsGrow w s

/-- A blocking transfer removes no fault if what the operation does with its word does not. -/
theorem spiTransfer_faultsGrow (w : Half) {k : Half → State → State} (hk : ∀ v s, FaultsGrow s (k v s)) (s : State) :
    FaultsGrow s (spiTransfer w k s) := by
  rcases spiTransfer_cases w k s with ⟨-, h⟩ | ⟨-, -, h⟩ | ⟨-, -, -, h⟩ | ⟨-, -, v, -, h⟩ <;> rw [h]
  · exact beginFrame_faultsGrow w s
  · exact .of_eq rfl rfl
  · exact raise_faultsGrow _ s
  · exact (hk v _).after rfl rfl

theorem returnWord_faultsGrow (v : Half) (s : State) : FaultsGrow s (returnWord v s) := .of_eq rfl rfl

theorem splitStart_faultsGrow (w : Half) (s : State) : FaultsGrow s (splitStart w s) := by
  rcases splitStart_cases w s with ⟨c, -, h⟩ | ⟨-, h⟩ <;> rw [h]
  · exact raise_faultsGrow c s
  · have hstart := startFrame_faultsGrow w s
    exact ⟨hstart.faults, hstart.refused⟩

theorem splitFinish_faultsGrow (s : State) : FaultsGrow s (splitFinish s) := by
  rcases splitFinish_cases s with ⟨-, h⟩ | ⟨-, -, h⟩ | ⟨-, -, -, h⟩ | ⟨-, -, v, -, h⟩ <;> rw [h]
  · exact raise_faultsGrow _ s
  · exact .of_eq rfl rfl
  · exact raise_faultsGrow _ s
  · exact .of_eq rfl rfl

theorem filterDecide_faultsGrow (f : Half) (s : State) : FaultsGrow s (filterDecide f s) := by
  unfold filterDecide
  split
  · exact raise_faultsGrow _ s
  · dsimp only
    split
    · exact .of_eq rfl rfl
    · exact (beginFrame_faultsGrow _ _).after rfl rfl

theorem filterReadBack_faultsGrow (f v : Half) (s : State) : FaultsGrow s (filterReadBack f v s) :=
  (filterDecide_faultsGrow f _).after rfl rfl

theorem filterVerify_faultsGrow (v : Half) (s : State) : FaultsGrow s (filterVerify v s) := by
  unfold filterVerify
  split
  · exact raise_faultsGrow _ s
  · dsimp only
    split
    · exact .of_eq rfl rfl
    · exact (raiseVerifyFail_faultsGrow _).after rfl rfl

theorem filterStep_faultsGrow (f : Half) (s : State) : FaultsGrow s (filterStep f s) := by
  have hsetFs (p : FilterStep) (_ : Half) (s : State) : FaultsGrow s (s.setFs p) := .of_eq rfl rfl
  unfold filterStep
  split
  · exact (beginFrame_faultsGrow _ _).after rfl rfl
  · exact spiTransfer_faultsGrow _ (hsetFs .turn) s
  · exact .of_eq rfl rfl
  · exact spiTransfer_faultsGrow _ (filterReadBack_faultsGrow f) s
  · exact filterDecide_faultsGrow f s
  · exact spiTransfer_faultsGrow _ (hsetFs .commit) s
  · exact .of_eq rfl rfl
  · exact spiTransfer_faultsGrow _ filterVerify_faultsGrow s

theorem spiFinishFrame_faultsGrow (s : State) : FaultsGrow s (spiFinishFrame s) := by
  unfold spiFinishFrame
  split
  · dsimp only
    obtain ⟨reg, resp, e, hend, -⟩ := deviceFrameEnd_frame _ _ _
    rw [hend]
    exact .of_eq rfl rfl
  · exact raise_faultsGrow _ s

theorem spiEngineStep_faultsGrow (s : State) : FaultsGrow s (spiEngineStep s) := by
  unfold spiEngineStep
  split
  · exact .of_eq rfl rfl
  · unfold spiRise
    split
    · exact .of_eq rfl rfl
    · exact raise_faultsGrow _ s
  · unfold spiFall
    split
    · exact .of_eq rfl rfl
    · exact raise_faultsGrow _ s
  · exact spiFinishFrame_faultsGrow s

/-! The I2C side: the engine, the slave, the registers, the reader. -/

theorem i2cEngineStep_faultsGrow (s : State) : FaultsGrow s (i2cEngineStep s) := by
  rcases i2cEngineStep_frame s with ⟨u, d, t, l, e, h, -⟩ | ⟨h, -⟩ <;> rw [h]
  · exact .of_eq rfl rfl
  · exact raise_faultsGrow _ s

theorem i2cSlaveStep_faultsGrow (s : State) : FaultsGrow s (i2cSlaveStep s) := by
  rcases i2cSlaveStep_cases s with ⟨-, h⟩ | ⟨-, -, -, h⟩ | ⟨-, -, h⟩ <;> rw [h] <;> exact .of_eq rfl rfl

theorem regRead_marks {off : Byte} {v : Word} {s s' : State} (h : regRead off s = .ok (v, s')) :
    s'.faults = s.faults ∧ s'.refused = s.refused := by
  rcases regRead_eq_ok h with rfl | ⟨-, rfl⟩ <;> exact ⟨rfl, rfl⟩

theorem regWrite_marks {off : Byte} {v : Word} {s s' : State} (h : regWrite off v s = .ok s') :
    s'.faults = s.faults ∧ s'.refused = s.refused := by
  rcases regWrite_eq_ok h with ⟨-, -, rfl⟩ | ⟨-, rfl⟩ | ⟨-, -, rfl⟩ <;> exact ⟨rfl, rfl⟩

/-- A `Poll` that neither faults nor refuses leaves both marks alone. -/
theorem pollAction_marks {f : IsrFlags} {s s' : State} (h : pollAction f s = .ok s') :
    s'.faults = s.faults ∧ s'.refused = s.refused := by
  rcases pollAction_eq_ok h with rfl | ⟨-, -, slave, len, -, -, -, rfl⟩ | ⟨-, -, buf, len, o, -, -, -, rfl⟩ <;>
    exact ⟨rfl, rfl⟩

@[simp] theorem pollNack_faults (f : IsrFlags) (s : State) : (pollNack f s).faults = s.faults := by
  unfold pollNack
  split <;> rfl

@[simp] theorem pollNack_refused (f : IsrFlags) (s : State) : (pollNack f s).refused = s.refused := by
  unfold pollNack
  split <;> rfl

/-! The operations. -/

/-- `SPI_CONFIG` faults, refuses its operands, or applies them. -/
theorem spiConfig_keepsMarks (freq : Word) (mode : BitVec 2) (width : Nat) :
    OpKeepsMarks (.spiConfig freq mode width) := by
  refine .of_effect (fun _ => rfl) fun s => ?_
  split
  · exact (raise_faultsGrow _ s).marksGrow
  · split
    · exact refuse_marksGrow _ s
    · exact .of_eq rfl rfl

theorem i2cRegRd_keepsMarks (off : Byte) : OpKeepsMarks (.i2cRegRd off) := by
  intro s s' h
  simp only [exec, execI2cRegRd] at h
  split at h <;> cases h
  · exact refuse_marksGrow _ s
  · next hread =>
    obtain ⟨hfaults, hrefused⟩ := regRead_marks hread
    exact .of_eq hfaults hrefused

theorem i2cRegWr_keepsMarks (off : Byte) (value : Word) : OpKeepsMarks (.i2cRegWr off value) := by
  intro s s' h
  simp only [exec, execI2cRegWr] at h
  split at h <;> cases h
  · exact refuse_marksGrow _ s
  · next hwrite =>
    obtain ⟨hfaults, hrefused⟩ := regWrite_marks hwrite
    exact .of_eq hfaults hrefused

theorem i2cStartRead_keepsMarks (slave : BitVec 7) (reg : Byte) (buf : Word) (len : Byte) :
    OpKeepsMarks (.i2cStartRead slave reg buf len) := by
  intro s s' h
  simp only [exec, execI2cStartRead] at h
  split at h
  · cases h
    exact refuse_marksGrow _ s
  · split at h
    · cases h
      exact .of_eq rfl rfl
    · split at h
      · cases h
        exact .of_eq rfl rfl
      · split at h <;> cases h
        · exact refuse_marksGrow _ s
        · next hstart =>
          obtain ⟨-, rfl⟩ := startTransaction_eq_ok hstart
          exact .of_eq rfl rfl

theorem i2cPoll_keepsMarks : OpKeepsMarks .i2cPoll := by
  intro s s' h
  simp only [exec, execI2cPoll] at h
  split at h
  · cases h
    exact .of_eq rfl rfl
  · split at h <;> cases h
    · exact halt_marksGrow _ s
    · next haction =>
      obtain ⟨hfaults, hrefused⟩ := pollAction_marks haction
      exact .of_eq ((pollNack_faults _ _).trans hfaults) ((pollNack_refused _ _).trans hrefused)

theorem i2cCheckRead_keepsMarks : OpKeepsMarks .i2cCheckRead := by
  intro s s' h
  simp only [exec, execI2cCheckRead] at h
  cases hstate : s.rd.state <;> rw [hstate] at h <;> cases h <;> exact .of_eq rfl rfl

theorem hostBns_keepsMarks (off : Half) : OpKeepsMarks (.hostBns off) := by
  intro s s' h
  simp only [exec, execHostBns] at h
  split at h <;> cases h <;> exact .of_eq rfl rfl

theorem exec_keepsMarks (i : Instr) : OpKeepsMarks i := by
  have hxfer (w : Half) (s : State) := (spiTransfer_faultsGrow w returnWord_faultsGrow s).marksGrow
  have hsplit (w : Half) (s : State) := (splitStart_faultsGrow w s).marksGrow
  have hfinish (s : State) := (splitFinish_faultsGrow s).marksGrow
  cases i with
  | spiConfig freq mode width => exact spiConfig_keepsMarks freq mode width
  | spiXfer w => exact .of_effect (fun _ => rfl) (hxfer w)
  | spiStart w => exact .of_effect (fun _ => rfl) (hsplit w)
  | spiFinish => exact .of_effect (fun _ => rfl) hfinish
  | encSample => exact .of_effect (fun _ => rfl) (hxfer wNop)
  | encStartSample => exact .of_effect (fun _ => rfl) (hsplit wNop)
  | encFinishSample => exact .of_effect (fun _ => rfl) hfinish
  | encSetFilterUs f => exact .of_effect (fun _ => rfl) fun s => (filterStep_faultsGrow f s).marksGrow
  | i2cRegRd off => exact i2cRegRd_keepsMarks off
  | i2cRegWr off value => exact i2cRegWr_keepsMarks off value
  | i2cStartRead slave reg buf len => exact i2cStartRead_keepsMarks slave reg buf len
  | i2cPoll => exact i2cPoll_keepsMarks
  | i2cCheckRead => exact i2cCheckRead_keepsMarks
  | waitUs n => exact .of_effect (fun _ => rfl) fun _ => .of_eq rfl rfl
  | waitMs n => exact .of_effect (fun _ => rfl) fun _ => .of_eq rfl rfl
  | hostBns off => exact hostBns_keepsMarks off
  | hostEnd => exact .of_effect (fun _ => rfl) fun _ => .of_eq rfl rfl

/-! The obligation. -/

/-- A state that has a next state carries no mark (R27, R39). -/
theorem step_ne_next_of_marked {s : State} (hmark : s.faults ≠ [] ∨ s.refused = true ∨ s.enc.fatal = true) (s' : State) :
    step s ≠ .next s' := by
  intro h
  obtain ⟨hfaults, hfatal, hrefused, -⟩ := step_cases h
  simp [hfaults, hfatal, hrefused] at hmark

/-- Settles O8: each operation, engine step and slave step only adds to the marks, and a step needs them all clear. -/
theorem marksAreStickyAndStopEveryAgent : Obligations.MarksAreStickyAndStopEveryAgent := by
  refine ⟨rfl, rfl, fun i s s' h => ?_, fun s s' h => ?_, fun _ _ => rfl, fun _ hmark => step_ne_next_of_marked hmark⟩
  · have hgrow := exec_keepsMarks i s s' h
    exact ⟨fun _ hc => hgrow.faults hc, hgrow.refused⟩
  · have hgrow : FaultsGrow s s' := by
      rcases h with rfl | rfl | rfl
      · exact spiEngineStep_faultsGrow s
      · exact i2cEngineStep_faultsGrow s
      · exact i2cSlaveStep_faultsGrow s
    exact ⟨fun _ hc => hgrow.faults hc, hgrow.refused⟩

end Sys2Proof.Machine
end

section
/-! The falling SCLK edge (spec/40_spi_transactor.md R118). -/

namespace Sys2Proof.Machine

/-- With SCLK high in `SHIFT` the falling edge is the engine's rule. -/
theorem spiEngineStep_eq_spiFall {s : State} (hphase : s.spi.phase = .shift) (hsclk : s.spi.sclk = true) :
    spiEngineStep s = spiFall s := by
  have hrule : spiRule s = some .fall := by simp only [spiRule, hphase, hsclk, if_true]
  simp only [spiEngineStep, hrule]

/-- The SPI unit after a falling edge whose shifted transmit word is `tx`: the next bit is presented while bits are left,
else the last edge is done. -/
def SpiUnit.fallen (u : SpiUnit) (tx : Half) : SpiUnit :=
  { u with
    sclk := false, tx := some tx, bit := u.bit - 1
    mosi := if u.bit - 1 > 0 then some (tx.getLsbD 15) else u.mosi
    phase := if u.bit - 1 > 0 then u.phase else .hold }

/-- A falling edge takes `HALF` and a draw, emits its event and shifts; nothing else changes. MOSI is bit 15 of the
shifted word, its most significant. -/
theorem spiFall_eq {s : State} {tx : Half} (htx : s.spi.tx = some tx) :
    spiFall s =
      { s.pop with
        t := s.t + (half + s.peek)
        traceSpi := s.traceSpi ++ [⟨s.t + (half + s.peek), .sckFall⟩]
        spi := s.spi.fallen (tx <<< 1) } := by
  have hmsb : (tx <<< 1).msb = (tx <<< 1).getLsbD 15 := BitVec.msb_eq_getLsbD_last _
  simp only [spiFall, htx, hmsb]
  rfl

/-- Settles O18: the step is the falling edge, and in `SHIFT` the phase it keeps while bits are left is `SHIFT`. -/
theorem fallingEdgeShifts : Obligations.FallingEdgeShifts := by
  intro tx s hphase hsclk htx
  refine ⟨half + s.peek, s.pop.env, Nat.le_add_right _ _, ?_⟩
  rw [spiEngineStep_eq_spiFall hphase hsclk, spiFall_eq htx, SpiUnit.fallen, hphase]
  rfl

end Sys2Proof.Machine
end

section
/-! The filter configuration (spec/41_encoder_link.md R144 to R153): the code table, and the two decisions that a received
word settles at once, the read-back that matches (R148) and the verification that fails (R153). -/

namespace Sys2Proof.Machine

/-! The code table. -/

/-- No code of the table is below `a`, and a larger request never has a smaller code. -/
structure RisesFrom (a : Half) (table : Half → Half) : Prop where
  least : ∀ f, a ≤ table f
  mono : ∀ f g, f ≤ g → table f ≤ table g

/-- The last row of a table, which takes every request. -/
theorem RisesFrom.last (a : Half) : RisesFrom a fun _ => a := ⟨fun _ => BitVec.le_refl a, fun _ _ _ => BitVec.le_refl a⟩

/-- A row with a smaller code, put before the others: the requests it takes come before those it leaves. -/
theorem RisesFrom.row {b : Half} {table : Half → Half} (rest : RisesFrom b table) (a limit : Half) (hab : a ≤ b) :
    RisesFrom a fun f => if f ≤ limit then a else table f := by
  have hleast (f : Half) : a ≤ table f := BitVec.le_trans hab (rest.least f)
  constructor
  · intro f
    split
    · exact BitVec.le_refl a
    · exact hleast f
  · intro f g hfg
    by_cases hg : g ≤ limit
    · have hf : f ≤ limit := BitVec.le_trans hfg hg
      simp only [hf, hg, if_true, BitVec.le_refl]
    · by_cases hf : f ≤ limit
      · simp only [hf, hg, if_true, if_false, hleast g]
      · simp only [hf, hg, if_false, rest.mono f g hfg]

/-- The codes rise down the table of R144. -/
theorem risesFrom_filterCode : RisesFrom 51#16 filterCode :=
  RisesFrom.last 187#16
    |>.row 170#16 8192#16 (by decide)
    |>.row 153#16 4096#16 (by decide)
    |>.row 136#16 2048#16 (by decide)
    |>.row 119#16 1024#16 (by decide)
    |>.row 102#16 256#16 (by decide)
    |>.row 68#16 128#16 (by decide)
    |>.row 51#16 64#16 (by decide)

/-- Settles O22: the table over the bit vectors is that over the numbers, row by row, and its codes rise. -/
theorem filterCodeFollowsTheTable : Obligations.FilterCodeFollowsTheTable := by
  refine ⟨fun f => ?_, risesFrom_filterCode.mono⟩
  simp only [filterCode, BitVec.le_def, apply_ite BitVec.toNat, BitVec.toNat_ofNat, Nat.reducePow, Nat.reduceMod]

/-! A frame that has ended, and the decision on its word. -/

/-- A blocking transfer whose frame has ended takes the word. -/
theorem spiTransfer_of_ended {s : State} {v : Half} (w : Half) (k : Half → State → State)
    (hpending : s.spi.pending = false) (hphase : s.spi.phase = .idle) (hdone : s.spi.done = true)
    (hresult : s.spi.result = some v) :
    spiTransfer w k s = k v { s with spi := { s.spi with done := false } } := by
  have hprogress : frameInProgress s = true := by simp [frameInProgress, hpending, hdone]
  have hready : frameReady s = true := by simp [frameReady, hphase, hdone]
  simp only [spiTransfer, takeResult, hprogress, hready, hresult, if_true]

theorem filterStep_rdBack {s : State} (f : Half) (hfs : s.enc.fs = .rdBack) :
    filterStep f s = spiTransfer wNop (filterReadBack f) s := by
  simp only [filterStep, hfs]

theorem filterStep_verify {s : State} (f : Half) (hfs : s.enc.fs = .verify) :
    filterStep f s = spiTransfer wNop filterVerify s := by
  simp only [filterStep, hfs]

/-- A read-back that matches ends the operation, and nothing but the sequencer and `pc` changes (R148). -/
theorem filterReadBack_of_match {f v : Half} (s : State) (hmatch : filterCode f = upperByte v) :
    filterReadBack f v s =
      { s with
        enc := { s.enc with fs := .none, current := some (filterCode f), desired := some (filterCode f) }
        host := { s.host with pc := s.host.pc + 1#32 } } := by
  simp only [filterReadBack, filterDecide, State.setFs_enc, ← hmatch, if_true]
  rfl

/-- A verification that fails stores the final value and is fatal; `pc` stays (R153). -/
theorem filterVerify_of_mismatch {v d : Half} {s : State} (hdesired : s.enc.desired = some d) (hne : d ≠ upperByte v) :
    filterVerify v s = { s with enc := { s.enc with final := some (upperByte v) } }.raiseVerifyFail := by
  simp only [filterVerify, hdesired, hne.symm, if_false]

/-- The fatal error records `F_VERIFY` in a state that carries no fault. -/
theorem State.raiseVerifyFail_of_faultless {s : State} (hfaults : s.faults = []) :
    s.raiseVerifyFail = { s with enc := { s.enc with fatal := true }, faults := [.verify] } := by
  simp [State.raiseVerifyFail, State.raise, hfaults]

/-- Settles O25: the frame has ended, its word is taken, and it matches. -/
theorem filterFastPathEnds : Obligations.FilterFastPathEnds := by
  intro f v s hfs hpending hphase hdone hresult hmatch
  have hstep : filterStep f s = filterReadBack f v { s with spi := { s.spi with done := false } } := by
    rw [filterStep_rdBack f hfs, spiTransfer_of_ended wNop _ hpending hphase hdone hresult]
  exact congrArg Host.Outcome.next (hstep.trans (filterReadBack_of_match _ hmatch))

/-- Settles O28: the frame has ended, its word is taken, and it does not verify; the marks then stop every agent and
keep the run from being final. -/
theorem filterVerifyFailureIsFatal : Obligations.FilterVerifyFailureIsFatal := by
  intro f v d s hfaults hfs hpending hphase hdone hresult hdesired hne
  have hstep : filterStep f s =
      { s with
        spi := { s.spi with done := false }
        enc := { s.enc with final := some (upperByte v) } }.raiseVerifyFail := by
    rw [filterStep_verify f hfs, spiTransfer_of_ended wNop _ hpending hphase hdone hresult]
    exact filterVerify_of_mismatch hdesired hne
  refine ⟨_, congrArg Host.Outcome.next (hstep.trans (State.raiseVerifyFail_of_faultless hfaults)), rfl,
    step_ne_next_of_marked (.inr (.inr rfl)), ?_⟩
  rintro ⟨-, hnone, -⟩
  cases hnone

end Sys2Proof.Machine
end

section
/-! The terminal result of the polling reader (spec/43_i2c_reader.md R231, spec/30_encoding.md R100): one equation for
each of the reader's two terminal states, and one for the three others. -/

namespace Sys2Proof.Machine

theorem exec_i2cCheckRead_of_complete {s : State} (hstate : s.rd.state = .complete) :
    exec .i2cCheckRead s = .next ((s.releaseReader.setR statusComplete).advance 1) := by
  simp only [exec, execI2cCheckRead, hstate]

theorem exec_i2cCheckRead_of_error {s : State} (hstate : s.rd.state = .error) :
    exec .i2cCheckRead s = .next ((s.releaseReader.setR statusError).advance 1) := by
  simp only [exec, execI2cCheckRead, hstate]

/-- Before a terminal state the reader is left as it is. -/
theorem exec_i2cCheckRead_of_not_terminal {s : State} (hcomplete : s.rd.state ≠ .complete)
    (herror : s.rd.state ≠ .error) : exec .i2cCheckRead s = .next ((s.setR statusNone).advance 1) := by
  simp only [exec, execI2cCheckRead]
  cases hstate : s.rd.state with
  | complete => exact absurd hstate hcomplete
  | error => exact absurd hstate herror
  | idle | sentRegister | readingData => rfl

/-- Settles O52: `Complete` and `Error` give their result and release the reader, every other state only answers. -/
theorem checkReadFollowsItsRule : Obligations.CheckReadFollowsItsRule := by
  intro s
  dsimp only
  split
  · next hcomplete => exact exec_i2cCheckRead_of_complete hcomplete
  · next hcomplete =>
    split
    · next herror => exact exec_i2cCheckRead_of_error herror
    · next herror => exact exec_i2cCheckRead_of_not_terminal hcomplete herror

end Sys2Proof.Machine
end

section
/-! The timer waits and the control operations (spec/44_host_program.md R251 to R254): the two waits are one wait that is
told how long to last, the branch has an equation for each value of its test, and the end of the program is a change of
the host alone, which no other agent reads. -/

namespace Sys2Proof.Machine

/-- A timed step that moves `pc` by one lasts as long as it is told, and changes nothing but `t`, `pc` and the
environment (R251). -/
theorem State.elapse_advance_lasts (least : Nat) (s : State) :
    ∃ d e, least ≤ d ∧ (s.elapse least).advance 1 =
      { s with t := s.t + d, env := e, host := { s.host with pc := s.host.pc + 1#32 } } :=
  ⟨least + s.peek, s.pop.env, Nat.le_add_right least s.peek, rfl⟩

theorem exec_waitUs (n : BitVec 24) (s : State) :
    exec (.waitUs n) s = .next ((s.elapse (1000 * n.toNat)).advance 1) := rfl

theorem exec_waitMs (n : BitVec 24) (s : State) :
    exec (.waitMs n) s = .next ((s.elapse (1000000 * n.toNat)).advance 1) := rfl

/-- Settles O56: both operations are the timed step, with their count in ns as the least time. -/
theorem waitsLastAtLeastAsLong : Obligations.WaitsLastAtLeastAsLong := by
  intro n s
  obtain ⟨dUs, eUs, hleastUs, hwaitUs⟩ := s.elapse_advance_lasts (1000 * n.toNat)
  obtain ⟨dMs, eMs, hleastMs, hwaitMs⟩ := s.elapse_advance_lasts (1000000 * n.toNat)
  exact ⟨⟨dUs, eUs, hleastUs, (exec_waitUs n s).trans (congrArg _ hwaitUs)⟩,
    dMs, eMs, hleastMs, (exec_waitMs n s).trans (congrArg _ hwaitMs)⟩

/-- The branch is taken while `host.r = 0` (R253). -/
theorem exec_hostBns_of_zero {s : State} (off : Half) (hr : s.host.r = 0#32) :
    exec (.hostBns off) s =
      .next { s with host := { s.host with pc := s.host.pc + off.signExtend 32 } } := by
  simp only [exec, execHostBns, hr, if_true, branchTarget]

/-- With a result in `host.r` the branch falls through (R253). -/
theorem exec_hostBns_of_ne_zero {s : State} (off : Half) (hr : s.host.r ≠ 0#32) :
    exec (.hostBns off) s = .next (s.advance 1) := by
  simp only [exec, execHostBns, hr, if_false]

theorem exec_hostEnd (s : State) : exec .hostEnd s = .next { s with host := { s.host with ended := true } } := rfl

/-- A host that has ended has no step (R254). -/
theorem enabled_host_of_ended {s : State} (hended : s.host.ended = true) : enabled s .host = false := by
  simp only [enabled, hostEnabled, hended, Bool.not_true, Bool.false_and]

/-- Only the host's own turn depends on the host's registers: the engines and the slave read none of them. -/
theorem enabled_with_host (s : State) (h : HostUnit) {a : Agent} (ha : a ≠ .host) :
    enabled { s with host := h } a = enabled s a := by
  cases a with
  | host => exact absurd rfl ha
  | spiEngine | i2cEngine | i2cSlave => rfl

/-- Settles O57: the branch by the value of its test, then the end of the program and who still has a step after it. -/
theorem branchAndEndFollowTheirRules : Obligations.BranchAndEndFollowTheirRules := by
  intro s
  refine ⟨fun off => ?_, exec_hostEnd s, enabled_host_of_ended rfl, fun a ha => enabled_with_host s _ ha⟩
  split
  · next hr => exact exec_hostBns_of_zero off hr
  · next hr => exact exec_hostBns_of_ne_zero off hr

end Sys2Proof.Machine
end

section
/-! The command words (spec/30_encoding.md R80 to R91): the words of an operation decode to it, format by format, and the
decoder is the opcode map read row by row. -/

namespace Sys2Proof

/-! Each format reads back the operands that were put in its fields. -/

theorem formF0_fields (i : Instr) (opc : Byte) : formF0 i (opc ++ 0#24) = some i := by
  simp only [formF0, (fields_F0 opc).2, if_true]

theorem formFI16_fields (mk : Half → Instr) (opc : Byte) (w : Half) :
    formFI16 mk (opc ++ 0#8 ++ w) = some (mk w) := by
  obtain ⟨-, hzero, hw⟩ := fields_FI16 opc w
  simp only [formFI16, hzero, hw, if_true]

theorem formFI24_fields (mk : BitVec 24 → Instr) (opc : Byte) (n : BitVec 24) :
    formFI24 mk (opc ++ n) = some (mk n) := by
  simp only [formFI24, (fields_FI24 opc n).2]

theorem formFREG_fields (mk : Byte → Instr) (opc off : Byte) :
    formFREG mk (opc ++ 0#16 ++ off) = some (mk off) := by
  obtain ⟨-, hzero, hoff⟩ := fields_FREG opc off
  simp only [formFREG, hzero, hoff, if_true]

theorem formFRD_fields (mk : BitVec 7 → Byte → Byte → Instr) (opc : Byte) (slave : BitVec 7) (reg len : Byte) :
    formFRD mk (opc ++ 0#1 ++ slave ++ reg ++ len) = some (mk slave reg len) := by
  obtain ⟨-, hzero, hslave, hreg, hlen⟩ := fields_FRD opc slave reg len
  simp only [formFRD, hzero, hslave, hreg, hlen, if_true]

theorem formFCFG_fields (mk : BitVec 2 → Nat → Instr) (opc : Byte) (mode : BitVec 2) {width : Nat}
    (hlow : 1 ≤ width) (hhigh : width ≤ 32) :
    formFCFG mk (opc ++ 0#11 ++ BitVec.ofNat 5 width ++ 0#6 ++ mode) = some (mk mode width) := by
  obtain ⟨-, hzero, hzero', hmode, hwidth⟩ := fields_FCFG opc (BitVec.ofNat 5 width) mode
  simp only [formFCFG, hzero, hzero', hmode, hwidth, widthOfField_ofNat hlow hhigh, and_self, if_true]

/-! Decoding what is encoded. -/

/-- The row that the first word of an operation selects is read with the operands of the operation; word 1 counts in the
two-word formats alone (R81 to R88). -/
theorem decodeWords_encode {i : Instr} {w0 w1 : Word} (hwf : i.wellFormed = true) (h0 : (encode i)[0]? = some w0)
    (h1 : ∀ w, (encode i)[1]? = some w → w1 = w) : decodeWords w0 w1 = some i := by
  cases i with
  | spiConfig freq mode width =>
    cases h0
    cases h1 freq rfl
    obtain ⟨hlow, hhigh⟩ : 1 ≤ width ∧ width ≤ 32 := by simpa [Instr.wellFormed] using hwf
    simp only [decodeWords, (fields_FCFG _ _ _).1, formFCFG_fields _ _ _ hlow hhigh, if_true]
  | spiFinish | encSample | encStartSample | encFinishSample | i2cPoll | i2cCheckRead | hostEnd =>
    cases h0
    simp only [decodeWords, (fields_F0 _).1, formF0_fields, BitVec.reduceEq, if_true, if_false]
  | spiXfer w | spiStart w | encSetFilterUs w | hostBns w =>
    cases h0
    simp only [decodeWords, (fields_FI16 _ _).1, formFI16_fields, BitVec.reduceEq, if_true, if_false]
  | waitUs n | waitMs n =>
    cases h0
    simp only [decodeWords, (fields_FI24 _ _).1, formFI24_fields, BitVec.reduceEq, if_true, if_false]
  | i2cRegRd off =>
    cases h0
    simp only [decodeWords, (fields_FREG _ _).1, formFREG_fields, BitVec.reduceEq, if_true, if_false]
  | i2cRegWr off value =>
    cases h0
    cases h1 value rfl
    simp only [decodeWords, (fields_FREG _ _).1, formFREG_fields, BitVec.reduceEq, if_true, if_false]
  | i2cStartRead slave reg buf len =>
    cases h0
    cases h1 buf rfl
    simp only [decodeWords, (fields_FRD _ _ _ _).1, formFRD_fields, BitVec.reduceEq, if_true, if_false]

/-- In the opcode map the rows of two words are those whose opcode says so (R90). -/
theorem hasSecondWord_of_row : ∀ row ∈ opcodeTable, hasSecondWord (opcode row.matchWord) = decide (row.words = 2) := by
  decide

/-- The opcode of an operation's first word says whether it has a second one. -/
theorem hasSecondWord_encode {i : Instr} {w0 : Word} (h0 : (encode i).head? = some w0) :
    hasSecondWord (opcode w0) = decide (i.words = 2) := by
  obtain ⟨-, row, hrow, -, hwords, hopc⟩ : Laws.FirstWord.Statement i := by
    cases i with
    | spiConfig freq mode width => exact Laws.FirstWord.spiConfig freq mode width
    | spiXfer w => exact Laws.FirstWord.spiXfer w
    | spiStart w => exact Laws.FirstWord.spiStart w
    | spiFinish => exact Laws.FirstWord.spiFinish
    | encSample => exact Laws.FirstWord.encSample
    | encStartSample => exact Laws.FirstWord.encStartSample
    | encFinishSample => exact Laws.FirstWord.encFinishSample
    | encSetFilterUs f => exact Laws.FirstWord.encSetFilterUs f
    | i2cRegRd off => exact Laws.FirstWord.i2cRegRd off
    | i2cRegWr off value => exact Laws.FirstWord.i2cRegWr off value
    | i2cStartRead slave reg buf len => exact Laws.FirstWord.i2cStartRead slave reg buf len
    | i2cPoll => exact Laws.FirstWord.i2cPoll
    | i2cCheckRead => exact Laws.FirstWord.i2cCheckRead
    | waitUs n => exact Laws.FirstWord.waitUs n
    | waitMs n => exact Laws.FirstWord.waitMs n
    | hostBns off => exact Laws.FirstWord.hostBns off
    | hostEnd => exact Laws.FirstWord.hostEnd
  rw [hopc w0 h0, hasSecondWord_of_row row hrow, hwords]

/-- A one-word command is read whatever follows it. -/
theorem decode_one_word {i : Instr} {w0 : Word} (rest : List Word) (h : ∀ w1, decodeWords w0 w1 = some i)
    (hshort : hasSecondWord (opcode w0) = false) : decode (w0 :: rest) = .ok i := by
  cases rest with
  | nil => simp only [decode, h, hshort, Bool.false_eq_true, if_false]
  | cons w1 rest => simp only [decode, h]

/-- A two-word command is read whatever follows it. -/
theorem decode_two_words {i : Instr} {w0 w1 : Word} (rest : List Word) (h : decodeWords w0 w1 = some i) :
    decode (w0 :: w1 :: rest) = .ok i := by
  simp only [decode, h]

/-- An operation has one word or two, as its length says. -/
theorem encode_eq_one_or_two (i : Instr) :
    (∃ w0, encode i = [w0] ∧ i.words = 1) ∨ ∃ w0 w1, encode i = [w0, w1] := by
  cases i with
  | spiConfig | i2cRegWr | i2cStartRead => exact .inr ⟨_, _, rfl⟩
  | _ => exact .inl ⟨_, rfl, rfl⟩

/-- Settles O1: the first word selects the operation's row and gives its operands back, and whether the second word is
read is what the opcode says. -/
theorem decodeOfEncodeGivesInstruction : Obligations.DecodeOfEncodeGivesInstruction := by
  intro i rest hwf
  rcases encode_eq_one_or_two i with ⟨w0, hw, hlen⟩ | ⟨w0, w1, hw⟩ <;> rw [hw]
  · have hshort : hasSecondWord (opcode w0) = false := by
      rw [hasSecondWord_encode (by rw [hw]; rfl), hlen]
      rfl
    exact decode_one_word rest (fun w1 => decodeWords_encode hwf (by rw [hw]; rfl) (by simp [hw])) hshort
  · exact decode_two_words rest (decodeWords_encode hwf (by rw [hw]; rfl) (by simp [hw]))

/-- Settles O3: each vector is the encoding of its operation, word for word. -/
theorem sampleWordsDecode : Obligations.SampleWordsDecode := by
  refine ⟨?_, ?_, ?_, ?_, ?_, ?_⟩
  · exact decodeOfEncodeGivesInstruction (.spiConfig 12000000#32 0#2 16) [] rfl
  · exact decodeOfEncodeGivesInstruction (.spiXfer 0xFFFF#16) [] rfl
  · exact decodeOfEncodeGivesInstruction (.encSetFilterUs 1000#16) [] rfl
  · exact decodeOfEncodeGivesInstruction (.i2cStartRead 0x50#7 0x10#8 0x100#32 2#8) [] rfl
  · exact decodeOfEncodeGivesInstruction (.hostBns 0xFFFE#16) [] rfl
  · exact decodeOfEncodeGivesInstruction (.waitMs 16777215#24) [] rfl

/-! The decoder as the opcode map, row by row. -/

/-- The words that a row selects are those of its opcode that its format reads, and what the format reads has the row's
mnemonic and length. -/
structure OpcodeRow.ReadBy (row : OpcodeRow) (opc : Byte) (form : Word → Option Instr) : Prop where
  selects : ∀ w0, row.selects w0 ↔ opcode w0 = opc ∧ form w0 ≠ none
  reads : ∀ w0 i, form w0 = some i → row.mnemonic = i.mnemonic ∧ row.words = i.words

/-- What is decoded of a word, for the rows of a part of the opcode map. -/
structure ReadsRows (rows : List OpcodeRow) (w0 : Word) (read : Option Instr) : Prop where
  none_iff : read = none ↔ ∀ row ∈ rows, ¬row.selects w0
  row_of_some : ∀ i, read = some i →
    ∃ row ∈ rows, row.selects w0 ∧ row.mnemonic = i.mnemonic ∧ row.words = i.words

theorem ReadsRows.nil (w0 : Word) : ReadsRows [] w0 none := by
  constructor <;> simp

/-- A row selects words of its own opcode alone: its mask keeps the whole opcode (R88). -/
theorem OpcodeRow.opcode_of_selects {row : OpcodeRow} (hmask : opcode row.mask = 0xFF#8) {w0 : Word}
    (h : row.selects w0) : opcode w0 = opcode row.matchWord := by
  have hand : opcode (w0 &&& row.mask) = opcode w0 &&& opcode row.mask := BitVec.extractLsb'_and
  rw [← h, hand, hmask]
  exact BitVec.and_allOnes.symm

/-- A row put before others of which none has its opcode. -/
theorem ReadsRows.cons {rows : List OpcodeRow} {w0 : Word} {read : Option Instr} (rest : ReadsRows rows w0 read)
    (row : OpcodeRow) {opc : Byte} {form : Word → Option Instr} (hrow : row.ReadBy opc form)
    (hother : ∀ r ∈ rows, opcode r.mask = 0xFF#8 ∧ opcode r.matchWord ≠ opc) :
    ReadsRows (row :: rows) w0 (if opcode w0 = opc then form w0 else read) := by
  by_cases hopc : opcode w0 = opc
  · have hsel : row.selects w0 ↔ form w0 ≠ none := by simp [hrow.selects, hopc]
    have hnone : ∀ r ∈ rows, ¬r.selects w0 := fun r hr hs =>
      (hother r hr).2 ((r.opcode_of_selects (hother r hr).1 hs).symm.trans hopc)
    rw [if_pos hopc]
    constructor
    · simpa [hsel] using fun _ => hnone
    · intro i hi
      exact ⟨row, List.mem_cons_self, hsel.2 (by simp [hi]), hrow.reads w0 i hi⟩
  · have hsel : ¬row.selects w0 := by simp [hrow.selects, hopc]
    rw [if_neg hopc]
    constructor
    · simpa [hsel] using rest.none_iff
    · intro i hi
      obtain ⟨r, hr, hreads⟩ := rest.row_of_some i hi
      exact ⟨r, List.mem_cons_of_mem _ hr, hreads⟩

theorem readBy_F0 {row : OpcodeRow} {opc : Byte} {i : Instr} (hmask : row.mask = 0xFFFFFFFF#32)
    (hmatch : row.matchWord = opc ++ 0#24) (hname : row.mnemonic = i.mnemonic) (hwords : row.words = i.words) :
    row.ReadBy opc (formF0 i) := by
  constructor
  · intro w0
    rw [OpcodeRow.selects, hmask, hmatch, masked_F0]
    simp [formF0]
  · intro w0 j hj
    obtain ⟨-, rfl⟩ : _ ∧ i = j := by simpa [formF0] using hj
    exact ⟨hname, hwords⟩

theorem readBy_FI16 {row : OpcodeRow} {opc : Byte} {mk : Half → Instr} (hmask : row.mask = 0xFFFF0000#32)
    (hmatch : row.matchWord = opc ++ 0#8 ++ 0#16) (hname : ∀ w, row.mnemonic = (mk w).mnemonic)
    (hwords : ∀ w, row.words = (mk w).words) : row.ReadBy opc (formFI16 mk) := by
  constructor
  · intro w0
    rw [OpcodeRow.selects, hmask, hmatch, masked_FI16]
    simp [formFI16]
  · intro w0 j hj
    obtain ⟨-, rfl⟩ : _ ∧ mk _ = j := by simpa [formFI16] using hj
    exact ⟨hname _, hwords _⟩

theorem readBy_FI24 {row : OpcodeRow} {opc : Byte} {mk : BitVec 24 → Instr} (hmask : row.mask = 0xFF000000#32)
    (hmatch : row.matchWord = opc ++ 0#24) (hname : ∀ n, row.mnemonic = (mk n).mnemonic)
    (hwords : ∀ n, row.words = (mk n).words) : row.ReadBy opc (formFI24 mk) := by
  constructor
  · intro w0
    rw [OpcodeRow.selects, hmask, hmatch, masked_FI24]
    simp [formFI24]
  · intro w0 j hj
    obtain rfl : mk _ = j := by simpa [formFI24] using hj
    exact ⟨hname _, hwords _⟩

theorem readBy_FREG {row : OpcodeRow} {opc : Byte} {mk : Byte → Instr} (hmask : row.mask = 0xFFFFFF00#32)
    (hmatch : row.matchWord = opc ++ 0#16 ++ 0#8) (hname : ∀ off, row.mnemonic = (mk off).mnemonic)
    (hwords : ∀ off, row.words = (mk off).words) : row.ReadBy opc (formFREG mk) := by
  constructor
  · intro w0
    rw [OpcodeRow.selects, hmask, hmatch, masked_FREG]
    simp [formFREG]
  · intro w0 j hj
    obtain ⟨-, rfl⟩ : _ ∧ mk _ = j := by simpa [formFREG] using hj
    exact ⟨hname _, hwords _⟩

theorem readBy_FRD {row : OpcodeRow} {opc : Byte} {mk : BitVec 7 → Byte → Byte → Instr}
    (hmask : row.mask = 0xFF800000#32) (hmatch : row.matchWord = opc ++ 0#1 ++ 0#23)
    (hname : ∀ a r l, row.mnemonic = (mk a r l).mnemonic) (hwords : ∀ a r l, row.words = (mk a r l).words) :
    row.ReadBy opc (formFRD mk) := by
  constructor
  · intro w0
    rw [OpcodeRow.selects, hmask, hmatch, masked_FRD]
    simp [formFRD]
  · intro w0 j hj
    obtain ⟨-, rfl⟩ : _ ∧ mk _ _ _ = j := by simpa [formFRD] using hj
    exact ⟨hname _ _ _, hwords _ _ _⟩

theorem readBy_FCFG {row : OpcodeRow} {opc : Byte} {mk : BitVec 2 → Nat → Instr}
    (hmask : row.mask = 0xFFFFE0FC#32) (hmatch : row.matchWord = opc ++ 0#11 ++ 0#5 ++ 0#6 ++ 0#2)
    (hname : ∀ m n, row.mnemonic = (mk m n).mnemonic) (hwords : ∀ m n, row.words = (mk m n).words) :
    row.ReadBy opc (formFCFG mk) := by
  constructor
  · intro w0
    rw [OpcodeRow.selects, hmask, hmatch, masked_FCFG]
    simp [formFCFG]
  · intro w0 j hj
    obtain ⟨-, rfl⟩ : _ ∧ mk _ _ = j := by simpa [formFCFG] using hj
    exact ⟨hname _ _, hwords _ _⟩

/-- The decoder reads the whole opcode map (R88), built from its last row to its first. -/
theorem decodeWords_reads (w0 w1 : Word) : ReadsRows opcodeTable w0 (decodeWords w0 w1) :=
  ReadsRows.nil w0
    |>.cons ⟨"HOST_END", 1, 0xFF000000#32, 0xFFFFFFFF#32⟩ (readBy_F0 rfl rfl rfl rfl) (by decide)
    |>.cons ⟨"HOST_BNS", 1, 0x50000000#32, 0xFFFF0000#32⟩
      (readBy_FI16 rfl rfl (fun _ => rfl) fun _ => rfl) (by decide)
    |>.cons ⟨"WAIT_MS", 1, 0x41000000#32, 0xFF000000#32⟩
      (readBy_FI24 rfl rfl (fun _ => rfl) fun _ => rfl) (by decide)
    |>.cons ⟨"WAIT_US", 1, 0x40000000#32, 0xFF000000#32⟩
      (readBy_FI24 rfl rfl (fun _ => rfl) fun _ => rfl) (by decide)
    |>.cons ⟨"I2C_CHECK_READ", 1, 0x32000000#32, 0xFFFFFFFF#32⟩ (readBy_F0 rfl rfl rfl rfl) (by decide)
    |>.cons ⟨"I2C_POLL", 1, 0x31000000#32, 0xFFFFFFFF#32⟩ (readBy_F0 rfl rfl rfl rfl) (by decide)
    |>.cons ⟨"I2C_START_READ", 2, 0x30000000#32, 0xFF800000#32⟩
      (readBy_FRD rfl rfl (fun _ _ _ => rfl) fun _ _ _ => rfl) (by decide)
    |>.cons ⟨"I2C_REG_WR", 2, 0x21000000#32, 0xFFFFFF00#32⟩
      (readBy_FREG rfl rfl (fun _ => rfl) fun _ => rfl) (by decide)
    |>.cons ⟨"I2C_REG_RD", 1, 0x20000000#32, 0xFFFFFF00#32⟩
      (readBy_FREG rfl rfl (fun _ => rfl) fun _ => rfl) (by decide)
    |>.cons ⟨"ENC_SET_FILTER_US", 1, 0x13000000#32, 0xFFFF0000#32⟩
      (readBy_FI16 rfl rfl (fun _ => rfl) fun _ => rfl) (by decide)
    |>.cons ⟨"ENC_FINISH_SAMPLE", 1, 0x12000000#32, 0xFFFFFFFF#32⟩ (readBy_F0 rfl rfl rfl rfl) (by decide)
    |>.cons ⟨"ENC_START_SAMPLE", 1, 0x11000000#32, 0xFFFFFFFF#32⟩ (readBy_F0 rfl rfl rfl rfl) (by decide)
    |>.cons ⟨"ENC_SAMPLE", 1, 0x10000000#32, 0xFFFFFFFF#32⟩ (readBy_F0 rfl rfl rfl rfl) (by decide)
    |>.cons ⟨"SPI_FINISH", 1, 0x04000000#32, 0xFFFFFFFF#32⟩ (readBy_F0 rfl rfl rfl rfl) (by decide)
    |>.cons ⟨"SPI_START", 1, 0x03000000#32, 0xFFFF0000#32⟩
      (readBy_FI16 rfl rfl (fun _ => rfl) fun _ => rfl) (by decide)
    |>.cons ⟨"SPI_XFER", 1, 0x02000000#32, 0xFFFF0000#32⟩
      (readBy_FI16 rfl rfl (fun _ => rfl) fun _ => rfl) (by decide)
    |>.cons ⟨"SPI_CONFIG", 2, 0x01000000#32, 0xFFFFE0FC#32⟩
      (readBy_FCFG rfl rfl (fun _ _ => rfl) fun _ _ => rfl) (by decide)

/-- Settles O2: what the decoder reads of the whole opcode map. -/
theorem decodeFollowsOpcodeTable : Obligations.DecodeFollowsOpcodeTable := fun w0 w1 =>
  ⟨(decodeWords_reads w0 w1).none_iff, (decodeWords_reads w0 w1).row_of_some⟩

end Sys2Proof
end

section
/-! Fetching and the schedule (spec/44_host_program.md R255, R256, R258, log 2, log 4): where no command can be fetched, and
which agent's step the machine's step is. -/

namespace Sys2Proof.Machine

/-! Commands that cannot be fetched. -/

/-- No word is read beyond the program (R255). -/
theorem fetch_error_of_beyond {s : State} (h : s.host.prog.length ≤ s.host.pc.toNat) : ∃ e, fetch s = .error e := by
  rw [fetch, List.drop_eq_nil_of_le h]
  exact ⟨_, rfl⟩

/-- The words from the `pc` on begin with the one at the `pc`. -/
theorem drop_pc_eq_cons {s : State} {w0 : Word} (h : s.host.prog[s.host.pc.toNat]? = some w0) :
    s.host.prog.drop s.host.pc.toNat = w0 :: s.host.prog.drop (s.host.pc.toNat + 1) := by
  obtain ⟨hlt, rfl⟩ := List.getElem?_eq_some_iff.1 h
  exact List.drop_eq_getElem_cons hlt

/-- A word that no row selects is not read, whatever follows it (R89). -/
theorem fetch_error_of_illegal {s : State} {w0 : Word} (hw : s.host.prog[s.host.pc.toNat]? = some w0)
    (hrows : ∀ row ∈ opcodeTable, ¬row.selects w0) : ∃ e, fetch s = .error e := by
  have hnone (w1 : Word) : decodeWords w0 w1 = none := (decodeWords_reads w0 w1).none_iff.2 hrows
  rw [fetch, drop_pc_eq_cons hw]
  cases s.host.prog.drop (s.host.pc.toNat + 1) with
  | nil => simp only [decode, hnone, Except.error.injEq, exists_eq']
  | cons w1 rest => simp only [decode, hnone, Except.error.injEq, exists_eq']

/-- A two-word command at the end of the program is not read (R255). -/
theorem fetch_error_of_missing {s : State} {w0 : Word} {row : OpcodeRow} (hw : s.host.prog[s.host.pc.toNat]? = some w0)
    (hrow : row ∈ opcodeTable) (hsel : row.selects w0) (htwo : row.words = 2)
    (hend : s.host.prog.length ≤ s.host.pc.toNat + 1) : ∃ e, fetch s = .error e := by
  have hmask : ∀ r ∈ opcodeTable, opcode r.mask = 0xFF#8 := by decide
  have hlong : hasSecondWord (opcode w0) = true := by
    rw [row.opcode_of_selects (hmask row hrow) hsel, hasSecondWord_of_row row hrow, htwo]
    rfl
  rw [fetch, drop_pc_eq_cons hw, List.drop_eq_nil_of_le hend]
  cases hread : decodeWords w0 0#32 with
  | none => simp only [decode, hread, Except.error.injEq, exists_eq']
  | some i => simp only [decode, hread, hlong, if_true, Except.error.injEq, exists_eq']

/-! The host's step. -/

/-- Where no command can be fetched the host has a step, the refusal. -/
theorem hostStep_of_fetch_error {s : State} {x : DecodeError} (h : fetch s = .error x) :
    agentStep .host s = .next (s.refuse .illegal) := by
  simp only [agentStep, hostStep, h]

theorem enabled_host_of_fetch_error {s : State} {x : DecodeError} (hended : s.host.ended = false)
    (h : fetch s = .error x) : enabled s .host = true := by
  simp only [enabled, hostEnabled, hended, h, Bool.not_false, Bool.and_self]

/-- Where a command is fetched the host's step is its execution. -/
theorem hostStep_of_fetch_ok {s : State} {i : Instr} (h : fetch s = .ok i) : agentStep .host s = exec i s := by
  simp only [agentStep, hostStep, h]

theorem enabled_host_of_fetch_ok {s : State} {i : Instr} (h : fetch s = .ok i) :
    enabled s .host = (!s.host.ended && !held i s) := by
  simp only [enabled, hostEnabled, h]

/-! The machine's step. -/

/-- An operation is one of the SPI side, one of the I2C side, a wait, the branch or the end (R88). -/
theorem instr_side_cases (i : Instr) :
    isSpiOp i = true ∨ isI2cOp i = true ∨ (∃ n, i = .waitUs n) ∨ (∃ n, i = .waitMs n) ∨ (∃ off, i = .hostBns off) ∨
      i = .hostEnd := by
  cases i <;> simp [isSpiOp, isI2cOp]

/-- Every operation answers a next state. -/
theorem exec_answers (i : Instr) (s : State) : ∃ s', exec i s = .next s' := by
  rcases instr_side_cases i with hi | hi | ⟨n, rfl⟩ | ⟨n, rfl⟩ | ⟨off, rfl⟩ | rfl
  · obtain ⟨s', hs', -⟩ := opIgnoresI2cSide_of_isSpiOp hi s s
    exact ⟨s', hs'⟩
  · obtain ⟨s', hs', -⟩ := opIgnoresSpiSide_of_isI2cOp hi s s
    exact ⟨s', hs'⟩
  · exact ⟨_, rfl⟩
  · exact ⟨_, rfl⟩
  · by_cases hr : s.host.r = 0#32
    · exact ⟨_, exec_hostBns_of_zero off hr⟩
    · exact ⟨_, exec_hostBns_of_ne_zero off hr⟩
  · exact ⟨_, rfl⟩

/-- Every agent's step answers a next state. -/
theorem agentStep_answers (a : Agent) (s : State) : ∃ s', agentStep a s = .next s' := by
  cases a with
  | host =>
    rcases hostStep_cases s with ⟨x, -, h⟩ | ⟨i, -, h⟩
    · exact ⟨_, h⟩
    · obtain ⟨s', hs'⟩ := exec_answers i s
      exact ⟨s', h.trans hs'⟩
  | spiEngine | i2cEngine | i2cSlave => exact ⟨_, rfl⟩

/-- A state without a mark. -/
theorem State.running_iff {s : State} : s.running = true ↔ s.faults = [] ∧ s.refused = false ∧ s.enc.fatal = false := by
  simp [State.running, and_assoc]

/-- In an unmarked state the step is that of the agent whose turn is picked. -/
theorem step_of_pick {s t : State} {a : Agent} (hrun : s.running = true) (hpick : pick s = some (a, t)) :
    step s = agentStep a t := by
  obtain ⟨hfaults, hrefused, hfatal⟩ := State.running_iff.1 hrun
  simp only [step, hfaults, hrefused, hfatal, hpick, List.isEmpty_nil, Bool.not_true, Bool.or_self,
    Bool.false_eq_true, if_false]

/-- In an unmarked state in which no agent is picked the machine stops by name (log 4). -/
theorem step_of_pick_none {s : State} (hrun : s.running = true) (hpick : pick s = none) :
    step s = .fault (if s.host.ended then .ended else .stuck) := by
  obtain ⟨hfaults, hrefused, hfatal⟩ := State.running_iff.1 hrun
  simp only [step, hfaults, hrefused, hfatal, hpick, List.isEmpty_nil, Bool.not_true, Bool.or_self,
    Bool.false_eq_true, if_false]
  split <;> rfl

/-- A turn fixed in advance of an agent that has a step is taken and used up (log 2). -/
theorem step_of_turn {s : State} {a : Agent} {rest : List Agent} (hrun : s.running = true)
    (hsched : s.env.sched = a :: rest) (ha : enabled s a = true) :
    step s = agentStep a { s with env := { s.env with sched := rest } } := by
  apply step_of_pick hrun
  simp only [pick, hsched, enabled_env, ha, if_true]

/-- Settles O4: each of the three ways leaves nothing to fetch, and the refusal is the host's step. -/
theorem unfetchableCommandIsRefused : Obligations.UnfetchableCommandIsRefused := by
  intro s hended hways
  obtain ⟨x, hx⟩ : ∃ x, fetch s = .error x := by
    rcases hways with hpc | ⟨w0, hw, hrows⟩ | ⟨w0, hw, ⟨row, hrow, hsel, htwo⟩, hend⟩
    · exact fetch_error_of_beyond hpc
    · exact fetch_error_of_illegal hw hrows
    · exact fetch_error_of_missing hw hrow hsel htwo hend
  have hen := enabled_host_of_fetch_error hended hx
  refine ⟨hen, hostStep_of_fetch_error hx, fun rest hrun hsched => ?_⟩
  rw [step_of_turn hrun hsched hen]
  exact hostStep_of_fetch_error (s := { s with env := { s.env with sched := rest } }) hx

/-- Settles O5: the fetched operation is the host's step, a turn fixed in advance is taken, every step is some agent's,
and the machine stops only where the pick finds no agent. -/
theorem stepRunsDecodedInstruction : Obligations.StepRunsDecodedInstruction := by
  refine ⟨?_, fun s a rest => step_of_turn, fun s s' => moves_of_step, ?_, ?_⟩
  · intro s i hended hdecode hheld
    have hfetch : fetch s = .ok i := hdecode
    have hen : enabled s .host = true := by simp [enabled_host_of_fetch_ok hfetch, hended, hheld]
    refine ⟨hen, hostStep_of_fetch_ok hfetch, fun rest hrun hsched => ?_⟩
    rw [step_of_turn hrun hsched hen]
    exact hostStep_of_fetch_ok (s := { s with env := { s.env with sched := rest } }) hfetch
  · intro s a hrun ha
    rcases pick_cases s with ⟨-, hnone⟩ | ⟨b, e, hpick, -⟩
    · exact absurd ha (by simp [hnone a])
    · obtain ⟨s', hs'⟩ := agentStep_answers b { s with env := e }
      exact ⟨s', (step_of_pick hrun hpick).trans hs'⟩
  · intro s hrun hnone
    rcases pick_cases s with ⟨hpick, -⟩ | ⟨b, e, -, hb⟩
    · exact step_of_pick_none hrun hpick
    · exact absurd hb (by simp [hnone b])

end Sys2Proof.Machine
end

section
/-! What an operation can do, said once. The execution of an operation (one host step of it, spec/44_host_program.md R256)
is a chain of effects, none of which touches the host's registers or the marks, and one end: it goes on or holds, it
answers and moves on, or it sets a mark. What every effect and every end keeps, every operation keeps. -/

namespace Sys2Proof.Machine

/-! The relations. -/

/-- The steps of the filter sequence that rest on `enc.desired_value` (spec/41_encoder_link.md R149, R150). -/
def FilterStep.Writes (p : FilterStep) : Prop := p = .wrCmd ∨ p = .commit ∨ p = .verify

/-- One effect of an operation, before its end. -/
inductive Effect (i : Instr) (s : State) : State → Prop
  /-- The one admitted configuration is stored (spec/40_spi_transactor.md R110). -/
  | configure (hidle : s.spi.phase = .idle) (hpending : s.spi.pending = false) :
      Effect i s { s with spi := { s.spi with
        freqReq := some fSclkReq, mode := some spiMode, width := some (BitVec.ofNat 5 spiWidth), configured := true,
        sclk := false, csN := true } }
  /-- A frame is begun, by a split start or not (R111, R113). -/
  | load (w : Half) (tFall : Nat) (v : Half) (split : Bool) (hcheck : frameCheck s = none)
      (hgap : max s.t (s.spi.tCsRise + Config.tCsIdle) ≤ tFall) :
      Effect i s { s.pop.pop with
        t := tFall, spi := { s.spi.loaded w tFall with pending := split },
        traceSpi := s.traceSpi ++ [⟨tFall, .csFall⟩], dev := { s.dev with out := some v } }
  /-- The word of a frame that has ended is taken (R112, R114). -/
  | take (pending : Bool) (hpending : pending = false) (hready : frameReady s = true) :
      Effect i s { s with spi := { s.spi with done := false, pending := pending } }
  /-- The filter sequence moves on, with what its new step reads (spec/10_state.md R25, R26). -/
  | sequence (u : EncLink) (hfatal : u.fatal = s.enc.fatal) (hdecide : u.fs = .decide → u.current.isSome)
      (hwrites : u.fs.Writes → u.desired.isSome ∨ (u.desired = s.enc.desired ∧ s.enc.fs.Writes)) :
      Effect i s { s with enc := u }
  /-- Time passes. -/
  | wait (least : Nat) : Effect i s (s.elapse least)
  /-- An admitted write of `CR2` (spec/42_i2c_transactor.md R173). -/
  | cr2 (v : Word) (hcheck : cr2WriteCheck v s = none) : Effect i s { s with i2c := { s.i2c with cr2 := v } }
  /-- A write of `ICR` (R176). -/
  | icr (v : Word) : Effect i s (writeIcr v s)
  /-- A write of `TXDR` (R178). -/
  | txdr (b : Byte) : Effect i s { s with i2c := { s.i2c with txdr := b, isr := s.i2c.isr.txdrWritten } }
  /-- A read of `RXDR` (R180). -/
  | rxdr : Effect i s { s with i2c := { s.i2c with isr := s.i2c.isr.rxdrRead } }
  /-- The reader finds the bus busy (spec/43_i2c_reader.md R224). -/
  | busBusy : Effect i s { s with rd := { s.rd with state := .error, cause := .busBusy } }
  /-- The reader's registers are written; it starts (R225). -/
  | started (slave : BitVec 7) (reg : Byte) (buf : Word) (len : Byte) (hlen : len ≠ 0#8) (hidle : s.rd.state = .idle) :
      Effect i s { s with rd := { s.rd with
        slave := some slave, reg := some reg, buf := some buf, len := some len, state := .sentRegister } }
  /-- The reader's read phase is programmed; it reads (R227). -/
  | reading (hsent : s.rd.state = .sentRegister) :
      Effect i s { s with rd := { s.rd with offset := some 0, state := .readingData } }
  /-- The reader stores and counts a byte (R228). -/
  | stored (buf : Word) (len : Byte) (o : Nat) (b : Byte) (hi : i = .i2cPoll) (hreading : s.rd.state = .readingData)
      (hbuf : s.rd.buf = some buf) (hlen : s.rd.len = some len) (ho : s.rd.offset = some o) :
      Effect i s { s with
        mem := s.mem.write (buf.toNat + o) b
        rd := { s.rd with offset := some (o + 1), state := if o + 1 = len.toNat then .complete else .readingData } }
  /-- The reader sees a NACK (R230). -/
  | nacked : Effect i s { s with rd := { s.rd with state := .error, cause := .nack } }
  /-- The reader is released (R231). -/
  | released : Effect i s s.releaseReader

/-- The operations that answer in `host.r` (spec/44_host_program.md R257). -/
def AnswersInR (i : Instr) : Prop :=
  (∃ w, i = .spiXfer w) ∨ i = .spiFinish ∨ i = .encSample ∨ i = .encFinishSample ∨ (∃ off, i = .i2cRegRd off) ∨
    i = .i2cCheckRead

/-- An element that an operation reads in this state holds no value (spec/10_state.md R43). -/
inductive Misses (s : State) : Prop
  | result (hready : frameReady s = true) (h : s.spi.result = none)
  | current (hfs : s.enc.fs = .decide) (h : s.enc.current = none)
  | desired (hfs : s.enc.fs = .verify) (h : s.enc.desired = none)
  | sent (hsent : s.rd.state = .sentRegister) (h : s.rd.slave = none ∨ s.rd.len = none)
  | reading (hreading : s.rd.state = .readingData) (h : s.rd.buf = none ∨ s.rd.len = none ∨ s.rd.offset = none)

/-- The end of an operation's step. -/
inductive Ends (i : Instr) (s : State) : State → Prop
  /-- It is not finished: it holds, or goes on in a later step (R256). -/
  | stay : Ends i s s
  /-- It is finished. -/
  | advance (hend : i ≠ .hostEnd) : Ends i s (s.advance i.words)
  /-- It is finished, with an answer. -/
  | answer (v : Word) (hend : i ≠ .hostEnd) (hi : AnswersInR i) : Ends i s ((s.setR v).advance i.words)
  /-- The branch is taken (R253). -/
  | branch (off : Half) (hi : i = .hostBns off) :
      Ends i s { s with host := { s.host with pc := branchTarget s.host.pc off } }
  /-- The program ends (R254). -/
  | ended : Ends i s { s with host := { s.host with ended := true } }
  /-- A frame cannot be begun or finished (spec/60_exceptions.md R274). -/
  | fault (c : FaultCode) (hc : c = .spiContract ∨ c = .spiUnconfig) : Ends i s (s.raise c)
  /-- An element without a value is read (spec/10_state.md R43). -/
  | unwritten (h : Misses s) : Ends i s (s.raise .unwritten)
  /-- The filter verification fails (spec/41_encoder_link.md R153). -/
  | verifyFail : Ends i s s.raiseVerifyFail
  /-- It is refused (spec/60_exceptions.md R278). -/
  | refuse (c : RefusalCode) : Ends i s (s.refuse c)

/-- The execution of an operation: effects, and then its end. -/
inductive Executes (i : Instr) : State → State → Prop
  | ends {s s' : State} (h : Ends i s s') : Executes i s s'
  | after {s t s' : State} (h : Effect i s t) (rest : Executes i t s') : Executes i s s'

/-- What every effect of an operation keeps still holds where the operation ends. -/
theorem Executes.last {i : Instr} {P : State → Prop} {s s' : State} (h : Executes i s s')
    (heffect : ∀ s t, Effect i s t → P s → P t) (hs : P s) : ∃ t, P t ∧ Ends i t s' := by
  induction h with
  | ends h => exact ⟨_, hs, h⟩
  | after h _ ih => exact ih (heffect _ _ h hs)

/-- What every effect and every end of an operation keeps, its execution keeps. -/
theorem Executes.keeps {i : Instr} {P : State → Prop} {s s' : State} (h : Executes i s s')
    (heffect : ∀ s t, Effect i s t → P s → P t) (hends : ∀ s t, Ends i s t → P s → P t) (hs : P s) : P s' := by
  obtain ⟨t, ht, hend⟩ := h.last heffect hs
  exact hends t s' hend ht

/-! The SPI side. -/

section
variable {i : Instr} {s : State}

/-- A frame check that does not pass ends the operation with its fault. -/
theorem Ends.of_frameCheck {c : FaultCode} (hc : frameCheck s = some c) : Ends i s (s.raise c) := by
  rcases frameCheck_eq_some hc with ⟨rfl, -⟩ | ⟨rfl, -⟩
  · exact .fault _ (.inr rfl)
  · exact .fault _ (.inl rfl)

theorem beginFrame_executes (w : Half) : Executes i s (beginFrame w s) := by
  rcases beginFrame_cases w s with ⟨c, hc, h⟩ | ⟨hcheck, h⟩ <;> rw [h]
  · exact .ends (.of_frameCheck hc)
  · obtain ⟨tFall, v, hgap, hstart⟩ := startFrame_spec s
    have heffect : Effect i s (startFrame w s) := by
      have hload := Effect.load (i := i) w tFall v s.spi.pending hcheck hgap
      rw [hstart w]
      exact hload
    exact .after heffect (.ends .stay)

theorem splitStart_executes (w : Half) (hi : i.words = 1) (hend : i ≠ .hostEnd) : Executes i s (splitStart w s) := by
  rcases splitStart_cases w s with ⟨c, hc, h⟩ | ⟨hcheck, h⟩ <;> rw [h]
  · exact .ends (.of_frameCheck hc)
  · obtain ⟨tFall, v, hgap, hstart⟩ := startFrame_spec s
    rw [hstart w, ← hi]
    exact .after (.load w tFall v true hcheck hgap) (.ends (.advance hend))

/-- A blocking transfer, and then what the operation makes of its word. -/
theorem spiTransfer_executes (w : Half) (k : Half → State → State)
    (hk : ∀ v t, t.enc = s.enc → Executes i t (k v t)) : Executes i s (spiTransfer w k s) := by
  rcases spiTransfer_cases w k s with ⟨-, h⟩ | ⟨-, -, h⟩ | ⟨-, hready, hnone, h⟩ | ⟨hprogress, hready, v, -, h⟩ <;> rw [h]
  · exact beginFrame_executes w
  · exact .ends .stay
  · exact .ends (.unwritten (.result hready hnone))
  · have hpending : s.spi.pending = false := by
      simpa using (Bool.and_eq_true_iff.1 hprogress).1
    exact .after (.take s.spi.pending hpending hready) (hk v _ rfl)

theorem returnWord_executes (v : Half) (hi : i.words = 1) (hend : i ≠ .hostEnd) (hanswers : AnswersInR i) :
    Executes i s (returnWord v s) := by
  rw [returnWord, ← hi]
  exact .ends (.answer _ hend hanswers)

theorem splitFinish_executes (hi : i.words = 1) (hend : i ≠ .hostEnd) (hanswers : AnswersInR i) :
    Executes i s (splitFinish s) := by
  rcases splitFinish_cases s with ⟨-, h⟩ | ⟨-, -, h⟩ | ⟨-, hready, hnone, h⟩ | ⟨-, hready, v, -, h⟩ <;> rw [h]
  · exact .ends (.fault _ (.inl rfl))
  · exact .ends .stay
  · exact .ends (.unwritten (.result hready hnone))
  · exact .after (.take false rfl hready) (returnWord_executes v hi hend hanswers)

theorem spiConfig_executes (freq : Word) (mode : BitVec 2) (width : Nat) {s' : State}
    (h : exec (.spiConfig freq mode width) s = .next s') : Executes (.spiConfig freq mode width) s s' := by
  cases h
  split
  · exact .ends (.fault _ (.inl rfl))
  · next hfree =>
    split
    · exact .ends (.refuse _)
    · next hop =>
      simp only [Bool.or_eq_true, bne_iff_ne, ne_eq, not_or, not_not, Bool.not_eq_true] at hfree hop
      obtain ⟨⟨rfl, rfl⟩, rfl⟩ := hop
      exact .after (.configure hfree.1 hfree.2) (.ends (.advance (by simp)))

/-! The filter sequence. -/

/-- The sequence enters a step that reads no value of it. -/
theorem Effect.setFs (p : FilterStep) (hdecide : p ≠ .decide) (hwrites : p.Writes → s.enc.fs.Writes) :
    Effect i s (s.setFs p) :=
  .sequence _ rfl (fun h => absurd h hdecide) fun h => .inr ⟨rfl, hwrites h⟩

theorem filterEnd_executes (hi : i.words = 1) (hend : i ≠ .hostEnd) : Executes i s (filterEnd s) := by
  rw [filterEnd, ← hi]
  exact .after (.setFs .none (by simp) (by simp [FilterStep.Writes])) (.ends (.advance hend))

theorem filterDecide_executes (f : Half) (hfs : s.enc.fs = .decide) (hi : i.words = 1) (hend : i ≠ .hostEnd) :
    Executes i s (filterDecide f s) := by
  unfold filterDecide
  split
  · next hnone => exact .ends (.unwritten (.current hfs hnone))
  · next cur hcur =>
    have hdesired : Effect i s { s with enc := { s.enc with desired := some (filterCode f) } } :=
      .sequence _ rfl (fun _ => by simp [hcur]) fun _ => .inl rfl
    dsimp only
    split
    · exact .after hdesired (filterEnd_executes hi hend)
    · refine .after ?_ (beginFrame_executes _)
      exact .sequence _ rfl (by simp) fun _ => .inl rfl

theorem filterReadBack_executes (f v : Half) (hi : i.words = 1) (hend : i ≠ .hostEnd) :
    Executes i s (filterReadBack f v s) :=
  .after
    (.sequence { s.enc with current := some (upperByte v), fs := .decide } rfl (fun _ => rfl) (by simp [FilterStep.Writes]))
    (filterDecide_executes f rfl hi hend)

theorem filterVerify_executes (v : Half) (hfs : s.enc.fs = .verify) (hi : i.words = 1) (hend : i ≠ .hostEnd) :
    Executes i s (filterVerify v s) := by
  unfold filterVerify
  split
  · next hnone => exact .ends (.unwritten (.desired hfs hnone))
  · next d hd =>
    have hfinal : Effect i s { s with enc := { s.enc with final := some (upperByte v) } } :=
      .sequence _ rfl (fun h => by simp [hfs] at h) fun h => .inr ⟨rfl, h⟩
    dsimp only
    split
    · exact .after hfinal (filterEnd_executes hi hend)
    · exact .after hfinal (.ends .verifyFail)

theorem filterStep_executes (f : Half) (hi : i.words = 1) (hend : i ≠ .hostEnd) : Executes i s (filterStep f s) := by
  unfold filterStep
  split
  · exact .after
      (.sequence { s.enc with fs := .rdCmd, current := none, desired := none, final := none } rfl (by simp)
        (by simp [FilterStep.Writes]))
      (beginFrame_executes _)
  · exact spiTransfer_executes _ _ fun v t _ => .after (.setFs .turn (by simp) (by simp [FilterStep.Writes])) (.ends .stay)
  · exact .after (.wait _) (.after (.setFs .rdBack (by simp) (by simp [FilterStep.Writes])) (.ends .stay))
  · exact spiTransfer_executes _ _ fun v t _ => filterReadBack_executes f v hi hend
  · next hfs => exact filterDecide_executes f hfs hi hend
  · next hfs =>
    refine spiTransfer_executes _ _ fun v t ht => .after (.setFs .commit (by simp) fun _ => ?_) (.ends .stay)
    exact .inl (ht ▸ hfs)
  · next hfs =>
    refine .after (.wait _) (.after (.setFs .verify (by simp) fun _ => ?_) (.ends .stay))
    exact .inr (.inl hfs)
  · next hfs => exact spiTransfer_executes _ _ fun v t ht => filterVerify_executes v (ht ▸ hfs) hi hend

/-! The I2C side. -/

theorem i2cRegRd_executes (off : Byte) {s' : State} (h : exec (.i2cRegRd off) s = .next s') :
    Executes (.i2cRegRd off) s s' := by
  simp only [exec, execI2cRegRd] at h
  split at h <;> cases h
  · exact .ends (.refuse _)
  · next v t hread =>
    have hanswer : Ends (.i2cRegRd off) t ((t.setR v).advance 1) :=
      .answer v (by simp) (.inr (.inr (.inr (.inr (.inl ⟨off, rfl⟩)))))
    rcases regRead_eq_ok hread with rfl | ⟨-, rfl⟩
    · exact .ends hanswer
    · exact .after .rxdr (.ends hanswer)

theorem i2cRegWr_executes (off : Byte) (value : Word) {s' : State} (h : exec (.i2cRegWr off value) s = .next s') :
    Executes (.i2cRegWr off value) s s' := by
  simp only [exec, execI2cRegWr] at h
  split at h <;> cases h
  · exact .ends (.refuse _)
  · next t hwrite =>
    have hadvance : Ends (.i2cRegWr off value) t (t.advance 2) := .advance (by simp)
    rcases regWrite_eq_ok hwrite with ⟨-, hcheck, rfl⟩ | ⟨-, rfl⟩ | ⟨-, -, rfl⟩
    · exact .after (.cr2 value hcheck) (.ends hadvance)
    · exact .after (.icr value) (.ends hadvance)
    · exact .after (.txdr _) (.ends hadvance)

theorem i2cStartRead_executes (slave : BitVec 7) (reg : Byte) (buf : Word) (len : Byte) {s' : State}
    (h : exec (.i2cStartRead slave reg buf len) s = .next s') : Executes (.i2cStartRead slave reg buf len) s s' := by
  have hadvance (t : State) : Ends (.i2cStartRead slave reg buf len) t (t.advance 2) := .advance (by simp)
  simp only [exec, execI2cStartRead] at h
  split at h
  · cases h
    exact .ends (.refuse _)
  · next hlen =>
    split at h
    · cases h
      exact .ends (hadvance s)
    · next hidle =>
      rw [ne_eq, not_not] at hidle
      split at h
      · cases h
        exact .after .busBusy (.ends (hadvance _))
      · split at h <;> cases h
        · exact .ends (.refuse _)
        · next hstart =>
          obtain ⟨hcheck, rfl⟩ := startTransaction_eq_ok hstart
          exact .after (.cr2 _ hcheck) (.after (.txdr reg) (.after (.started slave reg buf len hlen hidle)
            (.ends (hadvance _))))

/-- A `Poll` that cannot act refuses its `CR2` write, or reads an operand that nothing has written. -/
theorem pollAction_eq_error {f : IsrFlags} {h : Halt} (herr : pollAction f s = .error h) :
    (∃ c, h = .refuse c) ∨ (h = .fault .unwritten ∧ Misses s) := by
  unfold pollAction at herr
  split at herr
  · next hsent =>
    split at herr
    · unfold pollSentRegister Reader.slaveVal Reader.lenVal at herr
      simp only [hsent, reduceCtorEq, if_false] at herr
      split at herr
      · split at herr <;> cases herr
        exact .inl ⟨_, rfl⟩
      · next hmiss =>
        cases herr
        refine .inr ⟨rfl, .sent hsent ?_⟩
        cases hslave : s.rd.slave with
        | none => exact .inl rfl
        | some slave =>
          cases hlen : s.rd.len with
          | none => exact .inr rfl
          | some len => exact (hmiss slave len hslave hlen).elim
    · cases herr
  · next hreading =>
    split at herr
    · unfold pollReadingData Reader.bufVal Reader.lenVal Reader.offsetVal at herr
      simp only [hreading, reduceCtorEq, if_false] at herr
      split at herr
      · cases herr
      · next hmiss =>
        cases herr
        refine .inr ⟨rfl, .reading hreading ?_⟩
        cases hbuf : s.rd.buf with
        | none => exact .inl rfl
        | some buf =>
          cases hlen : s.rd.len with
          | none => exact .inr (.inl rfl)
          | some len =>
            cases ho : s.rd.offset with
            | none => exact .inr (.inr rfl)
            | some o => exact (hmiss buf len o hbuf hlen ho).elim
    · cases herr
  all_goals cases herr

/-- The NACK override and the end of a `Poll`, after its action. -/
theorem pollNack_executes (f : IsrFlags) : Executes .i2cPoll s ((pollNack f s).advance 1) := by
  have hadvance (t : State) : Ends .i2cPoll t (t.advance 1) := .advance (by simp)
  unfold pollNack
  split
  · exact .after (.icr icrNackcf) (.after .nacked (.ends (hadvance _)))
  · exact .ends (hadvance s)

theorem i2cPoll_executes {s' : State} (h : exec .i2cPoll s = .next s') : Executes .i2cPoll s s' := by
  simp only [exec, execI2cPoll] at h
  split at h
  · cases h
    exact .ends .stay
  · split at h <;> cases h
    · next herr =>
      rcases pollAction_eq_error herr with ⟨c, rfl⟩ | ⟨rfl, hmiss⟩
      · exact .ends (.refuse c)
      · exact .ends (.unwritten hmiss)
    · next haction =>
      rcases pollAction_eq_ok haction with rfl | ⟨hsent, -, slave, len, -, -, hcheck, rfl⟩ |
        ⟨hreading, -, buf, len, o, hbuf, hlen, ho, rfl⟩
      · exact pollNack_executes _
      · exact .after (.cr2 _ hcheck) (.after (.reading hsent) (pollNack_executes _))
      · exact .after .rxdr (.after (.stored buf len o _ rfl hreading hbuf hlen ho) (pollNack_executes _))

theorem i2cCheckRead_executes {s' : State} (h : exec .i2cCheckRead s = .next s') : Executes .i2cCheckRead s s' := by
  have hanswer (t : State) (v : Word) : Ends .i2cCheckRead t ((t.setR v).advance 1) :=
    .answer v (by simp) (.inr (.inr (.inr (.inr (.inr rfl)))))
  by_cases hcomplete : s.rd.state = .complete
  · cases (exec_i2cCheckRead_of_complete hcomplete).symm.trans h
    exact .after .released (.ends (hanswer _ _))
  · by_cases herror : s.rd.state = .error
    · cases (exec_i2cCheckRead_of_error herror).symm.trans h
      exact .after .released (.ends (hanswer _ _))
    · cases (exec_i2cCheckRead_of_not_terminal hcomplete herror).symm.trans h
      exact .ends (hanswer _ _)

end

/-! Every operation. -/

theorem hostBns_executes (off : Half) {s s' : State} (h : exec (.hostBns off) s = .next s') :
    Executes (.hostBns off) s s' := by
  by_cases hr : s.host.r = 0#32
  · cases (exec_hostBns_of_zero off hr).symm.trans h
    exact .ends (.branch off rfl)
  · cases (exec_hostBns_of_ne_zero off hr).symm.trans h
    exact .ends (.advance (by simp))

/-- The execution of an operation is a chain of effects and one end. -/
theorem exec_executes {i : Instr} {s s' : State} (h : exec i s = .next s') : Executes i s s' := by
  have hxfer {i : Instr} (w : Half) (hi : i.words = 1) (hend : i ≠ .hostEnd) (hanswers : AnswersInR i) :
      Executes i s (spiTransfer w returnWord s) :=
    spiTransfer_executes w _ fun v _ _ => returnWord_executes v hi hend hanswers
  cases i with
  | spiConfig freq mode width => exact spiConfig_executes freq mode width h
  | spiXfer w => cases h; exact hxfer w rfl (by simp) (.inl ⟨w, rfl⟩)
  | spiStart w => cases h; exact splitStart_executes w rfl (by simp)
  | spiFinish => cases h; exact splitFinish_executes rfl (by simp) (.inr (.inl rfl))
  | encSample => cases h; exact hxfer wNop rfl (by simp) (.inr (.inr (.inl rfl)))
  | encStartSample => cases h; exact splitStart_executes wNop rfl (by simp)
  | encFinishSample => cases h; exact splitFinish_executes rfl (by simp) (.inr (.inr (.inr (.inl rfl))))
  | encSetFilterUs f => cases h; exact filterStep_executes f rfl (by simp)
  | i2cRegRd off => exact i2cRegRd_executes off h
  | i2cRegWr off value => exact i2cRegWr_executes off value h
  | i2cStartRead slave reg buf len => exact i2cStartRead_executes slave reg buf len h
  | i2cPoll => exact i2cPoll_executes h
  | i2cCheckRead => exact i2cCheckRead_executes h
  | waitUs n => cases h; exact .after (.wait _) (.ends (.advance (by simp)))
  | waitMs n => cases h; exact .after (.wait _) (.ends (.advance (by simp)))
  | hostBns off => exact hostBns_executes off h
  | hostEnd => cases h; exact .ends .ended

/-- What every effect, every end, the engines and the slave keep, whatever the environment's fields, every step keeps. -/
theorem step_keeps {P : State → Prop} (henv : ∀ s e, P s → P { s with env := e })
    (heffect : ∀ i s t, Effect i s t → P s → P t) (hends : ∀ i s t, Ends i s t → P s → P t)
    (hspi : ∀ s, P s → P (spiEngineStep s)) (hi2c : ∀ s, P s → P (i2cEngineStep s))
    (hslave : ∀ s, P s → P (i2cSlaveStep s)) {s s' : State} (hs : P s) (h : step s = .next s') : P s' := by
  obtain ⟨-, -, -, e, rfl | ⟨i, -, hi⟩ | rfl | rfl | rfl⟩ := step_cases h
  · exact hends .hostEnd _ _ (.refuse .illegal) (henv s e hs)
  · exact (exec_executes hi).keeps (heffect i) (hends i) (henv s e hs)
  · exact hspi _ (henv s e hs)
  · exact hi2c _ (henv s e hs)
  · exact hslave _ (henv s e hs)

end Sys2Proof.Machine
end

section
/-! The SPI frame engine (spec/40_spi_transactor.md R117 to R121): an equation for each of its edges. -/

namespace Sys2Proof.Machine

/-! Which rule is enabled. -/

theorem spiEngineStep_eq_spiRise {s : State} (hphase : s.spi.phase = .setup ∨ s.spi.phase = .shift)
    (hsclk : s.spi.sclk = false) (hbit : 0 < s.spi.bit) : spiEngineStep s = spiRise s := by
  have hrule : spiRule s = some .rise := by
    rcases hphase with h | h <;> simp [spiRule, h, hsclk, hbit]
  simp only [spiEngineStep, hrule]

theorem spiEngineStep_eq_spiFinishFrame {s : State} (hphase : s.spi.phase = .hold) :
    spiEngineStep s = spiFinishFrame s := by
  have hrule : spiRule s = some .finish := by simp only [spiRule, hphase]
  simp only [spiEngineStep, hrule]

/-! The rising edge and the frame end, whole. -/

/-- The least time before a rising edge (R117, R121). -/
def riseLeast (phase : SpiPhase) : Nat := if phase = .setup then Config.tCss else half

/-- The received word with one more bit, entered at bit 0. -/
def rxShiftIn (rx : Half) (b : Bool) : Half := (rx <<< 1) ||| (BitVec.ofBool b).setWidth 16

theorem rxShiftIn_eq (rx : Half) (b : Bool) : rxShiftIn rx b = (rx <<< 1) ||| (if b then 1#16 else 0#16) := by
  cases b <;> rfl

/-- A rising edge takes its least time and a draw, emits its event and samples; nothing else changes. MOSI is bit 15 of
the transmit word, its most significant. -/
theorem spiRise_eq {s : State} {tx rx out : Half} (htx : s.spi.tx = some tx) (hrx : s.spi.rx = some rx)
    (hout : s.dev.out = some out) :
    spiRise s =
      { s.pop with
        t := s.t + (riseLeast s.spi.phase + s.peek)
        traceSpi := s.traceSpi ++
          [⟨s.t + (riseLeast s.spi.phase + s.peek), .sckRise (tx.getLsbD 15) (out.getLsbD (s.spi.bit - 1))⟩]
        spi := { s.spi with
          sclk := true, phase := .shift, rx := some (rxShiftIn rx (out.getLsbD (s.spi.bit - 1))) } } := by
  have hmsb : tx.msb = tx.getLsbD 15 := BitVec.msb_eq_getLsbD_last _
  conv_lhs => simp only [spiRise, htx, hrx, hout, hmsb]
  rfl

/-- What a frame's word makes of the sensor's next answer (spec/41_encoder_link.md R151). -/
def respAfter (w : Half) (tRise : Nat) : DevResp :=
  if w = 0x4E00#16 then .regRead tRise
  else if w.extractLsb' 8 8 = 0x8E#8 then .regWrite (w.extractLsb' 0 8) tRise else .angle

/-- The frame's end for the sensor: it keeps the word, and only a write command touches register 14 (R151). -/
theorem deviceFrameEnd_eq (w : Half) (tRise : Nat) (s : State) :
    ∃ reg e, (w.extractLsb' 8 8 ≠ 0x8E#8 → reg = s.dev.reg14) ∧
      deviceFrameEnd w tRise s =
        { s with dev := { s.dev with inWord := some w, reg14 := reg, resp := respAfter w tRise }, env := e } := by
  have hword : wRd14 = 0x4E00#16 := rfl
  unfold deviceFrameEnd respAfter
  rw [hword]
  split
  · exact ⟨s.dev.reg14, s.env, fun _ => rfl, rfl⟩
  · split
    · next hwrite =>
      dsimp only [deviceCommit]
      split
      · exact ⟨_, _, fun h => absurd hwrite h, rfl⟩
      · exact ⟨_, _, fun h => absurd hwrite h, rfl⟩
    · exact ⟨s.dev.reg14, s.env, fun _ => rfl, rfl⟩

/-- A frame end takes `T_CSH` and a draw, emits its event, delivers the word and tells the sensor; nothing else
changes. -/
theorem spiFinishFrame_eq {s : State} {rx w : Half} (hrx : s.spi.rx = some rx) (hw : s.spi.word = some w) :
    ∃ reg e, (w.extractLsb' 8 8 ≠ 0x8E#8 → reg = s.dev.reg14) ∧
      spiFinishFrame s =
        { s with
          t := s.t + (Config.tCsh + s.peek)
          traceSpi := s.traceSpi ++ [⟨s.t + (Config.tCsh + s.peek), .csRise⟩]
          spi := { s.spi with
            csN := true, tCsRise := s.t + (Config.tCsh + s.peek), result := some rx, done := true, phase := .idle,
            mosi := none }
          dev := { s.dev with
            inWord := some w, reg14 := reg, resp := respAfter w (s.t + (Config.tCsh + s.peek)) }
          env := e } := by
  obtain ⟨reg, e, hreg, h⟩ := deviceFrameEnd_eq w (s.t + (Config.tCsh + s.peek))
    { (s.elapse Config.tCsh).emitSpi .csRise with spi := { s.spi with
        csN := true, tCsRise := s.t + (Config.tCsh + s.peek), result := some rx, done := true, phase := .idle,
        mosi := none } }
  refine ⟨reg, e, hreg, ?_⟩
  conv_lhs => simp only [spiFinishFrame, hrx, hw]
  exact h

/-- Settles O17: with SCLK low and bits left the step is the rising edge. -/
theorem risingEdgeSamples : Obligations.RisingEdgeSamples := by
  intro tx rx out s hphase hsclk hbit htx hrx hout
  refine ⟨riseLeast s.spi.phase + s.peek, s.pop.env, Nat.le_add_right _ _, ?_⟩
  rw [spiEngineStep_eq_spiRise hphase hsclk hbit, spiRise_eq htx hrx hout, rxShiftIn_eq]
  rfl

/-- Settles O19: in `HOLD` the step is the frame end. -/
theorem frameEndDeliversTheWord : Obligations.FrameEndDeliversTheWord := by
  intro rx w s hphase hrx hw
  obtain ⟨reg, e, hreg, h⟩ := spiFinishFrame_eq hrx hw
  exact ⟨Config.tCsh + s.peek, reg, e, Nat.le_add_right _ _, hreg, (spiEngineStep_eq_spiFinishFrame hphase).trans h⟩

/-! Every step of the engine. -/

/-- The phase and the line under which each rule of the engine is enabled (R115, R117 to R119). -/
theorem spiRule_phase {s : State} {r : SpiRule} (h : spiRule s = some r) :
    match r with
    | .rise => (s.spi.phase = .setup ∨ s.spi.phase = .shift) ∧ s.spi.sclk = false ∧ 0 < s.spi.bit
    | .fall => s.spi.phase = .shift ∧ s.spi.sclk = true
    | .finish => s.spi.phase = .hold := by
  unfold spiRule at h
  split at h
  · cases h
  · next hphase =>
    split at h <;> cases h
    next hline => exact ⟨.inl hphase, by simpa using hline⟩
  · next hphase =>
    split at h
    · next hsclk =>
      cases h
      exact ⟨hphase, hsclk⟩
    · next hsclk =>
      split at h <;> cases h
      next hbit => exact ⟨.inr hphase, by simpa using hsclk, by simpa using hbit⟩
  · next hphase =>
    cases h
    exact hphase

/-- All that a running frame reads has been written. -/
def FrameWritten (s : State) : Prop :=
  s.spi.tx.isSome ∧ s.spi.rx.isSome ∧ s.spi.word.isSome ∧ s.dev.out.isSome

/-- A step of the engine is no step, an edge or the frame end with what it reads written, or the fault of reading what
is not. -/
inductive SpiEngineMove (s : State) : State → Prop
  | none (h : spiRule s = none) : SpiEngineMove s s
  | rise (tx rx out : Half) (hphase : s.spi.phase = .setup ∨ s.spi.phase = .shift) (hsclk : s.spi.sclk = false)
      (hbit : 0 < s.spi.bit) :
      SpiEngineMove s
        { s.pop with
          t := s.t + (riseLeast s.spi.phase + s.peek)
          traceSpi := s.traceSpi ++
            [⟨s.t + (riseLeast s.spi.phase + s.peek), .sckRise (tx.getLsbD 15) (out.getLsbD (s.spi.bit - 1))⟩]
          spi := { s.spi with
            sclk := true, phase := .shift, rx := some (rxShiftIn rx (out.getLsbD (s.spi.bit - 1))) } }
  | fall (tx : Half) (hphase : s.spi.phase = .shift) (hsclk : s.spi.sclk = true) :
      SpiEngineMove s
        { s.pop with
          t := s.t + (half + s.peek)
          traceSpi := s.traceSpi ++ [⟨s.t + (half + s.peek), .sckFall⟩]
          spi := s.spi.fallen (tx <<< 1) }
  | finish (rx w : Half) (reg : Byte) (e : Env) (hphase : s.spi.phase = .hold) :
      SpiEngineMove s
        { s with
          t := s.t + (Config.tCsh + s.peek)
          traceSpi := s.traceSpi ++ [⟨s.t + (Config.tCsh + s.peek), .csRise⟩]
          spi := { s.spi with
            csN := true, tCsRise := s.t + (Config.tCsh + s.peek), result := some rx, done := true, phase := .idle,
            mosi := Option.none }
          dev := { s.dev with
            inWord := some w, reg14 := reg, resp := respAfter w (s.t + (Config.tCsh + s.peek)) }
          env := e }
  | unwritten (hphase : s.spi.phase ≠ .idle) (h : ¬FrameWritten s) : SpiEngineMove s (s.raise .unwritten)

theorem spiRise_move {s : State} (hphase : s.spi.phase = .setup ∨ s.spi.phase = .shift) (hsclk : s.spi.sclk = false)
    (hbit : 0 < s.spi.bit) : SpiEngineMove s (spiRise s) := by
  by_cases h : s.spi.tx.isSome ∧ s.spi.rx.isSome ∧ s.dev.out.isSome
  · simp only [Option.isSome_iff_exists] at h
    obtain ⟨⟨tx, htx⟩, ⟨rx, hrx⟩, out, hout⟩ := h
    rw [spiRise_eq htx hrx hout]
    exact .rise tx rx out hphase hsclk hbit
  · have hraise : spiRise s = s.raise .unwritten := by
      unfold spiRise
      split
      · next htx hrx hout => exact absurd (by simp [htx, hrx, hout]) h
      · rfl
    rw [hraise]
    exact .unwritten (by rcases hphase with hp | hp <;> simp [hp]) fun ⟨htx, hrx, _, hout⟩ => h ⟨htx, hrx, hout⟩

theorem spiFall_move {s : State} (hphase : s.spi.phase = .shift) (hsclk : s.spi.sclk = true) :
    SpiEngineMove s (spiFall s) := by
  cases htx : s.spi.tx with
  | some tx =>
    rw [spiFall_eq htx]
    exact .fall tx hphase hsclk
  | none =>
    have hraise : spiFall s = s.raise .unwritten := by simp only [spiFall, htx]
    rw [hraise]
    exact .unwritten (by simp [hphase]) fun ⟨h, _⟩ => by simp [htx] at h

theorem spiFinishFrame_move {s : State} (hphase : s.spi.phase = .hold) : SpiEngineMove s (spiFinishFrame s) := by
  by_cases h : s.spi.rx.isSome ∧ s.spi.word.isSome
  · simp only [Option.isSome_iff_exists] at h
    obtain ⟨⟨rx, hrx⟩, w, hw⟩ := h
    obtain ⟨reg, e, -, hend⟩ := spiFinishFrame_eq hrx hw
    rw [hend]
    exact .finish rx w reg e hphase
  · have hraise : spiFinishFrame s = s.raise .unwritten := by
      unfold spiFinishFrame
      split
      · next hrx hw => exact absurd (by simp [hrx, hw]) h
      · rfl
    rw [hraise]
    exact .unwritten (by simp [hphase]) fun ⟨_, hrx, hw, _⟩ => h ⟨hrx, hw⟩

theorem spiEngineStep_move (s : State) : SpiEngineMove s (spiEngineStep s) := by
  unfold spiEngineStep
  split
  · next hrule => exact .none hrule
  · next hrule =>
    obtain ⟨hphase, hsclk, hbit⟩ := spiRule_phase hrule
    exact spiRise_move hphase hsclk hbit
  · next hrule =>
    obtain ⟨hphase, hsclk⟩ := spiRule_phase hrule
    exact spiFall_move hphase hsclk
  · next hrule => exact spiFinishFrame_move (spiRule_phase hrule)

end Sys2Proof.Machine
end

section
/-! The SPI unit stays consistent (spec/10_state.md R20 to R23): `SpiInv` speaks of the unit and of the sensor's answer
alone, which three effects of an operation and the frame engine change. -/

namespace Sys2Proof.Machine

/-- What `SpiInv` speaks of. -/
theorem SpiInv.congr {s t : State} (h : SpiInv s) (hspi : t.spi = s.spi) (hout : t.dev.out = s.dev.out) : SpiInv t := by
  obtain ⟨⟩ := h
  constructor <;> simpa only [hspi, hout]

/-- The end of an operation leaves the unit and the sensor alone. -/
theorem Ends.spi_eq {i : Instr} {s t : State} (h : Ends i s t) : t.spi = s.spi ∧ t.dev = s.dev := by
  cases h <;> exact ⟨rfl, rfl⟩

theorem SpiInv.configure {s : State} (h : SpiInv s) (hidle : s.spi.phase = .idle) :
    SpiInv { s with spi := { s.spi with
      freqReq := some fSclkReq, mode := some spiMode, width := some (BitVec.ofNat 5 spiWidth), configured := true,
      sclk := false, csN := true } } where
  csIdle := by simp [hidle]
  sclkHigh := by simp
  setupBits := h.setupBits
  shiftBits := h.shiftBits
  holdBits := h.holdBits
  idleBits := h.idleBits
  configOnly := fun _ => ⟨rfl, rfl, rfl⟩
  frameConfigured := fun _ => rfl
  frameWords := h.frameWords
  frameMosi := h.frameMosi
  doneIdle := h.doneIdle
  pendingFrame := h.pendingFrame

theorem SpiInv.load {s t : State} (h : SpiInv s) (hcheck : frameCheck s = none) {w : Half} {tFall : Nat} {split : Bool}
    (hspi : t.spi = { s.spi.loaded w tFall with pending := split }) (hout : t.dev.out.isSome) : SpiInv t := by
  obtain ⟨hconfigured, hidle, -⟩ := frameCheck_eq_none.1 hcheck
  have hsclk : s.spi.sclk = false := by
    by_contra hhigh
    simpa [hidle] using h.sclkHigh (by simpa using hhigh)
  have hconfig := h.configOnly hconfigured
  constructor <;> simp [hspi, SpiUnit.loaded, hsclk, hconfigured, hconfig, hout]

theorem SpiInv.take {s : State} (h : SpiInv s) : SpiInv { s with spi := { s.spi with done := false, pending := false } } where
  csIdle := h.csIdle
  sclkHigh := h.sclkHigh
  setupBits := h.setupBits
  shiftBits := h.shiftBits
  holdBits := h.holdBits
  idleBits := h.idleBits
  configOnly := h.configOnly
  frameConfigured := h.frameConfigured
  frameWords := h.frameWords
  frameMosi := h.frameMosi
  doneIdle := by simp
  pendingFrame := by simp

theorem SpiInv.effect {i : Instr} {s t : State} (heffect : Effect i s t) (h : SpiInv s) : SpiInv t := by
  cases heffect with
  | configure hidle _ => exact h.configure hidle
  | load w tFall v split hcheck _ => exact h.load hcheck rfl rfl
  | take pending hpending _ =>
    subst hpending
    exact h.take
  | _ => exact h.congr rfl rfl

/-! The frame engine. -/

/-- A running frame has a configured unit with `CS_n` low, MOSI driven, and all it reads written. -/
theorem SpiInv.framing {s : State} (h : SpiInv s) (hphase : s.spi.phase ≠ .idle) :
    s.spi.csN = false ∧ s.spi.configured = true ∧ s.spi.mosi.isSome ∧ s.spi.done = false ∧ FrameWritten s := by
  refine ⟨?_, h.frameConfigured hphase, h.frameMosi.2 hphase, ?_, h.frameWords hphase⟩
  · by_contra hcs
    exact hphase (h.csIdle.1 (by simpa using hcs))
  · by_contra hdone
    exact hphase (h.doneIdle (by simpa using hdone)).1

theorem SpiInv.engine {s t : State} (hmove : SpiEngineMove s t) (h : SpiInv s) : SpiInv t := by
  cases hmove with
  | none _ => exact h
  | unwritten _ _ => exact h.congr rfl rfl
  | rise tx rx out hphase hsclk hbit =>
    have hrun : s.spi.phase ≠ .idle := by rcases hphase with hp | hp <;> simp [hp]
    obtain ⟨hcs, hconfigured, hmosi, hdone, htx, -, hw, hout⟩ := h.framing hrun
    have hbits : 1 ≤ s.spi.bit ∧ s.spi.bit ≤ 16 := by
      rcases hphase with hp | hp
      · simp [h.setupBits hp]
      · exact h.shiftBits hp
    have hconfig := h.configOnly hconfigured
    constructor <;> simp [hcs, hconfigured, hmosi, hdone, htx, hw, hout, hbits, hconfig]
  | fall tx hphase hsclk =>
    obtain ⟨hcs, hconfigured, hmosi, hdone, htx, hrx, hw, hout⟩ := h.framing (by simp [hphase])
    have hbits := h.shiftBits hphase
    have hconfig := h.configOnly hconfigured
    by_cases hlast : s.spi.bit = 1
    · constructor <;> simp [SpiUnit.fallen, hcs, hconfigured, hmosi, hdone, hrx, hw, hout, hconfig, hlast]
    · have hleft : 0 < s.spi.bit - 1 := by omega
      have hbound : 1 ≤ s.spi.bit - 1 ∧ s.spi.bit - 1 ≤ 16 := by omega
      constructor <;>
        simp [SpiUnit.fallen, hphase, hcs, hconfigured, hdone, hrx, hw, hout, hconfig, hleft, hbound]
  | finish rx w reg e hphase =>
    obtain ⟨-, hconfigured, -⟩ := h.framing (by simp [hphase])
    have hsclk : s.spi.sclk = false := by
      by_contra hhigh
      simpa [hphase] using h.sclkHigh (by simpa using hhigh)
    have hconfig := h.configOnly hconfigured
    have hbit := h.holdBits hphase
    constructor <;> simp [hsclk, hconfigured, hconfig, hbit]

theorem SpiInv.step {s s' : State} (h : SpiInv s) (hstep : step s = .next s') : SpiInv s' := by
  refine step_keeps (fun s e h => h.congr rfl rfl) (fun i s t heffect h => h.effect heffect)
    (fun i s t hends h => ?_) (fun s h => h.engine (spiEngineStep_move s)) (fun s h => ?_) (fun s h => ?_) h hstep
  · obtain ⟨hspi, hdev⟩ := hends.spi_eq
    exact h.congr hspi (by rw [hdev])
  · obtain ⟨hspi, -, hdev, -⟩ := spiSide_eq_of_graft (i2cEngineStep_ignoresSpiSide.keeps (s := s) rfl)
    exact h.congr hspi (by rw [hdev])
  · obtain ⟨hspi, -, hdev, -⟩ := spiSide_eq_of_graft (i2cSlaveStep_ignoresSpiSide.keeps (s := s) rfl)
    exact h.congr hspi (by rw [hdev])

/-- Settles O21: every effect, every end and every engine step keeps the unit consistent, so every step does, and every
run. -/
theorem stepKeepsSpiConsistent : Obligations.StepKeepsSpiConsistent :=
  ⟨fun _ _ => SpiInv.step, fun _ _ _ h₀ hreach =>
    hreach.keeps (fun _ _ h => h.congr rfl rfl) (fun _ _ h hstep => h.step hstep) h₀⟩

end Sys2Proof.Machine
end

section
/-! The I2C master engine (spec/42_i2c_transactor.md R183 to R197): an equation for each of its rules, and from them what a
step of the engine is in each phase. -/

namespace Sys2Proof.Machine

/-! The controller after a rule. -/

/-- A step that emits a bus event `d` later, and leaves the controller and the slave's drive of SDA as given. -/
def State.busStep (d : Nat) (ev : I2cEvent) (u : I2cUnit) (sda : Drive) (e : Env) (s : State) : State :=
  { s with
    t := s.t + d, traceI2c := s.traceI2c ++ [⟨s.t + d, ev⟩], i2c := u, sl := { s.sl with sdaDrive := sda }, env := e }

/-- START, or a repeated START (R185), with the address byte loaded (R186). -/
def I2cUnit.started (u : I2cUnit) : I2cUnit :=
  { u with
    owner := if u.phase = .idle then true else u.owner
    isr := if u.phase = .idle then u.isr.busTaken else u.isr.tcCleared
    dir := cr2Read u.cr2, autoend := cr2Autoend u.cr2, cnt := (cr2Nbytes u.cr2).toNat
    shift := some (addressByte u.cr2), bit := 8, phase := .addr
    sclDrive := .low, sdaDrive := .low }

/-- A bit of the byte `b` sent (R187). -/
def I2cUnit.bitSent (b : Byte) (u : I2cUnit) : I2cUnit :=
  { u with
    shift := some (shiftOut b), bit := u.bit - 1
    phase := if u.bit - 1 = 0 then (if u.phase = .addr then .addrAck else .txAck) else u.phase
    sclDrive := .low, sdaDrive := .ofBit b.msb }

/-- The bit `x` received, after the bits `b` (R193). -/
def I2cUnit.bitReceived (b : Byte) (x : Bool) (u : I2cUnit) : I2cUnit :=
  { u with
    shift := some (shiftIn b x), bit := u.bit - 1
    phase := if u.bit - 1 = 0 then .rxWait else u.phase
    sclDrive := .low, sdaDrive := .released }

/-- A NACK (R190). -/
def I2cUnit.nacked (u : I2cUnit) : I2cUnit :=
  { u with isr := u.isr.nackReceived, cr2 := cr2ClearStart u.cr2, phase := .stopPend }

/-- `TX_WAIT` is entered (R192). -/
def I2cUnit.txWaiting (u : I2cUnit) : I2cUnit := { u with phase := .txWait, isr := u.isr.txWaitEntered }

/-- The end of a transfer (R191). -/
def I2cUnit.transferred (u : I2cUnit) : I2cUnit :=
  if u.autoend then { u with phase := .stopPend } else { u with isr := u.isr.transferComplete, phase := .tcHold }

/-- The address is acknowledged or not (R188). -/
def I2cUnit.addrAcked (a : Bool) (u : I2cUnit) : I2cUnit :=
  if a then u.nacked
  else if u.dir then { u with cr2 := cr2ClearStart u.cr2, bit := 8, phase := .rxByte }
  else { u with cr2 := cr2ClearStart u.cr2 }.txWaiting

/-- A data byte is acknowledged or not (R189). -/
def I2cUnit.dataAcked (a : Bool) (u : I2cUnit) : I2cUnit :=
  if a then u.nacked
  else if u.cnt - 1 = 0 then { u with cnt := u.cnt - 1 }.transferred
  else { u with cnt := u.cnt - 1 }.txWaiting

/-- SCL low, SDA released by the master: after a bit of the slave's. -/
def I2cUnit.listening (u : I2cUnit) : I2cUnit := { u with sclDrive := .low, sdaDrive := .released }

/-- The controller after the master's acknowledge (R195). -/
def I2cUnit.acknowledged (u : I2cUnit) : I2cUnit :=
  if 0 < u.cnt then { u with bit := 8, phase := .rxByte, sclDrive := .low, sdaDrive := .low }
  else u.listening.transferred

/-- The controller after a STOP (R197). -/
def I2cUnit.stopped (u : I2cUnit) : I2cUnit :=
  { u with
    owner := false, isr := u.isr.stopSent, cr2 := cr2ClearStop u.cr2, phase := .idle
    sclDrive := .released, sdaDrive := .released }

theorem cr2ClearStart_idem (v : Word) : cr2ClearStart (cr2ClearStart v) = cr2ClearStart v := by
  simp only [cr2ClearStart, BitVec.and_assoc, BitVec.and_self]

/-! The outcomes of an acknowledge. -/

section
variable {u : I2cUnit}

theorem I2cUnit.transferred_of_autoend (h : u.autoend = true) : u.transferred = { u with phase := .stopPend } := by
  simp [I2cUnit.transferred, h]

theorem I2cUnit.transferred_of_hold (h : u.autoend = false) :
    u.transferred = { u with isr := u.isr.transferComplete, phase := .tcHold } := by
  simp [I2cUnit.transferred, h]

theorem I2cUnit.addrAcked_read (h : u.dir = true) :
    u.addrAcked false = { u with cr2 := cr2ClearStart u.cr2, bit := 8, phase := .rxByte } := by
  simp [I2cUnit.addrAcked, h]

theorem I2cUnit.addrAcked_write (h : u.dir = false) :
    u.addrAcked false = { u with cr2 := cr2ClearStart u.cr2 }.txWaiting := by
  simp [I2cUnit.addrAcked, h]

theorem I2cUnit.dataAcked_more (h : u.cnt - 1 ≠ 0) : u.dataAcked false = { u with cnt := u.cnt - 1 }.txWaiting := by
  simp [I2cUnit.dataAcked, h]

theorem I2cUnit.dataAcked_last (h : u.cnt - 1 = 0) : u.dataAcked false = { u with cnt := 0 }.transferred := by
  simp [I2cUnit.dataAcked, h]

theorem I2cUnit.acknowledged_more (h : 0 < u.cnt) :
    u.acknowledged = { u with bit := 8, phase := .rxByte, sclDrive := .low, sdaDrive := .low } := by
  simp [I2cUnit.acknowledged, h]

theorem I2cUnit.acknowledged_last (h : u.cnt = 0) : u.acknowledged = u.listening.transferred := by
  simp [I2cUnit.acknowledged, h]

end

/-! The parts of the rules. -/

/-- The master's bit of a step, before what the step makes of it. -/
theorem masterBit_eq (b : Bool) (s : State) :
    (s.elapse 0).masterBit b =
      s.busStep (0 + s.peek) (.bitM b) { s.i2c with sclDrive := .low, sdaDrive := .ofBit b } .released s.pop.env := rfl

/-- The slave's bit of a step, before what the step makes of it. -/
theorem slaveBit_eq (a : Bool) (s : State) :
    (s.elapse 0).pop.slaveBit a =
      s.busStep (0 + s.peek) (.bitS a) s.i2c.listening (.ofBit a) s.pop.pop.env := by
  simp only [State.slaveBit, State.emitI2c, State.elapse, State.pop, State.busStep, I2cUnit.listening]

section
variable (d : Nat) (ev : I2cEvent) (u u' : I2cUnit) (sda : Drive) (e : Env) (s : State)

@[simp] theorem State.busStep_i2c : (s.busStep d ev u sda e).i2c = u := rfl

@[simp] theorem State.busStep_with_i2c :
    ({ s.busStep d ev u sda e with i2c := u' } : State) = s.busStep d ev u' sda e := by
  simp only [State.busStep]

@[simp] theorem engNack_busStep : engNack (s.busStep d ev u sda e) = s.busStep d ev u.nacked sda e := by
  simp only [engNack, State.busStep_i2c, State.busStep_with_i2c, I2cUnit.nacked]

@[simp] theorem engEnterTxWait_busStep :
    engEnterTxWait (s.busStep d ev u sda e) = s.busStep d ev u.txWaiting sda e := by
  simp only [engEnterTxWait, State.busStep_i2c, State.busStep_with_i2c, I2cUnit.txWaiting]

@[simp] theorem engEndOfTransfer_busStep :
    engEndOfTransfer (s.busStep d ev u sda e) = s.busStep d ev u.transferred sda e := by
  unfold engEndOfTransfer I2cUnit.transferred
  rw [State.busStep_i2c]
  split <;> rfl

end

/-! The rules, whole. -/

theorem engStart_eq (s : State) :
    engStart s =
      s.busStep (0 + s.peek) (if s.i2c.phase = .idle then .start else .restart) s.i2c.started .released s.pop.env := by
  simp only [engStart, beq_iff_eq]
  rfl

theorem engSendBit_eq {s : State} {b : Byte} (hshift : s.i2c.shift = some b) :
    engSendBit s = s.busStep (0 + s.peek) (.bitM b.msb) (s.i2c.bitSent b) .released s.pop.env := by
  simp only [engSendBit, hshift, masterBit_eq, State.busStep_i2c, State.busStep_with_i2c]
  rfl

theorem engRecvBit_eq {s : State} {b : Byte} (hshift : s.i2c.shift = some b) :
    engRecvBit s =
      s.busStep (0 + s.peek) (.bitS s.pop.peekBit) (s.i2c.bitReceived b s.pop.peekBit) (.ofBit s.pop.peekBit)
        s.pop.pop.env := by
  have hpeek : (s.elapse 0).peekBit = s.pop.peekBit := rfl
  simp only [engRecvBit, hshift, hpeek, slaveBit_eq, State.busStep_i2c, State.busStep_with_i2c]
  rfl

theorem engAddrAck_eq (s : State) :
    engAddrAck s =
      s.busStep (0 + s.peek) (.bitS s.pop.peekBit) (s.i2c.listening.addrAcked s.pop.peekBit) (.ofBit s.pop.peekBit)
        s.pop.pop.env := by
  have hpeek : (s.elapse 0).peekBit = s.pop.peekBit := rfl
  simp only [engAddrAck, I2cUnit.addrAcked, hpeek, slaveBit_eq, State.busStep_i2c, State.busStep_with_i2c,
    engNack_busStep, engEnterTxWait_busStep]
  split
  · simp only [I2cUnit.nacked, cr2ClearStart_idem]
  · split <;> rfl

theorem engDataAck_eq (s : State) :
    engDataAck s =
      s.busStep (0 + s.peek) (.bitS s.pop.peekBit) (s.i2c.listening.dataAcked s.pop.peekBit) (.ofBit s.pop.peekBit)
        s.pop.pop.env := by
  have hpeek : (s.elapse 0).peekBit = s.pop.peekBit := rfl
  simp only [engDataAck, I2cUnit.dataAcked, hpeek, slaveBit_eq, State.busStep_i2c, State.busStep_with_i2c,
    engNack_busStep, engEnterTxWait_busStep, engEndOfTransfer_busStep]
  split
  · rfl
  · split <;> rfl

theorem engRxStore_eq {s : State} {b : Byte} (hshift : s.i2c.shift = some b) :
    engRxStore s =
      { s with i2c := { s.i2c with
          rxdr := b, isr := s.i2c.isr.rxdrStored, cnt := s.i2c.cnt - 1, phase := .rxAck } } := by
  simp only [engRxStore, hshift]

theorem engMasterAck_eq (s : State) :
    engMasterAck s =
      s.busStep (0 + s.peek) (.bitM (decide (s.i2c.cnt = 0))) s.i2c.acknowledged .released s.pop.env := by
  simp only [engMasterAck, I2cUnit.acknowledged, masterBit_eq, engEndOfTransfer_busStep]
  split
  · next hleft =>
    have hmore : decide (s.i2c.cnt = 0) = false := by simp; omega
    rw [hmore]
    rfl
  · next hleft =>
    have hlast : decide (s.i2c.cnt = 0) = true := by simp; omega
    rw [hlast]
    rfl

theorem engStop_eq (s : State) :
    engStop s = s.busStep (0 + s.peek) .stop s.i2c.stopped .released s.pop.env := rfl

/-! Which rule is enabled. -/

theorem i2cEngineStep_of_rule {s : State} {r : EngRule} (h : engRule s = some r) : i2cEngineStep s = engEffect r s := by
  simp only [i2cEngineStep, h]

theorem i2cEngineStep_of_no_rule {s : State} (h : engRule s = none) : i2cEngineStep s = s := by
  simp only [i2cEngineStep, h]

section
variable {s : State}

theorem engRule_start (hstart : cr2Start s.i2c.cr2 = true)
    (hphase : s.i2c.phase = .idle ∨ (s.i2c.phase = .tcHold ∧ s.sl.sclHold = false)) : engRule s = some .start := by
  rcases hphase with hp | ⟨hp, hfree⟩
  · simp [engRule, hp, hstart]
  · simp [engRule, hp, hstart, hfree]

theorem engRule_sendBit (hphase : s.i2c.phase = .addr ∨ s.i2c.phase = .txByte) (hfree : s.sl.sclHold = false)
    (hbit : 0 < s.i2c.bit) : engRule s = some .sendBit := by
  rcases hphase with hp | hp <;> simp [engRule, hp, hfree, hbit]

theorem engRule_recvBit (hphase : s.i2c.phase = .rxByte) (hfree : s.sl.sclHold = false) (hbit : 0 < s.i2c.bit) :
    engRule s = some .recvBit := by
  simp [engRule, hphase, hfree, hbit]

theorem engRule_addrAck (hphase : s.i2c.phase = .addrAck) (hfree : s.sl.sclHold = false) :
    engRule s = some .addrAck := by
  simp [engRule, hphase, hfree]

theorem engRule_dataAck (hphase : s.i2c.phase = .txAck) (hfree : s.sl.sclHold = false) :
    engRule s = some .dataAck := by
  simp [engRule, hphase, hfree]

theorem engRule_txWait (hphase : s.i2c.phase = .txWait) :
    engRule s = if s.i2c.isr.txe then none else some .txLoad := by
  cases htxe : s.i2c.isr.txe <;> simp [engRule, hphase, htxe]

theorem engRule_rxWait (hphase : s.i2c.phase = .rxWait) :
    engRule s = if s.i2c.isr.rxne then none else some .rxStore := by
  cases hrxne : s.i2c.isr.rxne <;> simp [engRule, hphase, hrxne]

theorem engRule_masterAck (hphase : s.i2c.phase = .rxAck) (hfree : s.sl.sclHold = false) :
    engRule s = some .masterAck := by
  simp [engRule, hphase, hfree]

theorem engRule_stopRequest (hphase : s.i2c.phase = .tcHold) (hstart : cr2Start s.i2c.cr2 = false)
    (hstop : cr2Stop s.i2c.cr2 = true) : engRule s = some .stopRequest := by
  simp [engRule, hphase, hstart, hstop]

theorem engRule_stop (hphase : s.i2c.phase = .stopPend) (hfree : s.sl.sclHold = false) : engRule s = some .stop := by
  simp [engRule, hphase, hfree]

end

/-! The engine's rules as stated. -/

/-- Settles O35: with START set, in `IDLE` or in a free `TC_HOLD`, the step is the START. -/
theorem engineStartsTheTransfer : Obligations.EngineStartsTheTransfer := by
  intro s hstart hphase
  refine ⟨0 + s.peek, s.pop.env, ?_⟩
  rw [i2cEngineStep_of_rule (engRule_start hstart hphase)]
  exact engStart_eq s

/-- A byte's bit count falls to 0 with its last bit. -/
theorem ite_last_bit {n : Nat} (h : 0 < n) (p q : EngPhase) : (if n - 1 = 0 then p else q) = if n = 1 then p else q :=
  if_congr (by omega) rfl rfl

theorem shiftIn_eq (b : Byte) (x : Bool) : shiftIn b x = (b <<< 1) ||| (if x then 1#8 else 0#8) := by
  cases x <;> rfl

/-- Settles O36: with bits left and SCL free the step is the bit sent or received. -/
theorem engineMovesBits : Obligations.EngineMovesBits := by
  intro b s hfree hbit hshift
  constructor
  · intro hphase
    refine ⟨0 + s.peek, s.pop.env, ?_⟩
    have hmsb : b.msb = b.getLsbD 7 := BitVec.msb_eq_getLsbD_last _
    refine ((i2cEngineStep_of_rule (engRule_sendBit hphase hfree hbit)).trans (engSendBit_eq hshift)).trans ?_
    rw [I2cUnit.bitSent, ite_last_bit hbit, hmsb]
    rfl
  · intro hphase
    refine ⟨0 + s.peek, s.pop.peekBit, s.pop.pop.env, ?_⟩
    refine ((i2cEngineStep_of_rule (engRule_recvBit hphase hfree hbit)).trans (engRecvBit_eq hshift)).trans ?_
    rw [I2cUnit.bitReceived, ite_last_bit hbit, shiftIn_eq, hphase]
    rfl

/-- Settles O37: with SCL free the step is the acknowledge, and its outcome is that of the bit drawn. -/
theorem engineTakesTheAcknowledge : Obligations.EngineTakesTheAcknowledge := by
  intro s hfree
  refine ⟨0 + s.peek, s.pop.peekBit, s.pop.pop.env, ?_, ?_⟩
  · intro hphase
    rw [i2cEngineStep_of_rule (engRule_addrAck hphase hfree)]
    refine (engAddrAck_eq s).trans ?_
    generalize s.pop.peekBit = a
    cases a with
    | true => rfl
    | false =>
      cases hdir : s.i2c.dir with
      | true =>
        rw [I2cUnit.addrAcked_read (u := s.i2c.listening) hdir]
        rfl
      | false =>
        rw [I2cUnit.addrAcked_write (u := s.i2c.listening) hdir]
        rfl
  · intro hphase
    rw [i2cEngineStep_of_rule (engRule_dataAck hphase hfree)]
    refine (engDataAck_eq s).trans ?_
    generalize s.pop.peekBit = a
    cases a with
    | true => rfl
    | false =>
      by_cases hleft : 0 < s.i2c.cnt - 1
      · rw [I2cUnit.dataAcked_more (u := s.i2c.listening) (Nat.ne_of_gt hleft), if_pos hleft]
        rfl
      · rw [I2cUnit.dataAcked_last (u := s.i2c.listening) (Nat.eq_zero_of_not_pos hleft), if_neg hleft]
        cases hauto : s.i2c.autoend with
        | true =>
          rw [I2cUnit.transferred_of_autoend (u := { s.i2c.listening with cnt := 0 }) hauto]
          rfl
        | false =>
          rw [I2cUnit.transferred_of_hold (u := { s.i2c.listening with cnt := 0 }) hauto]
          rfl

/-- Settles O38: in its two waits the engine does nothing, or moves the byte. -/
theorem engineLoadsAndStores : Obligations.EngineLoadsAndStores := by
  intro s
  constructor
  · intro hphase
    have hrule := engRule_txWait hphase
    split at hrule
    · next htxe => rw [if_pos htxe, i2cEngineStep_of_no_rule hrule]
    · next htxe =>
      rw [if_neg htxe, i2cEngineStep_of_rule hrule]
      rfl
  · intro b hphase hshift
    have hrule := engRule_rxWait hphase
    split at hrule
    · next hrxne => rw [if_pos hrxne, i2cEngineStep_of_no_rule hrule]
    · next hrxne =>
      rw [if_neg hrxne, i2cEngineStep_of_rule hrule]
      exact engRxStore_eq hshift

/-- Settles O39: the master's acknowledge, the STOP request and the STOP are the steps of their phases. -/
theorem engineEndsTheTransfer : Obligations.EngineEndsTheTransfer := by
  intro s
  refine ⟨?_, ?_, ?_⟩
  · intro hphase hfree
    refine ⟨0 + s.peek, s.pop.env, ?_⟩
    rw [i2cEngineStep_of_rule (engRule_masterAck hphase hfree)]
    refine (engMasterAck_eq s).trans ?_
    unfold I2cUnit.acknowledged I2cUnit.transferred
    split
    · rfl
    · rw [show s.i2c.listening.autoend = s.i2c.autoend from rfl]
      split <;> rfl
  · intro hphase hstart hstop
    rw [i2cEngineStep_of_rule (engRule_stopRequest hphase hstart hstop)]
    rfl
  · intro hphase hfree
    refine ⟨0 + s.peek, s.pop.env, ?_⟩
    rw [i2cEngineStep_of_rule (engRule_stop hphase hfree)]
    rfl

/-! Every step of the engine. -/

/-- A step of the engine is no step, one of its rules, or the fault of reading an unwritten shift register. -/
inductive I2cEngineMove (s : State) : State → Prop
  | none (h : engRule s = none) : I2cEngineMove s s
  | start (hstart : cr2Start s.i2c.cr2 = true)
      (hphase : s.i2c.phase = .idle ∨ (s.i2c.phase = .tcHold ∧ s.sl.sclHold = false)) :
      I2cEngineMove s
        (s.busStep (0 + s.peek) (if s.i2c.phase = .idle then .start else .restart) s.i2c.started .released s.pop.env)
  | sendBit (b : Byte) (hphase : s.i2c.phase = .addr ∨ s.i2c.phase = .txByte) (hfree : s.sl.sclHold = false)
      (hbit : 0 < s.i2c.bit) :
      I2cEngineMove s (s.busStep (0 + s.peek) (.bitM b.msb) (s.i2c.bitSent b) .released s.pop.env)
  | recvBit (b : Byte) (x : Bool) (hphase : s.i2c.phase = .rxByte) (hfree : s.sl.sclHold = false)
      (hbit : 0 < s.i2c.bit) :
      I2cEngineMove s (s.busStep (0 + s.peek) (.bitS x) (s.i2c.bitReceived b x) (.ofBit x) s.pop.pop.env)
  | addrAck (a : Bool) (hphase : s.i2c.phase = .addrAck) (hfree : s.sl.sclHold = false) :
      I2cEngineMove s (s.busStep (0 + s.peek) (.bitS a) (s.i2c.listening.addrAcked a) (.ofBit a) s.pop.pop.env)
  | dataAck (a : Bool) (hphase : s.i2c.phase = .txAck) (hfree : s.sl.sclHold = false) :
      I2cEngineMove s (s.busStep (0 + s.peek) (.bitS a) (s.i2c.listening.dataAcked a) (.ofBit a) s.pop.pop.env)
  | txLoad (hphase : s.i2c.phase = .txWait) (htxe : s.i2c.isr.txe = false) : I2cEngineMove s (engTxLoad s)
  | rxStore (b : Byte) (hphase : s.i2c.phase = .rxWait) (hrxne : s.i2c.isr.rxne = false) :
      I2cEngineMove s { s with i2c := { s.i2c with
        rxdr := b, isr := s.i2c.isr.rxdrStored, cnt := s.i2c.cnt - 1, phase := .rxAck } }
  | masterAck (hphase : s.i2c.phase = .rxAck) (hfree : s.sl.sclHold = false) :
      I2cEngineMove s
        (s.busStep (0 + s.peek) (.bitM (decide (s.i2c.cnt = 0))) s.i2c.acknowledged .released s.pop.env)
  | stopRequest (hphase : s.i2c.phase = .tcHold) (hstop : cr2Stop s.i2c.cr2 = true) :
      I2cEngineMove s (engStopRequest s)
  | stop (hphase : s.i2c.phase = .stopPend) (hfree : s.sl.sclHold = false) :
      I2cEngineMove s (s.busStep (0 + s.peek) .stop s.i2c.stopped .released s.pop.env)
  | unwritten (hphase : s.i2c.phase ≠ .idle) (hshift : s.i2c.shift = Option.none) :
      I2cEngineMove s (s.raise .unwritten)

theorem i2cEngineStep_move (s : State) : I2cEngineMove s (i2cEngineStep s) := by
  cases hrule : engRule s with
  | none =>
    rw [i2cEngineStep_of_no_rule hrule]
    exact .none hrule
  | some r =>
    rw [i2cEngineStep_of_rule hrule]
    have hphase := engRule_phase hrule
    cases r with
    | start =>
      have hstart : engEffect .start s = _ := engStart_eq s
      rw [hstart]
      exact .start hphase.2 hphase.1
    | sendBit =>
      obtain ⟨hp, hfree, hbit⟩ := hphase
      cases hshift : s.i2c.shift with
      | none =>
        have hraise : engEffect .sendBit s = s.raise .unwritten := by simp only [engEffect, engSendBit, hshift]
        rw [hraise]
        exact .unwritten (by rcases hp with h | h <;> simp [h]) hshift
      | some b =>
        have hsend : engEffect .sendBit s = _ := engSendBit_eq hshift
        rw [hsend]
        exact .sendBit b hp hfree hbit
    | addrAck =>
      have hack : engEffect .addrAck s = _ := engAddrAck_eq s
      rw [hack]
      exact .addrAck _ hphase.1 hphase.2
    | dataAck =>
      have hack : engEffect .dataAck s = _ := engDataAck_eq s
      rw [hack]
      exact .dataAck _ hphase.1 hphase.2
    | txLoad => exact .txLoad hphase.1 hphase.2
    | recvBit =>
      obtain ⟨hp, hfree, hbit⟩ := hphase
      cases hshift : s.i2c.shift with
      | none =>
        have hraise : engEffect .recvBit s = s.raise .unwritten := by simp only [engEffect, engRecvBit, hshift]
        rw [hraise]
        exact .unwritten (by simp [hp]) hshift
      | some b =>
        have hrecv : engEffect .recvBit s = _ := engRecvBit_eq hshift
        rw [hrecv]
        exact .recvBit b _ hp hfree hbit
    | rxStore =>
      obtain ⟨hp, hrxne⟩ := hphase
      cases hshift : s.i2c.shift with
      | none =>
        have hraise : engEffect .rxStore s = s.raise .unwritten := by simp only [engEffect, engRxStore, hshift]
        rw [hraise]
        exact .unwritten (by simp [hp]) hshift
      | some b =>
        have hstore : engEffect .rxStore s = _ := engRxStore_eq hshift
        rw [hstore]
        exact .rxStore b hp hrxne
    | masterAck =>
      have hack : engEffect .masterAck s = _ := engMasterAck_eq s
      rw [hack]
      exact .masterAck hphase.1 hphase.2
    | stopRequest => exact .stopRequest hphase.1 hphase.2
    | stop => exact .stop hphase.1 hphase.2

/-- While the slave holds SCL a step of a running engine makes no bus event (R183, R198). -/
theorem I2cEngineMove.quiet_of_held {s s' : State} (hmove : I2cEngineMove s s') (hhold : s.sl.sclHold = true)
    (hphase : s.i2c.phase ≠ .idle) : s'.traceI2c = s.traceI2c := by
  cases hmove with
  | none | txLoad | rxStore | stopRequest | unwritten => rfl
  | start _ hp =>
    rcases hp with hidle | ⟨-, hfree⟩
    · exact absurd hidle hphase
    · cases hhold.symm.trans hfree
  | sendBit _ _ hfree | recvBit _ _ _ hfree => cases hhold.symm.trans hfree
  | addrAck _ _ hfree | dataAck _ _ hfree => cases hhold.symm.trans hfree
  | masterAck _ hfree | stop _ hfree => cases hhold.symm.trans hfree

/-- Settles O40: in a hold only the rules without a bus event are enabled, and the slave's step is the release, or from a
low SCL the hold. -/
theorem stretchedClockHoldsTheEngine : Obligations.StretchedClockHoldsTheEngine := by
  refine ⟨fun s hhold hphase => ?_, fun s hhold => ?_, fun s hfree howner hlow => ?_⟩
  · exact (i2cEngineStep_move s).quiet_of_held hhold hphase
  · simp only [i2cSlaveStep, hhold, if_true]
    rfl
  · have hmay : slaveMayHold s = true := by simp [slaveMayHold, howner, hfree, hlow]
    simp only [i2cSlaveStep, hfree, hmay, Bool.false_eq_true, if_false, if_true]
    rfl

end Sys2Proof.Machine
end

section
/-! The I2C controller, its engine and its lines stay consistent (spec/10_state.md R28, R29, R33, R34): `I2cInv` speaks of
the controller and of the slave's two drives, which the register writes, the engine and the slave change. -/

namespace Sys2Proof.Machine

/-- What `I2cInv` speaks of. -/
theorem I2cInv.congr {s t : State} (h : I2cInv s) (hi2c : t.i2c = s.i2c) (hsl : t.sl = s.sl) : I2cInv t := by
  have hclosing : engClosing t = engClosing s := by simp only [engClosing, hi2c]
  cases h
  constructor <;> simpa only [hi2c, hsl, hclosing]

/-- The end of an operation leaves the controller and the slave alone. -/
theorem Ends.i2c_eq {i : Instr} {s t : State} (h : Ends i s t) : t.i2c = s.i2c ∧ t.sl = s.sl := by
  cases h <;> exact ⟨rfl, rfl⟩

/-! The register writes. -/

theorem I2cInv.cr2 {s : State} (h : I2cInv s) {v : Word} (hcheck : cr2WriteCheck v s = none) :
    I2cInv { s with i2c := { s.i2c with cr2 := v } } := by
  obtain ⟨hscope, -, -, hphase, hboth, hcount, hstop⟩ := cr2WriteCheck_eq_none hcheck
  have hstart : s.i2c.phase = .idle ∨ s.i2c.phase = .tcHold ∨ s.i2c.phase = .addr ∨ s.i2c.phase = .addrAck ∨
      engClosing s = true := by
    rcases hphase with hp | hp | hp <;> simp [hp]
  exact { h with
    scopeBits := hscope, startCount := hcount, startNotStop := hboth, stopPhase := fun hv => .inl (hstop hv),
    startPhase := fun _ => hstart }

theorem I2cInv.effect {i : Instr} {s t : State} (heffect : Effect i s t) (h : I2cInv s) : I2cInv t := by
  cases heffect with
  | cr2 v hcheck => exact h.cr2 hcheck
  | icr v => exact { h with }
  | txdr b => exact { h with txisWait := by simp [IsrFlags.txdrWritten] }
  | rxdr => exact { h with }
  | _ => exact h.congr rfl rfl

/-! The slave. -/

theorem I2cInv.slave {s : State} (h : I2cInv s) : I2cInv (i2cSlaveStep s) := by
  rcases i2cSlaveStep_cases s with ⟨hhold, hs⟩ | ⟨hfree, howner, hlow, hs⟩ | ⟨-, -, hs⟩ <;> rw [hs]
  · have howner := h.holdOwned hhold
    exact { h with sclOwned := by simp [howner], holdOwned := by simp }
  · exact { h with sclOwned := by simp, holdOwned := fun _ => howner }
  · exact h

/-! The engine. -/

section
variable {s : State}

/-- A running engine owns the bus and holds a byte. -/
theorem I2cInv.owned (h : I2cInv s) (hphase : s.i2c.phase ≠ .idle) :
    s.i2c.owner = true ∧ s.i2c.isr.busy = true ∧ s.i2c.shift.isSome = true :=
  have howner := h.ownerPhase.2 hphase
  ⟨howner, h.busyOwner.trans howner, h.shiftHeld hphase⟩

/-- The transfer flags say which phase the engine is in. -/
theorem I2cInv.flags (h : I2cInv s) :
    s.i2c.isr.tc = decide (s.i2c.phase = .tcHold) ∧
    s.i2c.isr.txis = decide (s.i2c.phase = .txWait ∧ s.i2c.isr.txe = true) := by
  refine ⟨?_, ?_⟩
  · rw [Bool.eq_iff_iff, h.tcHold, decide_eq_true_iff]
  · rw [Bool.eq_iff_iff, h.txisWait, decide_eq_true_iff]

/-- Outside `TC_HOLD` and `STOP_PEND` no STOP is requested. -/
theorem I2cInv.no_stop (h : I2cInv s) (htc : s.i2c.phase ≠ .tcHold) (hpend : s.i2c.phase ≠ .stopPend) :
    cr2Stop s.i2c.cr2 = false := by
  by_contra hstop
  rcases h.stopPhase (by simpa using hstop) with hp | hp
  · exact htc hp
  · exact hpend hp

/-- In the data phases no START is requested. -/
theorem I2cInv.no_start (h : I2cInv s) (hdata : s.i2c.phase = .txWait ∨ s.i2c.phase = .txByte ∨ s.i2c.phase = .txAck ∨
    s.i2c.phase = .rxByte ∨ s.i2c.phase = .rxWait ∨ (s.i2c.phase = .rxAck ∧ 0 < s.i2c.cnt)) :
    cr2Start s.i2c.cr2 = false := by
  by_contra hstart
  have hphase := h.startPhase (by simpa using hstart)
  rcases hdata with hp | hp | hp | hp | hp | ⟨hp, hcnt⟩ <;> simp [engClosing, hp] at hphase
  omega

variable {d : Nat} {ev : I2cEvent} {e : Env}

theorem I2cInv.started (h : I2cInv s) (hstart : cr2Start s.i2c.cr2 = true)
    (hphase : s.i2c.phase = .idle ∨ (s.i2c.phase = .tcHold ∧ s.sl.sclHold = false)) :
    I2cInv (s.busStep d ev s.i2c.started .released e) := by
  have hscope := h.scopeBits
  have hstop : cr2Stop s.i2c.cr2 = false := by
    simpa [hstart] using h.startNotStop
  have hcount : cr2Nbytes s.i2c.cr2 ≠ 0#8 := h.startCount hstart
  have hpos : 1 ≤ (cr2Nbytes s.i2c.cr2).toNat := by
    rw [Nat.one_le_iff_ne_zero]
    exact fun hz => hcount (BitVec.eq_of_toNat_eq hz)
  have hbound : (cr2Nbytes s.i2c.cr2).toNat ≤ 255 := Nat.le_of_lt_succ (cr2Nbytes s.i2c.cr2).isLt
  obtain ⟨htc, htxis⟩ := h.flags
  have hfree : s.sl.sclHold = false := by
    rcases hphase with hp | ⟨-, hfree⟩
    · by_contra hhold
      exact h.ownerPhase.1 (h.holdOwned (by simpa using hhold)) hp
    · exact hfree
  have hbusy := h.busyOwner
  rcases hphase with hp | ⟨hp, -⟩
  · constructor <;>
      simp [State.busStep, I2cUnit.started, IsrFlags.busTaken, hp, htc, htxis, hscope, hstop, hcount, hpos, hbound, hfree]
  · obtain ⟨howner, hbusy, -⟩ := h.owned (by simp [hp])
    constructor <;>
      simp [State.busStep, I2cUnit.started, IsrFlags.tcCleared, hp, htxis, hscope, hstop, hcount, hpos, hbound, hfree,
        howner, hbusy]

theorem I2cInv.bitSent (h : I2cInv s) (hphase : s.i2c.phase = .addr ∨ s.i2c.phase = .txByte)
    (hfree : s.sl.sclHold = false) (b : Byte) : I2cInv (s.busStep d ev (s.i2c.bitSent b) .released e) := by
  have hscope := h.scopeBits
  obtain ⟨howner, hbusy, -⟩ := h.owned (by rcases hphase with hp | hp <;> simp [hp])
  have hstop : cr2Stop s.i2c.cr2 = false := by
    apply h.no_stop <;> rcases hphase with hp | hp <;> simp [hp]
  obtain ⟨htc, htxis⟩ := h.flags
  have hbits : s.i2c.bit - 1 ≤ 8 := Nat.le_trans (Nat.sub_le _ _) h.bitBound
  have hcnt := h.cntBound
  have hleft := h.cntLeft (by rcases hphase with hp | hp <;> simp [hp])
  rcases hphase with hp | hp
  · have hcount := h.startCount
    by_cases hlast : s.i2c.bit - 1 = 0
    · constructor <;>
        simp [State.busStep, I2cUnit.bitSent, hlast, hp, htc, htxis, hscope, hstop, hcnt, hleft, howner, hbusy, hfree]
      exact hcount
    · have hmore : 1 ≤ s.i2c.bit - 1 := Nat.one_le_iff_ne_zero.2 hlast
      constructor <;>
        simp [State.busStep, I2cUnit.bitSent, hlast, hp, htc, htxis, hscope, hstop, hcnt, hleft, howner, hbusy, hfree,
          hbits, hmore]
      exact hcount
  · have hdir := h.dirWrite (by simp [hp])
    have hstart := h.no_start (by simp [hp])
    by_cases hlast : s.i2c.bit - 1 = 0
    · constructor <;>
        simp [State.busStep, I2cUnit.bitSent, hlast, hp, htc, htxis, hscope, hstop, hcnt, hleft, howner, hbusy, hfree,
          hdir, hstart]
    · have hmore : 1 ≤ s.i2c.bit - 1 := Nat.one_le_iff_ne_zero.2 hlast
      constructor <;>
        simp [State.busStep, I2cUnit.bitSent, hlast, hp, htc, htxis, hscope, hstop, hcnt, hleft, howner, hbusy, hfree,
          hbits, hmore, hdir, hstart]

theorem I2cInv.bitReceived (h : I2cInv s) (hphase : s.i2c.phase = .rxByte) (hfree : s.sl.sclHold = false) (b : Byte)
    (x : Bool) (sda : Drive) : I2cInv (s.busStep d ev (s.i2c.bitReceived b x) sda e) := by
  have hscope := h.scopeBits
  obtain ⟨howner, hbusy, -⟩ := h.owned (by simp [hphase])
  have hstop := h.no_stop (by simp [hphase]) (by simp [hphase])
  have hstart := h.no_start (by simp [hphase])
  obtain ⟨htc, htxis⟩ := h.flags
  have hbits : s.i2c.bit - 1 ≤ 8 := Nat.le_trans (Nat.sub_le _ _) h.bitBound
  have hcnt := h.cntBound
  have hleft := h.cntLeft (by simp [hphase])
  have hdir := h.dirRead (by simp [hphase])
  by_cases hlast : s.i2c.bit - 1 = 0
  · constructor <;>
      simp [State.busStep, I2cUnit.bitReceived, hlast, hphase, htc, htxis, hscope, hstop, hstart, hcnt, hleft, howner,
        hbusy, hfree, hdir]
  · have hmore : 1 ≤ s.i2c.bit - 1 := Nat.one_le_iff_ne_zero.2 hlast
    constructor <;>
      simp [State.busStep, I2cUnit.bitReceived, hlast, hphase, htc, htxis, hscope, hstop, hstart, hcnt, hleft, howner,
        hbusy, hfree, hdir, hbits, hmore]

/-- After a NACK, in either acknowledge of the slave's. -/
theorem I2cInv.nacked (h : I2cInv s) (hphase : s.i2c.phase = .addrAck ∨ s.i2c.phase = .txAck)
    (hfree : s.sl.sclHold = false) (sda : Drive) : I2cInv (s.busStep d ev s.i2c.listening.nacked sda e) := by
  obtain ⟨hstart, hstop', hscope', -⟩ := cr2ClearStart_fields s.i2c.cr2
  have hscope := h.scopeBits
  obtain ⟨howner, hbusy, hshift⟩ := h.owned (by rcases hphase with hp | hp <;> simp [hp])
  have hstop : cr2Stop s.i2c.cr2 = false := by
    apply h.no_stop <;> rcases hphase with hp | hp <;> simp [hp]
  have htc : s.i2c.isr.tc = false := by
    rcases hphase with hp | hp <;> simpa [hp] using h.flags.1
  have htxis : s.i2c.isr.txis = false := by
    rcases hphase with hp | hp <;> simpa [hp] using h.flags.2
  have hbits := h.bitBound
  have hcnt := h.cntBound
  constructor <;>
    simp [State.busStep, I2cUnit.listening, I2cUnit.nacked, IsrFlags.nackReceived, hstart, hstop', hscope', hscope, hstop,
      htc, htxis, hshift, howner, hbusy, hfree, hbits, hcnt]

theorem I2cInv.addrAcked (h : I2cInv s) (hphase : s.i2c.phase = .addrAck) (hfree : s.sl.sclHold = false) (a : Bool)
    (sda : Drive) : I2cInv (s.busStep d ev (s.i2c.listening.addrAcked a) sda e) := by
  cases a with
  | true => exact h.nacked (.inl hphase) hfree sda
  | false =>
    obtain ⟨hstart, hstop', hscope', -⟩ := cr2ClearStart_fields s.i2c.cr2
    have hscope := h.scopeBits
    obtain ⟨howner, hbusy, hshift⟩ := h.owned (by simp [hphase])
    have hstop := h.no_stop (by simp [hphase]) (by simp [hphase])
    obtain ⟨htc, htxis⟩ := h.flags
    have hbits := h.bitBound
    have hcnt := h.cntBound
    have hleft := h.cntLeft (by simp [hphase])
    cases hdir : s.i2c.dir with
    | true =>
      rw [I2cUnit.addrAcked_read (u := s.i2c.listening) hdir]
      constructor <;>
        simp [State.busStep, I2cUnit.listening, hphase, hdir, hstart, hstop', hscope', hscope, hstop, htc, htxis, hshift,
          howner, hbusy, hfree, hcnt, hleft]
    | false =>
      rw [I2cUnit.addrAcked_write (u := s.i2c.listening) hdir]
      constructor <;>
        simp [State.busStep, I2cUnit.listening, I2cUnit.txWaiting, IsrFlags.txWaitEntered, hphase, hdir, hstart, hstop',
          hscope', hscope, hstop, htc, hshift, howner, hbusy, hfree, hbits, hcnt, hleft]

/-- After the end of a transfer, in either of its two acknowledges. A START may be pending after a read. -/
theorem I2cInv.transferred (h : I2cInv s) (hphase : s.i2c.phase = .txAck ∨ s.i2c.phase = .rxAck)
    (hfree : s.sl.sclHold = false) (sda : Drive) :
    I2cInv (s.busStep d ev { s.i2c.listening with cnt := 0 }.transferred sda e) := by
  have hscope := h.scopeBits
  obtain ⟨howner, hbusy, hshift⟩ := h.owned (by rcases hphase with hp | hp <;> simp [hp])
  have hstop : cr2Stop s.i2c.cr2 = false := by
    apply h.no_stop <;> rcases hphase with hp | hp <;> simp [hp]
  have htc : s.i2c.isr.tc = false := by
    rcases hphase with hp | hp <;> simpa [hp] using h.flags.1
  have htxis : s.i2c.isr.txis = false := by
    rcases hphase with hp | hp <;> simpa [hp] using h.flags.2
  have hbits := h.bitBound
  have hcount := h.startCount
  cases hauto : s.i2c.autoend with
  | true =>
    rw [I2cUnit.transferred_of_autoend (u := { s.i2c.listening with cnt := 0 }) hauto]
    constructor <;>
      simp [State.busStep, I2cUnit.listening, engClosing, hscope, hstop, htc, htxis, hshift, howner, hbusy, hfree, hbits]
    exact hcount
  | false =>
    rw [I2cUnit.transferred_of_hold (u := { s.i2c.listening with cnt := 0 }) hauto]
    constructor <;>
      simp [State.busStep, I2cUnit.listening, IsrFlags.transferComplete, hscope, hstop, htxis, hshift, howner, hbusy,
        hfree, hbits]
    exact hcount

theorem I2cInv.dataAcked (h : I2cInv s) (hphase : s.i2c.phase = .txAck) (hfree : s.sl.sclHold = false) (a : Bool)
    (sda : Drive) : I2cInv (s.busStep d ev (s.i2c.listening.dataAcked a) sda e) := by
  cases a with
  | true => exact h.nacked (.inr hphase) hfree sda
  | false =>
    by_cases hlast : s.i2c.cnt - 1 = 0
    · rw [I2cUnit.dataAcked_last (u := s.i2c.listening) hlast]
      exact h.transferred (.inl hphase) hfree sda
    · rw [I2cUnit.dataAcked_more (u := s.i2c.listening) hlast]
      have hscope := h.scopeBits
      obtain ⟨howner, hbusy, hshift⟩ := h.owned (by simp [hphase])
      have hstop := h.no_stop (by simp [hphase]) (by simp [hphase])
      have hstart := h.no_start (by simp [hphase])
      have htc := h.flags.1
      have hbits := h.bitBound
      have hcnt : s.i2c.cnt - 1 ≤ 255 := Nat.le_trans (Nat.sub_le _ _) h.cntBound
      have hleft : 1 ≤ s.i2c.cnt - 1 := Nat.one_le_iff_ne_zero.2 hlast
      have hdir := h.dirWrite (by simp [hphase])
      constructor <;>
        simp [State.busStep, I2cUnit.listening, I2cUnit.txWaiting, IsrFlags.txWaitEntered, hphase, hdir, hstart, hscope,
          hstop, htc, hshift, howner, hbusy, hfree, hbits, hcnt, hleft]

theorem I2cInv.acknowledged (h : I2cInv s) (hphase : s.i2c.phase = .rxAck) (hfree : s.sl.sclHold = false) (sda : Drive) :
    I2cInv (s.busStep d ev s.i2c.acknowledged sda e) := by
  by_cases hmore : 0 < s.i2c.cnt
  · rw [I2cUnit.acknowledged_more hmore]
    have hscope := h.scopeBits
    obtain ⟨howner, hbusy, hshift⟩ := h.owned (by simp [hphase])
    have hstop := h.no_stop (by simp [hphase]) (by simp [hphase])
    have hstart := h.no_start (by simp [hphase, hmore])
    obtain ⟨htc, htxis⟩ := h.flags
    have hcnt := h.cntBound
    have hleft : 1 ≤ s.i2c.cnt := hmore
    have hdir := h.dirRead (by simp [hphase])
    constructor <;>
      simp [State.busStep, hphase, hdir, hstart, hscope, hstop, htc, htxis, hshift, howner, hbusy, hfree, hcnt, hleft]
  · have hzero : s.i2c.cnt = 0 := Nat.eq_zero_of_not_pos hmore
    have hlast : s.i2c.listening = { s.i2c.listening with cnt := 0 } := by simp [I2cUnit.listening, hzero]
    rw [I2cUnit.acknowledged_last hzero, hlast]
    exact h.transferred (.inr hphase) hfree sda

theorem I2cInv.txLoad (h : I2cInv s) (hphase : s.i2c.phase = .txWait) : I2cInv (engTxLoad s) := by
  have hscope := h.scopeBits
  obtain ⟨howner, hbusy, -⟩ := h.owned (by simp [hphase])
  have hstop := h.no_stop (by simp [hphase]) (by simp [hphase])
  have hstart := h.no_start (by simp [hphase])
  have htc := h.flags.1
  have hcnt := h.cntBound
  have hleft := h.cntLeft (by simp [hphase])
  have hdir := h.dirWrite (by simp [hphase])
  have hscl := h.sclOwned
  constructor <;>
    simp [engTxLoad, IsrFlags.txdrLoaded, hphase, hdir, hstart, hscope, hstop, htc, howner, hbusy, hcnt, hleft, hscl]

theorem I2cInv.rxStore (h : I2cInv s) (hphase : s.i2c.phase = .rxWait) (b : Byte) :
    I2cInv { s with i2c := { s.i2c with
      rxdr := b, isr := s.i2c.isr.rxdrStored, cnt := s.i2c.cnt - 1, phase := .rxAck } } := by
  have hscope := h.scopeBits
  obtain ⟨howner, hbusy, hshift⟩ := h.owned (by simp [hphase])
  have hstop := h.no_stop (by simp [hphase]) (by simp [hphase])
  have hstart := h.no_start (by simp [hphase])
  obtain ⟨htc, htxis⟩ := h.flags
  have hbits := h.bitBound
  have hcnt : s.i2c.cnt - 1 ≤ 255 := Nat.le_trans (Nat.sub_le _ _) h.cntBound
  have hdir := h.dirRead (by simp [hphase])
  have hscl := h.sclOwned
  constructor <;>
    simp [IsrFlags.rxdrStored, hphase, hdir, hstart, hscope, hstop, htc, htxis, howner, hbusy, hshift, hbits, hcnt, hscl]

theorem I2cInv.stopRequested (h : I2cInv s) (hphase : s.i2c.phase = .tcHold) : I2cInv (engStopRequest s) := by
  have hscope := h.scopeBits
  obtain ⟨howner, hbusy, hshift⟩ := h.owned (by simp [hphase])
  have htxis := h.flags.2
  have hbits := h.bitBound
  have hcnt := h.cntBound
  have hscl := h.sclOwned
  exact { h with
    stopPhase := fun _ => .inr rfl, startPhase := fun _ => .inr (.inr (.inr (.inr (by simp [engClosing, engStopRequest]))))
    ownerPhase := by simp [engStopRequest, howner]
    tcHold := by simp [engStopRequest, IsrFlags.tcCleared]
    txisWait := by simp [engStopRequest, IsrFlags.tcCleared, htxis, hphase]
    shiftHeld := fun _ => hshift
    bitLeft := by simp [engStopRequest], cntLeft := by simp [engStopRequest]
    dirWrite := by simp [engStopRequest], dirRead := by simp [engStopRequest]
    sdaIdle := by simp [engStopRequest] }

theorem I2cInv.stopped (h : I2cInv s) (hphase : s.i2c.phase = .stopPend) (hfree : s.sl.sclHold = false) :
    I2cInv (s.busStep d ev s.i2c.stopped .released e) := by
  obtain ⟨hstop, hstart', hscope', hcount'⟩ := cr2ClearStop_fields s.i2c.cr2
  have hscope := h.scopeBits
  have hcount := h.startCount
  obtain ⟨htc, htxis⟩ := h.flags
  have hbits := h.bitBound
  have hcnt := h.cntBound
  constructor <;>
    simp [State.busStep, I2cUnit.stopped, IsrFlags.stopSent, hphase, hstop, hstart', hscope', hcount', hscope, htc, htxis,
      hfree, hbits, hcnt]
  exact hcount

theorem I2cInv.engine {t : State} (hmove : I2cEngineMove s t) (h : I2cInv s) : I2cInv t := by
  cases hmove with
  | none _ => exact h
  | unwritten _ _ => exact h.congr rfl rfl
  | start hstart hphase => exact h.started hstart hphase
  | sendBit b hphase hfree _ => exact h.bitSent hphase hfree b
  | recvBit b x hphase hfree _ => exact h.bitReceived hphase hfree b x _
  | addrAck a hphase hfree => exact h.addrAcked hphase hfree a _
  | dataAck a hphase hfree => exact h.dataAcked hphase hfree a _
  | txLoad hphase _ => exact h.txLoad hphase
  | rxStore b hphase _ => exact h.rxStore hphase b
  | masterAck hphase hfree => exact h.acknowledged hphase hfree _
  | stopRequest hphase _ => exact h.stopRequested hphase
  | stop hphase hfree => exact h.stopped hphase hfree

end

theorem I2cInv.step {s s' : State} (h : I2cInv s) (hstep : step s = .next s') : I2cInv s' := by
  refine step_keeps (fun s e h => h.congr rfl rfl) (fun i s t heffect h => h.effect heffect)
    (fun i s t hends h => h.congr hends.i2c_eq.1 hends.i2c_eq.2) (fun s h => ?_)
    (fun s h => h.engine (i2cEngineStep_move s)) (fun s h => h.slave) h hstep
  obtain ⟨hi2c, -, hsl, -⟩ := i2cSide_eq_of_graft (spiEngineStep_ignoresI2cSide.keeps (s := s) rfl)
  exact h.congr hi2c hsl

/-- Settles O45: every effect, every end, every engine rule and both steps of the slave keep the controller consistent, so
every step does, and every run. -/
theorem stepKeepsI2cConsistent : Obligations.StepKeepsI2cConsistent :=
  ⟨fun _ _ => I2cInv.step, fun _ _ _ h₀ hreach =>
    hreach.keeps (fun _ _ h => h.congr rfl rfl) (fun _ _ h hstep => h.step hstep) h₀⟩

end Sys2Proof.Machine
end

section
/-! The other invariants: the filter sequence and its fatal mark (spec/10_state.md R25 to R27), the reader's fields (R36,
R37), host memory (spec/20_memory.md R61), and from all of them that no rule reads an unwritten element (R43). -/

namespace Sys2Proof.Machine

/-! The filter sequence. -/

/-- What `EncInv` speaks of. -/
theorem EncInv.congr {s t : State} (h : EncInv s) (henc : t.enc = s.enc)
    (hverify : FaultCode.verify ∈ t.faults ↔ FaultCode.verify ∈ s.faults) : EncInv t := by
  cases h
  constructor <;> simpa only [henc, hverify]

/-- A code is recorded where it is raised, and no other is. -/
theorem mem_raise_faults {c c' : FaultCode} {s : State} : c' ∈ (s.raise c).faults ↔ c' ∈ s.faults ∨ c' = c := by
  rw [State.raise_faults]
  split
  · next hmem =>
    constructor
    · exact .inl
    · rintro (h | rfl)
      · exact h
      · exact hmem
  · simp

theorem EncInv.raise {s : State} (h : EncInv s) {c : FaultCode} (hc : FaultCode.verify ≠ c) : EncInv (s.raise c) :=
  h.congr rfl (mem_raise_faults.trans (or_iff_left hc))

theorem EncInv.effect {i : Instr} {s t : State} (heffect : Effect i s t) (h : EncInv s) : EncInv t := by
  cases heffect with
  | sequence u hfatal hdecide hwrites =>
    refine ⟨hdecide, fun hu => ?_, ?_⟩
    · rcases hwrites hu with hsome | ⟨hsame, hs⟩
      · exact hsome
      · exact hsame ▸ h.writeDesired hs
    · exact (congrArg (· = true) hfatal).to_iff.trans h.fatalVerify
  | _ => exact h.congr rfl Iff.rfl

theorem EncInv.ends {i : Instr} {s t : State} (hends : Ends i s t) (h : EncInv s) : EncInv t := by
  cases hends with
  | fault c hc => exact h.raise (by rcases hc with rfl | rfl <;> simp)
  | unwritten _ => exact h.raise (by simp)
  | verifyFail =>
    exact ⟨h.decideCurrent, h.writeDesired, fun _ => mem_raise_faults.2 (.inr rfl), fun _ => rfl⟩
  | _ => exact h.congr rfl Iff.rfl

theorem EncInv.spiEngine {s t : State} (hmove : SpiEngineMove s t) (h : EncInv s) : EncInv t := by
  cases hmove with
  | unwritten _ _ => exact h.raise (by simp)
  | _ => exact h.congr rfl Iff.rfl

theorem EncInv.i2cEngine {s t : State} (hmove : I2cEngineMove s t) (h : EncInv s) : EncInv t := by
  cases hmove with
  | unwritten _ _ => exact h.raise (by simp)
  | _ => exact h.congr rfl Iff.rfl

theorem EncInv.slave {s : State} (h : EncInv s) : EncInv (i2cSlaveStep s) := by
  rcases i2cSlaveStep_cases s with ⟨-, hs⟩ | ⟨-, -, -, hs⟩ | ⟨-, -, hs⟩ <;> rw [hs] <;> exact h.congr rfl Iff.rfl

/-- Settles O30: only the sequence's own effects and the failed verification change what the invariant speaks of. -/
theorem stepKeepsFilterSequenceConsistent : Obligations.StepKeepsFilterSequenceConsistent := fun _ _ h hstep =>
  step_keeps (fun _ _ h => h.congr rfl Iff.rfl) (fun _ _ _ heffect h => h.effect heffect)
    (fun _ _ _ hends h => h.ends hends) (fun s h => h.spiEngine (spiEngineStep_move s))
    (fun s h => h.i2cEngine (i2cEngineStep_move s)) (fun _ h => h.slave) h hstep

/-! The reader. -/

/-- What `ReaderInv` speaks of. -/
theorem ReaderInv.congr {s t : State} (h : ReaderInv s) (hrd : t.rd = s.rd) : ReaderInv t := by
  cases h
  constructor <;> simpa only [hrd]

theorem ReaderInv.started {s : State} (h : ReaderInv s) (hidle : s.rd.state = .idle) {len : Byte} (hlen : len ≠ 0#8)
    (slave : BitVec 7) (reg : Byte) (buf : Word) :
    ReaderInv { s with rd := { s.rd with
      slave := some slave, reg := some reg, buf := some buf, len := some len, state := .sentRegister } } := by
  have hcause : s.rd.cause = .none := by
    by_contra hne
    simpa [hidle] using h.causeError.2 hne
  constructor <;> simp [hcause, hlen]

theorem ReaderInv.reading {s : State} (h : ReaderInv s) (hsent : s.rd.state = .sentRegister) :
    ReaderInv { s with rd := { s.rd with offset := some 0, state := .readingData } } := by
  obtain ⟨hslave, hreg, hbuf, n, hlen, hn⟩ := h.fields (.inl hsent)
  have hpos : 0 < n.toNat := Nat.pos_of_ne_zero fun hz => hn (BitVec.eq_of_toNat_eq hz)
  have hcause : s.rd.cause = .none := by
    by_contra hne
    simpa [hsent] using h.causeError.2 hne
  constructor <;> simp [hslave, hreg, hbuf, hlen, hn, hpos, hcause]

theorem ReaderInv.stored {s t : State} (h : ReaderInv s) (hreading : s.rd.state = .readingData) {len : Byte} {o : Nat}
    (hlen : s.rd.len = some len) (ho : s.rd.offset = some o)
    (ht : t.rd = { s.rd with
      offset := some (o + 1), state := if o + 1 = len.toNat then .complete else .readingData }) : ReaderInv t := by
  obtain ⟨hslave, hreg, hbuf, hpos⟩ := h.fields (.inr hreading)
  obtain ⟨o', n, ho', hn, hlt⟩ := h.offsetReading hreading
  cases ho.symm.trans ho'
  cases hlen.symm.trans hn
  have hcause : s.rd.cause = .none := by
    by_contra hne
    simpa [hreading] using h.causeError.2 hne
  by_cases hlast : o + 1 = len.toNat
  · constructor <;> simp [ht, hlast, hlen, hcause]
  · have hleft : o + 1 < len.toNat := by omega
    simp only [hlen, Option.some.injEq, exists_eq_left'] at hpos
    constructor <;> simp [ht, hlast, hlen, hcause, hslave, hreg, hbuf, hpos, hleft]

theorem ReaderInv.effect {i : Instr} {s t : State} (heffect : Effect i s t) (h : ReaderInv s) : ReaderInv t := by
  cases heffect with
  | busBusy | nacked | released => constructor <;> simp
  | started slave reg buf len hlen hidle => exact h.started hidle hlen slave reg buf
  | reading hsent => exact h.reading hsent
  | stored buf len o b _ hreading _ hlen ho => exact h.stored hreading hlen ho rfl
  | _ => exact h.congr rfl

/-- The end of an operation leaves the reader and host memory alone. -/
theorem Ends.rd_eq {i : Instr} {s t : State} (h : Ends i s t) : t.rd = s.rd ∧ t.mem = s.mem := by
  cases h <;> exact ⟨rfl, rfl⟩

/-- The engines and the slave leave the reader and host memory alone. -/
theorem engines_rd_eq (s : State) :
    ((spiEngineStep s).rd = s.rd ∧ (spiEngineStep s).mem = s.mem) ∧
    ((i2cEngineStep s).rd = s.rd ∧ (i2cEngineStep s).mem = s.mem) ∧
    ((i2cSlaveStep s).rd = s.rd ∧ (i2cSlaveStep s).mem = s.mem) := by
  refine ⟨?_, ?_, ?_⟩
  · obtain ⟨-, hrd, -, hmem, -⟩ := i2cSide_eq_of_graft (spiEngineStep_ignoresI2cSide.keeps (s := s) rfl)
    exact ⟨hrd, hmem⟩
  · rcases i2cEngineStep_frame s with ⟨u, d, t, l, e, h, -⟩ | ⟨h, -⟩ <;> rw [h] <;> exact ⟨rfl, rfl⟩
  · rcases i2cSlaveStep_cases s with ⟨-, h⟩ | ⟨-, -, -, h⟩ | ⟨-, -, h⟩ <;> rw [h] <;> exact ⟨rfl, rfl⟩

/-- Settles O53: only the reader's own effects change its fields. -/
theorem stepKeepsReaderConsistent : Obligations.StepKeepsReaderConsistent := fun _ _ h hstep =>
  step_keeps (fun _ _ h => h.congr rfl) (fun _ _ _ heffect h => h.effect heffect)
    (fun _ _ _ hends h => h.congr hends.rd_eq.1) (fun s h => h.congr (engines_rd_eq s).1.1)
    (fun s h => h.congr (engines_rd_eq s).2.1.1) (fun s h => h.congr (engines_rd_eq s).2.2.1) h hstep

/-! Host memory. -/

/-- Memory in its canonical form, with the regions `rs`. -/
def MemCanonical (rs : List Region) (s : State) : Prop := s.mem.wf ∧ s.mem.regions = rs

theorem MemCanonical.congr {rs : List Region} {s t : State} (h : MemCanonical rs s) (hmem : t.mem = s.mem) :
    MemCanonical rs t := by
  rwa [MemCanonical, hmem]

/-- Settles O55: the one effect that writes memory is an ordered write of a byte. -/
theorem stepKeepsMemoryCanonical : Obligations.StepKeepsMemoryCanonical := by
  intro s s' hwf hstep
  refine step_keeps (P := MemCanonical s.mem.regions) (fun _ _ h => h) (fun i s t heffect h => ?_)
    (fun _ _ _ hends h => h.congr hends.rd_eq.2) (fun s h => h.congr (engines_rd_eq s).1.2)
    (fun s h => h.congr (engines_rd_eq s).2.1.2) (fun s h => h.congr (engines_rd_eq s).2.2.2) ⟨hwf, rfl⟩ hstep
  cases heffect with
  | stored buf len o b => exact ⟨Memory.write_keeps_wf _ _ h.1, h.2⟩
  | _ => exact h

/-- Every operation but `I2C_POLL` leaves memory alone. -/
theorem exec_mem_eq {i : Instr} {s s' : State} (hi : i ≠ .i2cPoll) (h : exec i s = .next s') : s'.mem = s.mem := by
  refine (exec_executes h).keeps (P := fun t => t.mem = s.mem) (fun a b heffect ha => ?_)
    (fun _ _ hends ha => hends.rd_eq.2.trans ha) rfl
  cases heffect with
  | stored buf len o b hpoll => exact absurd hpoll hi
  | _ => exact ha

theorem pollNack_mem (f : IsrFlags) (s : State) : (pollNack f s).mem = s.mem := by
  unfold pollNack
  split <;> rfl

/-- `I2C_POLL` writes memory only in `ReadingData`, one byte at an admitted address (spec/20_memory.md R61, R62). -/
theorem exec_i2cPoll_mem {s s' : State} (h : exec .i2cPoll s = .next s') :
    s'.mem = s.mem ∨
    (s.rd.state = .readingData ∧ s.i2c.isr.rxne = true ∧ ∃ buf len o b,
      s.rd.buf = some buf ∧ s.rd.len = some len ∧ s.rd.offset = some o ∧ s.mem.admits (buf.toNat + o) = true ∧
      s'.mem = s.mem.write (buf.toNat + o) b) := by
  simp only [exec, execI2cPoll] at h
  split at h
  · cases h
    exact .inl rfl
  · next hblocked =>
    split at h <;> cases h
    · next x _ => cases x <;> exact .inl rfl
    · next haction =>
      rcases pollAction_eq_ok haction with rfl | ⟨-, -, slave, len, -, -, -, rfl⟩ |
        ⟨hreading, hrxne, buf, len, o, hbuf, hlen, ho, rfl⟩
      · exact .inl (pollNack_mem _ _)
      · exact .inl (pollNack_mem _ _)
      · have hadmits : s.mem.admits (buf.toNat + o) = true := by
          simpa [pollBlocked, hreading, hrxne, readerTarget, Reader.bufVal, Reader.offsetVal, hbuf, ho] using hblocked
        exact .inr ⟨hreading, hrxne, buf, len, o, _, hbuf, hlen, ho, hadmits, pollNack_mem _ _⟩

/-- Settles O54: no step but a `Poll` writes memory, and a `Poll` writes the one byte at its offset. -/
theorem memoryIsWrittenOnlyByPoll : Obligations.MemoryIsWrittenOnlyByPoll := by
  intro s s' hinv hstep a hne
  have hmem : s'.mem ≠ s.mem := fun heq => hne (by rw [heq])
  obtain ⟨-, -, -, e, rfl | ⟨i, hfetch, hi⟩ | rfl | rfl | rfl⟩ := step_cases hstep
  · exact absurd rfl hmem
  · by_cases hpoll : i = .i2cPoll
    · subst hpoll
      rcases exec_i2cPoll_mem hi with heq | ⟨hreading, hrxne, buf, len, o, b, hbuf, hlen, ho, hadmits, hwrite⟩
      · exact absurd heq hmem
      · obtain ⟨o', n, ho', hn, hlt⟩ := hinv.offsetReading hreading
        cases ho.symm.trans ho'
        cases hlen.symm.trans hn
        have ha : a = buf.toNat + o := by
          by_contra hother
          exact hne (by rw [hwrite]; exact Memory.read_write_other hother b s.mem)
        exact ⟨hfetch, hreading, hrxne, buf, len, o, hbuf, hlen, ho, ha, hlt, ha ▸ hadmits⟩
    · exact absurd (exec_mem_eq hpoll hi) hmem
  · exact absurd (engines_rd_eq _).1.2 hmem
  · exact absurd (engines_rd_eq _).2.1.2 hmem
  · exact absurd (engines_rd_eq _).2.2.2 hmem

end Sys2Proof.Machine
end

section
/-! What steps never do: read an unwritten element (spec/10_state.md R43), overwrite a received byte, move `BUSY` or `TC`
outside their events (spec/42_i2c_transactor.md R194, R201, R203), or move the host's registers outside their writers
(spec/44_host_program.md R257). -/

namespace Sys2Proof.Machine

/-! No unwritten element is read. -/

/-- The invariants under which an operation reads only what has been written. -/
structure Written (s : State) : Prop where
  spi : SpiInv s
  enc : EncInv s
  reader : ReaderInv s

theorem Written.effect {i : Instr} {s t : State} (heffect : Effect i s t) (h : Written s) : Written t :=
  ⟨h.spi.effect heffect, h.enc.effect heffect, h.reader.effect heffect⟩

theorem Written.not_misses {s : State} (h : Written s) : ¬Misses s := by
  intro hmiss
  cases hmiss with
  | result hready hnone =>
    have hdone : s.spi.done = true := by simpa [frameReady] using (Bool.and_eq_true_iff.1 hready).2
    simpa [hnone] using (h.spi.doneIdle hdone).2
  | current hfs hnone => simpa [hnone] using h.enc.decideCurrent hfs
  | desired hfs hnone => simpa [hnone] using h.enc.writeDesired (.inr (.inr hfs))
  | sent hsent hnone =>
    obtain ⟨hslave, -, -, n, hlen, -⟩ := h.reader.fields (.inl hsent)
    rcases hnone with hnone | hnone
    · simp [hnone] at hslave
    · simp [hnone] at hlen
  | reading hreading hnone =>
    obtain ⟨-, -, hbuf, n, hlen, -⟩ := h.reader.fields (.inr hreading)
    obtain ⟨o, -, ho, -⟩ := h.reader.offsetReading hreading
    rcases hnone with hnone | hnone | hnone
    · simp [hnone] at hbuf
    · simp [hnone] at hlen
    · simp [hnone] at ho

/-- No effect of an operation touches the marks or the host. -/
theorem Effect.marks_eq {i : Instr} {s t : State} (h : Effect i s t) :
    t.faults = s.faults ∧ t.refused = s.refused ∧ t.refusal = s.refusal ∧ t.host = s.host := by
  cases h <;> exact ⟨rfl, rfl, rfl, rfl⟩

/-- The marks of an unmarked state satisfy `MarkInv`. -/
theorem MarkInv.of_unmarked {s : State} (hfaults : s.faults = []) (hrefused : s.refused = false)
    (hrefusal : s.refusal = none) : MarkInv s := by
  constructor <;> simp [hfaults, hrefused, hrefusal]

/-- A fault raised in a state that carries none is the only one. -/
theorem State.raise_of_faultless {s : State} (hfaults : s.faults = []) (c : FaultCode) :
    s.raise c = { s with faults := [c] } := by
  simp [State.raise, hfaults]

/-- The end of an operation that reads only what has been written, in an unmarked state. -/
theorem MarkInv.ends {i : Instr} {s t : State} (hends : Ends i s t) (hmiss : ¬Misses s) (hfaults : s.faults = [])
    (hrefused : s.refused = false) (hrefusal : s.refusal = none) : MarkInv t := by
  cases hends with
  | fault c hc =>
    rw [State.raise_of_faultless hfaults]
    rcases hc with rfl | rfl <;> constructor <;> simp [hrefused, hrefusal]
  | unwritten h => exact absurd h hmiss
  | verifyFail =>
    rw [State.raiseVerifyFail_of_faultless hfaults]
    constructor <;> simp [hrefused, hrefusal]
  | refuse c => constructor <;> simp [hfaults]
  | _ => exact .of_unmarked hfaults hrefused hrefusal

/-- An operation from an unmarked state that meets the invariants. -/
theorem MarkInv.exec {i : Instr} {s s' : State} (h : exec i s = .next s') (hs : Written s) (hfaults : s.faults = [])
    (hrefused : s.refused = false) (hrefusal : s.refusal = none) : MarkInv s' := by
  obtain ⟨t, ⟨hwritten, hf, hr, hc⟩, hend⟩ := (exec_executes h).last
    (P := fun t => Written t ∧ t.faults = [] ∧ t.refused = false ∧ t.refusal = none)
    (fun a b heffect ⟨hw, hf, hr, hc⟩ =>
      have ⟨hf', hr', hc', _⟩ := heffect.marks_eq
      ⟨hw.effect heffect, hf'.trans hf, hr'.trans hr, hc'.trans hc⟩)
    ⟨hs, hfaults, hrefused, hrefusal⟩
  exact .ends hend hwritten.not_misses hf hr hc

theorem MarkInv.spiEngine {s t : State} (hmove : SpiEngineMove s t) (h : MarkInv s) (hspi : SpiInv s) : MarkInv t := by
  cases hmove with
  | unwritten hphase hmiss => exact absurd (hspi.frameWords hphase) hmiss
  | _ => exact { h with }

theorem MarkInv.i2cEngine {s t : State} (hmove : I2cEngineMove s t) (h : MarkInv s) (hi2c : I2cInv s) : MarkInv t := by
  cases hmove with
  | unwritten hphase hmiss => simpa [hmiss] using hi2c.shiftHeld hphase
  | _ => exact { h with }

theorem MarkInv.slave {s : State} (h : MarkInv s) : MarkInv (i2cSlaveStep s) := by
  rcases i2cSlaveStep_cases s with ⟨-, hs⟩ | ⟨-, -, -, hs⟩ | ⟨-, -, hs⟩ <;> rw [hs] <;> exact { h with }

/-- Settles O9: the invariants hold at every point at which an operation or an engine reads an element, so `F_UNWRITTEN`
is never what ends a step. -/
theorem noStepReadsAnUnwrittenElement : Obligations.NoStepReadsAnUnwrittenElement := by
  intro s s' hspi henc hi2c hreader hmarks hstep
  obtain ⟨hfaults, -, hrefused, e, hcases⟩ := step_cases hstep
  have hrefusal : s.refusal = none := by
    simpa [hrefused] using hmarks.refusalCode
  have hmarks' : MarkInv { s with env := e } := { hmarks with }
  have hspi' : SpiInv { s with env := e } := hspi.congr rfl rfl
  rcases hcases with rfl | ⟨i, -, hi⟩ | rfl | rfl | rfl
  · constructor <;> simp [hfaults]
  · exact .exec hi ⟨hspi', henc.congr rfl Iff.rfl, hreader.congr rfl⟩ hfaults hrefused hrefusal
  · exact hmarks'.spiEngine (spiEngineStep_move _) hspi'
  · exact hmarks'.i2cEngine (i2cEngineStep_move _) (hi2c.congr rfl rfl)
  · exact hmarks'.slave

/-! The received byte, `BUSY` and `TC`. -/

section
variable (u : I2cUnit) (a : Bool)

@[simp] theorem I2cUnit.transferred_rxdr : u.transferred.rxdr = u.rxdr := by
  unfold I2cUnit.transferred; split <;> rfl

@[simp] theorem I2cUnit.transferred_busy : u.transferred.isr.busy = u.isr.busy := by
  unfold I2cUnit.transferred; split <;> rfl

@[simp] theorem I2cUnit.addrAcked_rxdr : (u.addrAcked a).rxdr = u.rxdr := by
  unfold I2cUnit.addrAcked; split
  · rfl
  · split <;> rfl

@[simp] theorem I2cUnit.addrAcked_busy : (u.addrAcked a).isr.busy = u.isr.busy := by
  unfold I2cUnit.addrAcked; split
  · rfl
  · split <;> rfl

@[simp] theorem I2cUnit.addrAcked_tc : (u.addrAcked a).isr.tc = u.isr.tc := by
  unfold I2cUnit.addrAcked; split
  · rfl
  · split <;> rfl

@[simp] theorem I2cUnit.dataAcked_rxdr : (u.dataAcked a).rxdr = u.rxdr := by
  unfold I2cUnit.dataAcked; split
  · rfl
  · split
    · exact I2cUnit.transferred_rxdr _
    · rfl

@[simp] theorem I2cUnit.dataAcked_busy : (u.dataAcked a).isr.busy = u.isr.busy := by
  unfold I2cUnit.dataAcked; split
  · rfl
  · split
    · exact I2cUnit.transferred_busy _
    · rfl

@[simp] theorem I2cUnit.acknowledged_rxdr : u.acknowledged.rxdr = u.rxdr := by
  unfold I2cUnit.acknowledged; split
  · rfl
  · exact I2cUnit.transferred_rxdr _

@[simp] theorem I2cUnit.acknowledged_busy : u.acknowledged.isr.busy = u.isr.busy := by
  unfold I2cUnit.acknowledged; split
  · rfl
  · exact I2cUnit.transferred_busy _

/-- The end of a transfer does not clear `TC`. -/
theorem I2cUnit.transferred_tc (h : u.isr.tc = true) : u.transferred.isr.tc = true := by
  unfold I2cUnit.transferred; split
  · exact h
  · rfl

end

/-- No operation touches the received byte, `BUSY`, `TC` or the I2C trace (spec/42_i2c_transactor.md R201 to R203). -/
theorem exec_controller_eq {i : Instr} {s s' : State} (h : exec i s = .next s') :
    s'.i2c.rxdr = s.i2c.rxdr ∧ s'.i2c.isr.busy = s.i2c.isr.busy ∧ s'.i2c.isr.tc = s.i2c.isr.tc ∧
      s'.traceI2c = s.traceI2c := by
  refine (exec_executes h).keeps
    (P := fun t => t.i2c.rxdr = s.i2c.rxdr ∧ t.i2c.isr.busy = s.i2c.isr.busy ∧ t.i2c.isr.tc = s.i2c.isr.tc ∧
      t.traceI2c = s.traceI2c) (fun a b heffect ha => ?_) (fun a b hends ha => ?_) ⟨rfl, rfl, rfl, rfl⟩
  · cases heffect <;> exact ha
  · cases hends <;> exact ha

/-- While a byte waits in `RXDR` the engine does not store another (R194). -/
theorem I2cEngineMove.rxdr_eq {s s' : State} (hmove : I2cEngineMove s s') (hrxne : s.i2c.isr.rxne = true) :
    s'.i2c.rxdr = s.i2c.rxdr := by
  cases hmove with
  | rxStore b _ hfree => cases hrxne.symm.trans hfree
  | addrAck | dataAck | masterAck => simp [I2cUnit.listening]
  | _ => rfl

theorem i2cSlaveStep_controller_eq (s : State) :
    (i2cSlaveStep s).i2c.rxdr = s.i2c.rxdr ∧ (i2cSlaveStep s).i2c.isr = s.i2c.isr := by
  rcases i2cSlaveStep_cases s with ⟨-, hs⟩ | ⟨-, -, -, hs⟩ | ⟨-, -, hs⟩ <;> rw [hs] <;> exact ⟨rfl, rfl⟩

/-- Settles O41: the store into `RXDR` waits for `RXNE` to be clear, and nothing else writes it. -/
theorem receivedByteIsNeverOverwritten : Obligations.ReceivedByteIsNeverOverwritten := by
  intro s s' hrxne hstep
  obtain ⟨-, -, -, e, rfl | ⟨i, -, hi⟩ | rfl | rfl | rfl⟩ := step_cases hstep
  · rfl
  · exact (exec_controller_eq hi).1
  · obtain ⟨hi2c, -⟩ := i2cSide_eq_of_graft (spiEngineStep_ignoresI2cSide.keeps (s := { s with env := e }) rfl)
    rw [hi2c]
  · exact (i2cEngineStep_move _).rxdr_eq hrxne
  · exact (i2cSlaveStep_controller_eq _).1

/-! `BUSY`. -/

/-- `BUSY` goes with START and STOP from `s` to `s'` (R201). -/
structure BusyFollows (s s' : State) : Prop where
  set : s.i2c.isr.busy = false → s'.i2c.isr.busy = true → s'.traceI2c = s.traceI2c ++ [⟨s'.t, .start⟩]
  clear : s.i2c.isr.busy = true → s'.i2c.isr.busy = false → s'.traceI2c = s.traceI2c ++ [⟨s'.t, .stop⟩]
  start : s'.traceI2c = s.traceI2c ++ [⟨s'.t, .start⟩] → s'.i2c.isr.busy = true
  stop : s'.traceI2c = s.traceI2c ++ [⟨s'.t, .stop⟩] → s'.i2c.isr.busy = false

/-- A step without a bus event that leaves `BUSY` alone. -/
theorem BusyFollows.quiet {s s' : State} (hbusy : s'.i2c.isr.busy = s.i2c.isr.busy) (htrace : s'.traceI2c = s.traceI2c) :
    BusyFollows s s' := by
  constructor <;> simp +contextual [hbusy, htrace]

/-- A step with another bus event that leaves `BUSY` alone. -/
theorem BusyFollows.event {s s' : State} {t : Nat} {ev : I2cEvent} (hbusy : s'.i2c.isr.busy = s.i2c.isr.busy)
    (htrace : s'.traceI2c = s.traceI2c ++ [⟨t, ev⟩]) (hstart : ev ≠ .start) (hstop : ev ≠ .stop) : BusyFollows s s' := by
  constructor <;> simp +contextual [hbusy, htrace, hstart, hstop]

theorem BusyFollows.i2cEngine {s s' : State} (hmove : I2cEngineMove s s') : BusyFollows s s' := by
  cases hmove with
  | none | txLoad | rxStore | stopRequest | unwritten => exact .quiet rfl rfl
  | sendBit | recvBit => exact .event rfl rfl (by simp) (by simp)
  | addrAck | dataAck | masterAck => exact .event (by simp [I2cUnit.listening]) rfl (by simp) (by simp)
  | start hstart hphase =>
    rcases hphase with hp | ⟨hp, -⟩
    · constructor <;> simp [State.busStep, I2cUnit.started, IsrFlags.busTaken, hp]
    · exact .event (t := s.t + (0 + s.peek)) (ev := .restart) (by simp [I2cUnit.started, IsrFlags.tcCleared, hp])
        (by simp [State.busStep, hp]) (by simp) (by simp)
  | stop hphase hfree => constructor <;> simp [State.busStep, I2cUnit.stopped, IsrFlags.stopSent]

theorem BusyFollows.slave (s : State) : BusyFollows s (i2cSlaveStep s) := by
  rcases i2cSlaveStep_cases s with ⟨-, hs⟩ | ⟨-, -, -, hs⟩ | ⟨-, -, hs⟩ <;> rw [hs]
  · exact .quiet rfl rfl
  · exact .event (ev := .stretch) rfl rfl (by simp) (by simp)
  · exact .quiet rfl rfl

/-- Settles O42: the START from `IDLE` and the STOP are the only steps that move `BUSY`, and the only ones with their
events. -/
theorem busyRunsFromStartToStop : Obligations.BusyRunsFromStartToStop := by
  intro s s' hstep
  have hfollows : BusyFollows s s' := by
    obtain ⟨-, -, -, e, rfl | ⟨i, -, hi⟩ | rfl | rfl | rfl⟩ := step_cases hstep
    · exact .quiet rfl rfl
    · obtain ⟨-, hbusy, -, htrace⟩ := exec_controller_eq hi
      exact .quiet hbusy htrace
    · obtain ⟨hi2c, -, -, -, htrace⟩ :=
        i2cSide_eq_of_graft (spiEngineStep_ignoresI2cSide.keeps (s := { s with env := e }) rfl)
      exact .quiet (by rw [hi2c]) htrace
    · have h := BusyFollows.i2cEngine (i2cEngineStep_move { s with env := e })
      exact ⟨h.set, h.clear, h.start, h.stop⟩
    · have h := BusyFollows.slave { s with env := e }
      exact ⟨h.set, h.clear, h.start, h.stop⟩
  exact ⟨hfollows.set, hfollows.clear, hfollows.start, hfollows.stop⟩

/-! `TC`. -/

/-- An engine step that clears `TC` leaves `TC_HOLD` by a repeated START or a STOP request (R203). -/
theorem I2cEngineMove.tc_cleared {s s' : State} (hmove : I2cEngineMove s s') (htc : s.i2c.isr.tc = true)
    (hclear : s'.i2c.isr.tc = false) : s.i2c.phase = .tcHold ∧ (s'.i2c.phase = .addr ∨ s'.i2c.phase = .stopPend) := by
  have hkept (h : s'.i2c.isr.tc = true) : False := by simp [h] at hclear
  cases hmove with
  | none | txLoad | rxStore | unwritten | sendBit | recvBit | stop => exact (hkept htc).elim
  | addrAck => exact (hkept (by simpa [I2cUnit.listening] using htc)).elim
  | dataAck a _ _ =>
    refine (hkept ?_).elim
    rw [State.busStep_i2c]
    unfold I2cUnit.dataAcked
    split
    · exact htc
    · split
      · exact I2cUnit.transferred_tc _ htc
      · exact htc
  | masterAck =>
    refine (hkept ?_).elim
    rw [State.busStep_i2c]
    unfold I2cUnit.acknowledged
    split
    · exact htc
    · exact I2cUnit.transferred_tc _ htc
  | start _ hphase =>
    rcases hphase with hp | ⟨hp, -⟩
    · exact (hkept (by simp [I2cUnit.started, hp, IsrFlags.busTaken, htc])).elim
    · exact ⟨hp, .inl rfl⟩
  | stopRequest hp _ => exact ⟨hp, .inr rfl⟩

/-- Settles O43: no effect of an operation touches `TC`, and of the engine's rules only the two ways out of `TC_HOLD`
clear it. -/
theorem tcIsClearedOnlyByTheEngine : Obligations.TcIsClearedOnlyByTheEngine :=
  ⟨fun _ _ _ h => (exec_controller_eq h).2.2.1, fun s htc hclear => (i2cEngineStep_move s).tc_cleared htc hclear⟩

/-! The host's registers. -/

/-- The end of an operation moves the host's registers as R257 says, or sets a mark and leaves them. -/
theorem Ends.host_cases {i : Instr} {s t : State} (h : Ends i s t) :
    (t.host.r ≠ s.host.r → AnswersInR i) ∧
    (t.host.pc ≠ s.host.pc → (∃ off, i = .hostBns off) ∨
      (i ≠ .hostEnd ∧ t.host.pc = s.host.pc + BitVec.ofNat 32 i.words)) ∧
    (t.host = s.host ∨ (t.faults = s.faults ∧ t.refused = s.refused)) ∧
    t.host.prog = s.host.prog := by
  cases h with
  | advance hend => exact ⟨fun h => absurd rfl h, fun _ => .inr ⟨hend, rfl⟩, .inr ⟨rfl, rfl⟩, rfl⟩
  | answer v hend hi => exact ⟨fun _ => hi, fun _ => .inr ⟨hend, rfl⟩, .inr ⟨rfl, rfl⟩, rfl⟩
  | branch off hi => exact ⟨fun h => absurd rfl h, fun _ => .inl ⟨off, hi⟩, .inr ⟨rfl, rfl⟩, rfl⟩
  | ended => exact ⟨fun h => absurd rfl h, fun h => absurd rfl h, .inr ⟨rfl, rfl⟩, rfl⟩
  | stay | fault | unwritten | verifyFail | refuse =>
    exact ⟨fun h => absurd rfl h, fun h => absurd rfl h, .inl rfl, rfl⟩

/-- Settles O58: no effect touches the host or the marks, so the end of the operation alone says what becomes of them. -/
theorem resultRegisterHasSixWriters : Obligations.ResultRegisterHasSixWriters := by
  intro i s s' h
  obtain ⟨t, ⟨hfaults, hrefused, hhost⟩, hend⟩ := (exec_executes h).last
    (P := fun t => t.faults = s.faults ∧ t.refused = s.refused ∧ t.host = s.host)
    (fun a b heffect ⟨hf, hr, hh⟩ =>
      have ⟨hf', hr', _, hh'⟩ := heffect.marks_eq
      ⟨hf'.trans hf, hr'.trans hr, hh'.trans hh⟩)
    ⟨rfl, rfl, rfl⟩
  obtain ⟨hr, hpc, hmarks, hprog⟩ := hend.host_cases
  rw [hhost, hfaults, hrefused] at hmarks
  rw [hhost] at hr hpc hprog
  refine ⟨hr, hpc, fun hmarked => ?_, hprog⟩
  rcases hmarks with hsame | ⟨hf, hr'⟩
  · exact hsame
  · rcases hmarked with hne | ⟨hset, hclear⟩
    · exact absurd hf hne
    · simp [hr', hclear] at hset

end Sys2Proof.Machine
end

section
/-! Time (spec/10_state.md R24, R44, R45, R47): from a consistent state an effect or an engine step leads to a later one, in
which the traces have grown at their ends. -/

namespace Sys2Proof.Machine

/-- A trace in time order with no stamp after `t`. -/
structure TraceUpTo {ε : Type} (l : List (Stamped ε)) (t : Nat) : Prop where
  stamps : ∀ e ∈ l, e.time ≤ t
  order : (l.map Stamped.time).Pairwise (· ≤ ·)

section
variable {ε : Type} {l : List (Stamped ε)} {t t' : Nat}

theorem TraceUpTo.later (h : TraceUpTo l t) (ht : t ≤ t') : TraceUpTo l t' :=
  ⟨fun e he => Nat.le_trans (h.stamps e he) ht, h.order⟩

/-- A trace grows by an event at the time reached. -/
theorem TraceUpTo.emit (h : TraceUpTo l t) (ht : t ≤ t') (ev : ε) : TraceUpTo (l ++ [⟨t', ev⟩]) t' := by
  have hlater := h.later ht
  constructor
  · intro e he
    rcases List.mem_append.1 he with he | he
    · exact hlater.stamps e he
    · simp [List.mem_singleton.1 he]
  · rw [List.map_append, List.pairwise_append]
    refine ⟨h.order, List.pairwise_singleton _ _, ?_⟩
    simpa using hlater.stamps

end

theorem TimeInv.spiTrace {s : State} (h : TimeInv s) : TraceUpTo s.traceSpi s.t := ⟨h.spiStamps, h.spiOrder⟩

theorem TimeInv.i2cTrace {s : State} (h : TimeInv s) : TraceUpTo s.traceI2c s.t := ⟨h.i2cStamps, h.i2cOrder⟩

/-- The state `t` is consistent in time, no earlier than `s`, and has the traces of `s` with more at their ends. -/
structure Follows (s t : State) : Prop where
  inv : TimeInv t
  later : s.t ≤ t.t
  spiGrows : ∃ l, t.traceSpi = s.traceSpi ++ l
  i2cGrows : ∃ l, t.traceI2c = s.traceI2c ++ l

section
variable {s t u : State}

theorem Follows.refl (h : TimeInv s) : Follows s s := ⟨h, Nat.le_refl _, ⟨[], by simp⟩, ⟨[], by simp⟩⟩

theorem Follows.trans (h : Follows s t) (h' : Follows t u) : Follows s u := by
  obtain ⟨-, hst, ⟨l, hl⟩, ⟨m, hm⟩⟩ := h
  obtain ⟨hinv, htu, ⟨l', hl'⟩, ⟨m', hm'⟩⟩ := h'
  exact ⟨hinv, Nat.le_trans hst htu, ⟨l ++ l', by rw [hl', hl, List.append_assoc]⟩,
    ⟨m ++ m', by rw [hm', hm, List.append_assoc]⟩⟩

/-- A change of what carries no time. -/
theorem Follows.same (h : TimeInv s) (hspi : t.spi.tCsRise = s.spi.tCsRise) (hfall : t.spi.tCsFall = s.spi.tCsFall)
    (hresp : t.dev.resp = s.dev.resp) (ht : t.t = s.t) (htrace : t.traceSpi = s.traceSpi)
    (htrace' : t.traceI2c = s.traceI2c) : Follows s t := by
  refine ⟨?_, Nat.le_of_eq ht.symm, ⟨[], by simp [htrace]⟩, ⟨[], by simp [htrace']⟩⟩
  cases h
  constructor <;> simpa only [hspi, hfall, hresp, ht, htrace, htrace']

/-- Time passes; the SPI trace may grow by an event at the time reached, which stamps what it stamps. -/
theorem Follows.spi (h : TimeInv s) {t' : Nat} (hle : s.t ≤ t') (ht : t.t = t')
    (htrace : t.traceSpi = s.traceSpi ∨ ∃ ev, t.traceSpi = s.traceSpi ++ [⟨t', ev⟩])
    (htrace' : t.traceI2c = s.traceI2c)
    (hrise : t.spi.tCsRise = s.spi.tCsRise ∨ t.spi.tCsRise = t')
    (hfall : t.spi.tCsFall = s.spi.tCsFall ∨ t.spi.tCsFall = some t')
    (hresp : t.dev.resp = s.dev.resp ∨ ∀ e, t.dev.resp = .regRead e ∨ (∃ v, t.dev.resp = .regWrite v e) → e = t') :
    Follows s t := by
  subst ht
  have hspi : TraceUpTo t.traceSpi t.t := by
    rcases htrace with heq | ⟨ev, heq⟩ <;> rw [heq]
    · exact h.spiTrace.later hle
    · exact h.spiTrace.emit hle ev
  have hi2c : TraceUpTo t.traceI2c t.t := htrace' ▸ h.i2cTrace.later hle
  refine ⟨⟨?_, ?_, ?_, hspi.stamps, hi2c.stamps, hspi.order, hi2c.order⟩, hle, ?_, [], by simp [htrace']⟩
  · rcases hrise with heq | heq <;> rw [heq]
    exact Nat.le_trans h.riseStamp hle
  · intro f hf
    rcases hfall with heq | heq
    · exact Nat.le_trans (h.fallStamp f (heq ▸ hf)) hle
    · cases heq.symm.trans hf
      exact Nat.le_refl _
  · intro e he
    rcases hresp with heq | hnow
    · exact Nat.le_trans (h.respStamp e (heq ▸ he)) hle
    · exact Nat.le_of_eq (hnow e he)
  · rcases htrace with heq | ⟨ev, heq⟩
    · exact ⟨[], by simp [heq]⟩
    · exact ⟨_, heq⟩

/-- Time passes, and the I2C trace may grow by an event at the time reached. -/
theorem Follows.i2c (h : TimeInv s) {l : List (Stamped I2cEvent)} (hle : s.t ≤ t.t)
    (hl : l = [] ∨ ∃ ev, l = [⟨t.t, ev⟩]) (htrace : t.traceI2c = s.traceI2c ++ l) (hspi : t.spi = s.spi)
    (hdev : t.dev = s.dev) (htrace' : t.traceSpi = s.traceSpi) : Follows s t := by
  have hspi' : TraceUpTo t.traceSpi t.t := htrace' ▸ h.spiTrace.later hle
  have hi2c : TraceUpTo t.traceI2c t.t := by
    rw [htrace]
    rcases hl with rfl | ⟨ev, rfl⟩
    · simpa using h.i2cTrace.later hle
    · exact h.i2cTrace.emit hle ev
  refine ⟨⟨?_, ?_, ?_, hspi'.stamps, hi2c.stamps, hspi'.order, hi2c.order⟩, hle, ⟨[], by simp [htrace']⟩, l, htrace⟩
  · rw [hspi]
    exact Nat.le_trans h.riseStamp hle
  · rw [hspi]
    exact fun f hf => Nat.le_trans (h.fallStamp f hf) hle
  · rw [hdev]
    exact fun e he => Nat.le_trans (h.respStamp e he) hle

theorem Follows.effect {i : Instr} (heffect : Effect i s t) (h : TimeInv s) : Follows s t := by
  cases heffect with
  | load w tFall v split _ hgap =>
    exact .spi h (Nat.le_trans (Nat.le_max_left _ _) hgap) rfl (.inr ⟨_, rfl⟩) rfl (.inl rfl) (.inr rfl) (.inl rfl)
  | wait least => exact .spi h (Nat.le_add_right _ _) rfl (.inl rfl) rfl (.inl rfl) (.inl rfl) (.inl rfl)
  | _ => exact .same h rfl rfl rfl rfl rfl rfl

theorem Follows.ends {i : Instr} (hends : Ends i s t) (h : TimeInv s) : Follows s t := by
  cases hends <;> exact .same h rfl rfl rfl rfl rfl rfl

/-- The sensor's next answer is stamped with the frame's end. -/
theorem respAfter_stamp {w : Half} {tRise e : Nat}
    (h : respAfter w tRise = .regRead e ∨ ∃ v, respAfter w tRise = .regWrite v e) : e = tRise := by
  unfold respAfter at h
  split at h
  · simpa [eq_comm] using h
  · split at h
    · simpa [eq_comm] using h
    · simp at h

theorem Follows.spiEngine (hmove : SpiEngineMove s t) (h : TimeInv s) : Follows s t := by
  cases hmove with
  | none | unwritten => exact .same h rfl rfl rfl rfl rfl rfl
  | rise | fall =>
    exact .spi h (Nat.le_add_right _ _) rfl (.inr ⟨_, rfl⟩) rfl (.inl rfl) (.inl rfl) (.inl rfl)
  | finish =>
    exact .spi h (Nat.le_add_right _ _) rfl (.inr ⟨_, rfl⟩) rfl (.inr rfl) (.inl rfl) (.inr fun e he => respAfter_stamp he)

theorem Follows.i2cEngine (h : TimeInv s) : Follows s (i2cEngineStep s) := by
  rcases i2cEngineStep_frame s with ⟨u, d, t, l, e, hs, hle, hl⟩ | ⟨hs, -⟩ <;> rw [hs]
  · refine .i2c h hle ?_ rfl rfl rfl rfl
    rcases hl with ⟨hnone, -⟩ | hone
    · exact .inl hnone
    · exact .inr hone
  · exact .same h rfl rfl rfl rfl rfl rfl

theorem Follows.slave (h : TimeInv s) : Follows s (i2cSlaveStep s) := by
  rcases i2cSlaveStep_cases s with ⟨-, hs⟩ | ⟨-, -, -, hs⟩ | ⟨-, -, hs⟩ <;> rw [hs]
  · exact .same h rfl rfl rfl rfl rfl rfl
  · exact .i2c h (Nat.le_refl _) (.inr ⟨_, rfl⟩) rfl rfl rfl rfl
  · exact .refl h

end

/-- Settles O59: every effect, every engine step and every step of the slave leads to a state that follows, and following
is transitive. -/
theorem stepKeepsTimeOrder : Obligations.StepKeepsTimeOrder := by
  intro s s' h hstep
  have hfollows : Follows s s' := by
    refine step_keeps (P := Follows s) (fun t e h => h.trans (.same h.inv rfl rfl rfl rfl rfl rfl))
      (fun _ _ _ heffect h => h.trans (.effect heffect h.inv)) (fun _ _ _ hends h => h.trans (.ends hends h.inv))
      (fun t h => h.trans (.spiEngine (spiEngineStep_move t) h.inv)) (fun _ h => h.trans (.i2cEngine h.inv))
      (fun _ h => h.trans (.slave h.inv)) (.refl h) hstep
  exact ⟨hfollows.inv, hfollows.later, hfollows.spiGrows, hfollows.i2cGrows⟩

end Sys2Proof.Machine
end

section
/-! The SPI operations and the encoder link, case by case (spec/40_spi_transactor.md R110 to R114, spec/41_encoder_link.md
R140 to R153): where an operation begins its frame, where it takes the word, and the fault each begins with. -/

namespace Sys2Proof.Machine

/-! The reset state. -/

/-- Settles O6: the table of R300, element by element, read off the reset state. -/
theorem resetLeavesTheStatedValues : Obligations.ResetLeavesTheStatedValues := by
  unfold Obligations.ResetLeavesTheStatedValues
  intro s
  refine ⟨rfl, rfl, rfl, rfl, rfl, rfl, rfl, rfl, rfl, rfl, rfl, rfl, rfl, rfl, rfl, rfl, rfl, rfl, rfl, rfl, rfl,
    rfl, by decide, rfl, rfl, rfl, rfl, rfl, rfl, rfl, rfl, rfl, rfl, rfl, rfl, rfl, rfl, rfl, rfl, rfl, rfl, rfl,
    rfl, rfl, rfl, rfl, rfl, rfl, rfl, rfl, rfl, rfl, rfl, rfl, rfl, fun prog => rfl⟩

theorem reset_spiInv : SpiInv State.reset := by constructor <;> simp [State.reset]

theorem reset_encInv : EncInv State.reset := by constructor <;> simp [State.reset]

theorem reset_i2cInv : I2cInv State.reset := by
  constructor <;> simp [State.reset, cr2OutOfScope, cr2Start, cr2Stop]

theorem reset_readerInv : ReaderInv State.reset := by constructor <;> simp [State.reset]

theorem reset_timeInv : TimeInv State.reset := by constructor <;> simp [State.reset]

/-- Settles O7: each invariant at reset. -/
theorem resetMeetsInvariants : Obligations.ResetMeetsInvariants :=
  ⟨reset_spiInv, reset_encInv, reset_i2cInv, reset_readerInv, reset_timeInv, .of_unmarked rfl rfl rfl, reset_memory_wf⟩

/-! `SPI_CONFIG`. -/

/-- Settles O10: the contract check, then the operand check, then the one configuration there is. -/
theorem spiConfigFollowsItsRule : Obligations.SpiConfigFollowsItsRule := by
  intro freq mode width s hfaults
  simp only [exec, execSpiConfig, Bool.or_eq_true, bne_iff_ne, State.raise_of_faultless hfaults, or_assoc]
  split
  · rfl
  · split
    · next hbad => exact congrArg _ (if_pos hbad).symm
    · next hgood =>
      obtain ⟨rfl, rfl, rfl⟩ : freq = fSclkReq ∧ mode = spiMode ∧ width = spiWidth := by
        simpa only [not_or, not_not, ne_eq] using hgood
      exact congrArg _ (if_neg hgood).symm

/-! A frame begun. -/

/-- A frame start in the fields it leaves: MOSI carries bit 15 of the word, and neither the time nor the sensor's answer
depends on the word (R111, R125). -/
theorem startFrame_fields (s : State) :
    ∃ tFall v e, max s.t (s.spi.tCsRise + Config.tCsIdle) ≤ tFall ∧
      ∀ w, startFrame w s =
        { s with
          spi := { s.spi with
            tx := some w, rx := some 0#16, bit := 16, done := false, word := some w, csN := false,
            mosi := some (w.getLsbD 15), tCsFall := some tFall, phase := .setup }
          t := tFall
          traceSpi := s.traceSpi ++ [⟨tFall, .csFall⟩]
          dev := { s.dev with out := some v }
          env := e } := by
  obtain ⟨tFall, v, hgap, hstart⟩ := startFrame_spec s
  refine ⟨tFall, v, s.pop.pop.env, hgap, fun w => ?_⟩
  have hmsb : w.msb = w.getLsbD 15 := BitVec.msb_eq_getLsbD_last _
  rw [hstart w, SpiUnit.loaded, hmsb]
  rfl

section
variable {s : State} (w : Half) (k : Half → State → State)

theorem beginFrame_of_idle (hconfigured : s.spi.configured = true) (hidle : s.spi.phase = .idle)
    (hpending : s.spi.pending = false) : beginFrame w s = startFrame w s := by
  simp only [beginFrame, frameCheck_eq_none.2 ⟨hconfigured, hidle, hpending⟩]

theorem splitStart_of_idle (hconfigured : s.spi.configured = true) (hidle : s.spi.phase = .idle)
    (hpending : s.spi.pending = false) :
    splitStart w s = { startFrame w s with spi := { (startFrame w s).spi with pending := true } }.advance 1 := by
  simp only [splitStart, frameCheck_eq_none.2 ⟨hconfigured, hidle, hpending⟩]

/-- With no frame running and no word to take, a blocking transfer begins its frame. -/
theorem spiTransfer_of_new (hidle : s.spi.phase = .idle) (hdone : s.spi.done = false) :
    spiTransfer w k s = beginFrame w s := by
  have hnew : frameInProgress s = false := by simp [frameInProgress, hidle, hdone]
  simp only [spiTransfer, hnew, Bool.false_eq_true, if_false]

/-- During a split transfer a blocking transfer goes to its frame check. -/
theorem spiTransfer_of_pending (hpending : s.spi.pending = true) : spiTransfer w k s = beginFrame w s := by
  have hnew : frameInProgress s = false := by simp [frameInProgress, hpending]
  simp only [spiTransfer, hnew, Bool.false_eq_true, if_false]

/-- While its frame runs a blocking transfer changes nothing. -/
theorem spiTransfer_of_running (hpending : s.spi.pending = false) (hrun : s.spi.phase ≠ .idle) :
    spiTransfer w k s = s := by
  have hprogress : frameInProgress s = true := by simp [frameInProgress, hpending, hrun]
  have hready : frameReady s = false := by simp [frameReady, hrun]
  simp only [spiTransfer, hprogress, hready, Bool.false_eq_true, if_true, if_false]

end

/-- Settles O11: in a configured idle unit both operations begin their frame. -/
theorem blockingTransferBeginsItsFrame : Obligations.BlockingTransferBeginsItsFrame := by
  intro s hconfigured hidle hpending hdone
  obtain ⟨tFall, v, e, hgap, hstart⟩ := startFrame_fields s
  refine ⟨tFall, v, e, hgap, fun i w hi => ?_⟩
  have hexec : exec i s = .next (spiTransfer w returnWord s) := by
    rcases hi with rfl | ⟨rfl, rfl⟩ <;> rfl
  rw [hexec, spiTransfer_of_new w _ hidle hdone, beginFrame_of_idle w hconfigured hidle hpending, hstart w]

/-- Settles O12: with the word there, both operations take it and return it. -/
theorem blockingTransferReturnsTheWord : Obligations.BlockingTransferReturnsTheWord := by
  intro i v s hi hpending hidle hdone hresult
  obtain ⟨w, hexec⟩ : ∃ w, exec i s = .next (spiTransfer w returnWord s) := by
    rcases hi with ⟨w, rfl⟩ | rfl
    · exact ⟨w, rfl⟩
    · exact ⟨wNop, rfl⟩
  rw [hexec, spiTransfer_of_ended w _ hpending hidle hdone hresult]
  rfl

/-- Settles O14: in a configured idle unit both operations begin their frame, mark it pending and go on. -/
theorem splitStartGoesOn : Obligations.SplitStartGoesOn := by
  intro i w s hi hconfigured hidle hpending
  obtain ⟨tFall, v, e, hgap, hstart⟩ := startFrame_fields s
  refine ⟨tFall, v, e, hgap, ?_⟩
  have hexec : exec i s = .next (splitStart w s) := by
    rcases hi with rfl | ⟨rfl, rfl⟩ <;> rfl
  rw [hexec, splitStart_of_idle w hconfigured hidle hpending, hstart w]
  rfl

/-- Settles O15: the contract fault, the await, the word returned. -/
theorem splitFinishFollowsItsRule : Obligations.SplitFinishFollowsItsRule := by
  intro i s hi hfaults
  have hexec : exec i s = .next (splitFinish s) := by
    rcases hi with rfl | rfl <;> rfl
  rw [hexec]
  refine ⟨fun hpending => ?_, fun hpending hwait => ?_, fun v hpending hidle hdone hresult => ?_⟩
  · simp only [splitFinish, hpending, Bool.not_false, if_true, State.raise_of_faultless hfaults]
  · have hready : frameReady s = false := by simpa [frameReady] using hwait
    simp only [splitFinish, hpending, hready, Bool.not_true, Bool.false_eq_true, if_false]
  · have hready : frameReady s = true := by simp [frameReady, hidle, hdone]
    have hfinish : splitFinish s = returnWord v { s with spi := { s.spi with done := false, pending := false } } := by
      simp only [splitFinish, takeResult, hpending, hready, hresult, Bool.not_true, Bool.false_eq_true, if_true, if_false]
    rw [hfinish]
    rfl

/-! A frame that cannot be begun. -/

theorem frameCheck_of_unconfigured {s : State} (h : s.spi.configured = false) : frameCheck s = some .spiUnconfig := by
  simp [frameCheck, h]

theorem frameCheck_of_pending {s : State} (hconfigured : s.spi.configured = true) (hpending : s.spi.pending = true) :
    frameCheck s = some .spiContract := by
  simp [frameCheck, hconfigured, hpending]

theorem beginFrame_of_fault {s : State} {c : FaultCode} (w : Half) (hcheck : frameCheck s = some c)
    (hfaults : s.faults = []) : beginFrame w s = { s with faults := [c] } := by
  simp only [beginFrame, hcheck, State.raise_of_faultless hfaults]

theorem splitStart_of_fault {s : State} {c : FaultCode} (w : Half) (hcheck : frameCheck s = some c)
    (hfaults : s.faults = []) : splitStart w s = { s with faults := [c] } := by
  simp only [splitStart, hcheck, State.raise_of_faultless hfaults]

/-- The four operations that begin a frame fault with its check. -/
theorem exec_of_frameCheck {i : Instr} {s : State} {c : FaultCode}
    (hi : (∃ w, i = .spiXfer w) ∨ (∃ w, i = .spiStart w) ∨ i = .encSample ∨ i = .encStartSample)
    (hfaults : s.faults = []) (hcheck : frameCheck s = some c)
    (hbegin : s.spi.pending = true ∨ (s.spi.phase = .idle ∧ s.spi.done = false)) :
    exec i s = .next { s with faults := [c] } := by
  have hxfer (w : Half) : spiTransfer w returnWord s = { s with faults := [c] } := by
    rcases hbegin with hpending | ⟨hidle, hdone⟩
    · rw [spiTransfer_of_pending w _ hpending, beginFrame_of_fault w hcheck hfaults]
    · rw [spiTransfer_of_new w _ hidle hdone, beginFrame_of_fault w hcheck hfaults]
  have hsplit (w : Half) := splitStart_of_fault w hcheck hfaults
  rcases hi with ⟨w, rfl⟩ | ⟨w, rfl⟩ | rfl | rfl
  · exact congrArg _ (hxfer w)
  · exact congrArg _ (hsplit w)
  · exact congrArg _ (hxfer wNop)
  · exact congrArg _ (hsplit wNop)

/-- Settles O16: the configuration is checked before the split transfer. -/
theorem frameStartFaultsInOrder : Obligations.FrameStartFaultsInOrder := fun _ _ hi hfaults =>
  ⟨fun hunconfigured hbegin => exec_of_frameCheck hi hfaults (frameCheck_of_unconfigured hunconfigured) hbegin,
    fun hconfigured hpending => exec_of_frameCheck hi hfaults (frameCheck_of_pending hconfigured hpending) (.inl hpending)⟩

/-! The filter configuration. -/

theorem exec_encSetFilterUs (f : Half) (s : State) : exec (.encSetFilterUs f) s = .next (filterStep f s) := rfl

section
variable {s : State} (f : Half)

theorem filterStep_none (hfs : s.enc.fs = .none) : filterStep f s = filterBegin s := by
  simp only [filterStep, hfs]

theorem filterStep_rdCmd (hfs : s.enc.fs = .rdCmd) :
    filterStep f s = spiTransfer wRd14 (fun _ s => s.setFs .turn) s := by
  simp only [filterStep, hfs]

theorem filterStep_turn (hfs : s.enc.fs = .turn) : filterStep f s = (s.elapse tTurn).setFs .rdBack := by
  simp only [filterStep, hfs]

theorem filterStep_wrCmd (hfs : s.enc.fs = .wrCmd) :
    filterStep f s = spiTransfer (wWr14 ((filterCode f).extractLsb' 0 8)) (fun _ s => s.setFs .commit) s := by
  simp only [filterStep, hfs]

theorem filterStep_commit (hfs : s.enc.fs = .commit) : filterStep f s = (s.elapse tCommit).setFs .verify := by
  simp only [filterStep, hfs]

end

/-- The entry of the filter sequence: its transient values are forgotten (spec/10_state.md R25). -/
def State.filterEntered (s : State) : State :=
  { s with enc := { s.enc with fs := .rdCmd, current := none, desired := none, final := none } }

theorem filterBegin_eq (s : State) : filterBegin s = beginFrame wRd14 s.filterEntered := rfl

/-- Settles O23: the read command's frame, or the fault of its check. -/
theorem filterBeginsWithReadCommand : Obligations.FilterBeginsWithReadCommand := by
  intro f s hfs
  rw [exec_encSetFilterUs, filterStep_none f hfs, filterBegin_eq]
  refine ⟨fun hconfigured hidle hpending => ?_, fun hunconfigured hfaults => ?_, fun hconfigured hpending hfaults => ?_⟩
  · obtain ⟨tFall, v, e, hgap, hstart⟩ := startFrame_fields s.filterEntered
    have hbegin := beginFrame_of_idle (s := s.filterEntered) wRd14 hconfigured hidle hpending
    exact ⟨tFall, v, e, hgap, congrArg _ (hbegin.trans (hstart wRd14))⟩
  · have hcheck := frameCheck_of_unconfigured (s := s.filterEntered) hunconfigured
    exact congrArg _ (beginFrame_of_fault wRd14 hcheck hfaults)
  · have hcheck := frameCheck_of_pending (s := s.filterEntered) hconfigured hpending
    exact congrArg _ (beginFrame_of_fault wRd14 hcheck hfaults)

/-- Settles O24: the command frames' ends, the two waits, and the zero word's frames. -/
theorem filterTakesItsStepsInOrder : Obligations.FilterTakesItsStepsInOrder := by
  intro f s
  rw [exec_encSetFilterUs]
  refine ⟨fun p q v hpq hfs hpending hidle hdone hresult => ?_, fun hfs => ?_, fun hfs => ?_,
    fun hfs hconfigured hidle hpending hdone => ?_⟩
  · rcases hpq with ⟨rfl, rfl⟩ | ⟨rfl, rfl⟩
    · rw [filterStep_rdCmd f hfs, spiTransfer_of_ended _ _ hpending hidle hdone hresult]
      rfl
    · rw [filterStep_wrCmd f hfs, spiTransfer_of_ended _ _ hpending hidle hdone hresult]
      rfl
  · exact ⟨tTurn + s.peek, s.pop.env, Nat.le_add_right _ _, congrArg _ (filterStep_turn f hfs)⟩
  · exact ⟨tCommit + s.peek, s.pop.env, Nat.le_add_right _ _, congrArg _ (filterStep_commit f hfs)⟩
  · obtain ⟨tFall, v, e, hgap, hstart⟩ := startFrame_fields s
    have hstep : filterStep f s = startFrame wNop s := by
      rcases hfs with hfs | hfs
      · rw [filterStep_rdBack f hfs, spiTransfer_of_new _ _ hidle hdone, beginFrame_of_idle _ hconfigured hidle hpending]
      · rw [filterStep_verify f hfs, spiTransfer_of_new _ _ hidle hdone, beginFrame_of_idle _ hconfigured hidle hpending]
    exact ⟨tFall, v, e, hgap, congrArg _ (hstep.trans (hstart wNop))⟩

/-- Every code of the table fits a byte, so the write command carries it whole (R144, R149). -/
theorem wWr14_filterCode (f : Half) : wWr14 ((filterCode f).extractLsb' 0 8) = 0x8E00#16 ||| filterCode f := by
  unfold filterCode
  repeat' split
  all_goals rfl

/-- The word `v` read back has been taken and the write has been decided (R147, R149). -/
def State.writeDecided (f v : Half) (s : State) : State :=
  { s with
    spi := { s.spi with done := false }
    enc := { s.enc with fs := .wrCmd, current := some (upperByte v), desired := some (filterCode f) } }

/-- A read-back that does not match goes on to the write command's frame (R149). -/
theorem filterReadBack_of_mismatch {f v : Half} (s : State) (hne : filterCode f ≠ upperByte v) :
    filterReadBack f v { s with spi := { s.spi with done := false } } =
      beginFrame (0x8E00#16 ||| filterCode f) (s.writeDecided f v) := by
  simp only [filterReadBack, filterDecide, State.setFs_enc, hne, if_false, wWr14_filterCode]
  rfl

/-- Settles O26: the frame has ended, its word is taken, and it does not match. -/
theorem filterMismatchWrites : Obligations.FilterMismatchWrites := by
  intro f v s hfs hconfigured hpending hidle hdone hresult hne
  obtain ⟨tFall, a, e, hgap, hstart⟩ := startFrame_fields (s.writeDecided f v)
  refine ⟨tFall, a, e, hgap, ?_⟩
  have hmosi : (0x8E00#16 ||| filterCode f).getLsbD 15 = true := by simp
  have hbegin := beginFrame_of_idle (s := s.writeDecided f v) (0x8E00#16 ||| filterCode f) hconfigured hidle hpending
  rw [exec_encSetFilterUs, filterStep_rdBack f hfs, spiTransfer_of_ended _ _ hpending hidle hdone hresult,
    filterReadBack_of_mismatch s hne, hbegin, hstart, hmosi]
  rfl

/-- A verification that passes stores the final value and ends the operation (R150). -/
theorem filterVerify_of_match {v : Half} {s : State} (hdesired : s.enc.desired = some (upperByte v)) :
    filterVerify v s = filterEnd { s with enc := { s.enc with final := some (upperByte v) } } := by
  simp only [filterVerify, hdesired, if_true]

/-- Settles O27: the frame has ended, its word is taken, and it verifies. -/
theorem filterVerifyPasses : Obligations.FilterVerifyPasses := by
  intro f v s hfs hpending hidle hdone hresult hdesired
  rw [exec_encSetFilterUs, filterStep_verify f hfs, spiTransfer_of_ended _ _ hpending hidle hdone hresult]
  exact congrArg _ (filterVerify_of_match hdesired)

/-! The sensor's answer after a wait. -/

/-- The upper byte of an answer that carries register 14. -/
theorem extract_upper_append (a b : Byte) : (a ++ b).extractLsb' 8 8 = a := by
  apply BitVec.eq_of_toNat_eq
  have := a.isLt
  have := b.isLt
  rw [BitVec.extractLsb'_toNat, Nat.shiftRight_eq_div_pow, toNat_append_add]
  omega

/-- A command whose time has been waited out by now (R152). -/
def AnswerDue (s : State) : Prop :=
  (∃ e, s.dev.resp = .regRead e ∧ e + tTurn ≤ s.t) ∨ (∃ v e, s.dev.resp = .regWrite v e ∧ e + tCommit ≤ s.t)

theorem deviceFrameStart_of_due {s : State} (hdue : AnswerDue s) : deviceFrameStart s.t s = deviceRegAnswer s := by
  rcases hdue with ⟨e, hresp, hwait⟩ | ⟨v, e, hresp, hwait⟩
  · have hgap : s.t - e ≥ tTurn := by omega
    simp only [deviceFrameStart, hresp, hgap, if_true]
  · have hgap : s.t - e ≥ tCommit := by omega
    simp only [deviceFrameStart, hresp, hgap, if_true]

/-- A later state of the same sensor. -/
theorem AnswerDue.later {s t : State} (hdue : AnswerDue s) (hresp : t.dev.resp = s.dev.resp) (hle : s.t ≤ t.t) :
    AnswerDue t := by
  rcases hdue with ⟨e, hr, hwait⟩ | ⟨v, e, hr, hwait⟩
  · exact .inl ⟨e, hresp.trans hr, Nat.le_trans hwait hle⟩
  · exact .inr ⟨v, e, hresp.trans hr, Nat.le_trans hwait hle⟩

/-- A frame begun when the answer is due is answered with register 14 in the upper byte (R151, R152). -/
theorem startFrame_of_due {s : State} (w : Half) (hdue : AnswerDue s) :
    ∃ a, (startFrame w s).spi.phase = .setup ∧ (startFrame w s).dev.out = some a ∧ a.extractLsb' 8 8 = s.dev.reg14 := by
  have hle : s.t ≤ max s.t (s.spi.tCsRise + Config.tCsIdle) + s.peek :=
    Nat.le_trans (Nat.le_max_left _ _) (Nat.le_add_right _ _)
  have hstart : startFrame w s = _ := deviceFrameStart_of_due (hdue.later rfl hle)
  rw [hstart]
  exact ⟨_, rfl, rfl, extract_upper_append _ _⟩

/-- Settles O29: the wait has passed when the next frame begins. -/
theorem filterAnswersComeInTime : Obligations.FilterAnswersComeInTime := by
  intro f s e hpast hconfigured hidle hpending hdone hfs
  obtain ⟨least, p, hp, hwait, hdue⟩ : ∃ least p, (p = .rdBack ∨ p = .verify) ∧
      filterStep f s = (s.elapse least).setFs p ∧ AnswerDue ((s.elapse least).setFs p) := by
    rcases hfs with ⟨hfs, hresp⟩ | ⟨v, hfs, hresp⟩
    · refine ⟨tTurn, .rdBack, .inl rfl, filterStep_turn f hfs, .inl ⟨e, hresp, ?_⟩⟩
      simp only [State.setFs_t, State.elapse_t]
      omega
    · refine ⟨tCommit, .verify, .inr rfl, filterStep_commit f hfs, .inr ⟨v, e, hresp, ?_⟩⟩
      simp only [State.setFs_t, State.elapse_t]
      omega
  have hbegin (k : Half → State → State) :
      spiTransfer wNop k ((s.elapse least).setFs p) = startFrame wNop ((s.elapse least).setFs p) := by
    rw [spiTransfer_of_new (s := (s.elapse least).setFs p) _ _ hidle hdone,
      beginFrame_of_idle (s := (s.elapse least).setFs p) _ hconfigured hidle hpending]
  have hnext : filterStep f ((s.elapse least).setFs p) = startFrame wNop ((s.elapse least).setFs p) := by
    rcases hp with rfl | rfl
    · exact (filterStep_rdBack f rfl).trans (hbegin _)
    · exact (filterStep_verify f rfl).trans (hbegin _)
  obtain ⟨a, hsetup, hout, hupper⟩ := startFrame_of_due wNop hdue
  exact ⟨_, _, a, congrArg Host.Outcome.next hwait, congrArg Host.Outcome.next hnext, hsetup, hout, hupper⟩

end Sys2Proof.Machine
end

section
/-! The controller's registers and the polling reader, case by case (spec/42_i2c_transactor.md R170 to R182,
spec/43_i2c_reader.md R221 to R230). -/

namespace Sys2Proof.Machine

/-! Register reads and the `ISR` word. -/

/-- Settles O31: the five registers that can be read, and the refusal of every other offset. -/
theorem registerReadsFollowTheirRules : Obligations.RegisterReadsFollowTheirRules := by
  intro off s
  by_cases hcr2 : off = 0x04#8
  · subst hcr2; rfl
  by_cases hisr : off = 0x18#8
  · subst hisr; rfl
  by_cases hicr : off = 0x1C#8
  · subst hicr; rfl
  by_cases hrxdr : off = 0x24#8
  · subst hrxdr; rfl
  by_cases htxdr : off = 0x28#8
  · subst htxdr; rfl
  have hrefused : regRead off s = .error .access := by
    simp only [regRead, offCr2, offIsr, offIcr, offRxdr, offTxdr, hcr2, hisr, hicr, hrxdr, htxdr, if_false]
  simp only [exec, execI2cRegRd, hrefused, hcr2, hisr, hicr, hrxdr, htxdr, if_false]
  rfl

/-- Settles O32: below bit 16 one bit at a time; no field stands above. -/
theorem isrWordHasTheStatedBits : Obligations.IsrWordHasTheStatedBits := by
  intro f k
  change BitVec.getLsbD (w := 16 + 1 + 8 + 1 + 1 + 1 + 1 + 1 + 1 + 1) f.word k = _
  simp only [IsrFlags.word, BitVec.getLsbD_append, BitVec.getLsbD_ofBool, BitVec.getLsbD_zero]
  by_cases hk : k < 16
  · interval_cases k <;> simp
  · obtain ⟨n, rfl⟩ : ∃ n, k = n + 16 := ⟨k - 16, by omega⟩
    simp [Nat.add_sub_assoc]

/-! Register writes. -/

/-- The transfer under way leaves no room for a new request (R173): outside the idle engine, its hold and its closing
phases. -/
abbrev transferActive (s : State) : Prop :=
  s.i2c.phase ≠ .idle ∧ s.i2c.phase ≠ .tcHold ∧
    ¬(s.i2c.phase = .stopPend ∨ (s.i2c.phase = .rxAck ∧ s.i2c.cnt = 0))

theorem transferActive_iff {s : State} :
    (s.i2c.phase != .idle && s.i2c.phase != .tcHold && !engClosing s) = true ↔ transferActive s := by
  simp only [transferActive, engClosing, Bool.and_eq_true, bne_iff_ne, Bool.not_eq_true', Bool.or_eq_false_iff,
    beq_eq_false_iff_ne, Bool.and_eq_false_imp, beq_iff_eq, not_or, not_and, and_assoc, ne_eq]

/-- The checks of a `CR2` write, in their order (R173). -/
theorem cr2WriteCheck_eq (v : Word) (s : State) :
    cr2WriteCheck v s =
      if cr2OutOfScope v then some .outOfScope
      else if transferActive s ∨ cr2Start s.i2c.cr2 ∨ cr2Stop s.i2c.cr2 then some .busyWrite
      else if cr2Start v ∧ cr2Stop v then some .outOfScope
      else if cr2Start v ∧ cr2Nbytes v = 0#8 then some .outOfScope
      else if cr2Stop v ∧ s.i2c.phase ≠ .tcHold then some .outOfScope
      else none := by
  simp only [cr2WriteCheck, Bool.or_eq_true, transferActive_iff, or_assoc]
  simp only [Bool.and_eq_true, beq_iff_eq, bne_iff_ne]

theorem cr2OutOfScope_iff {v : Word} :
    cr2OutOfScope v = true ↔
      v.getLsbD 11 ∨ v.getLsbD 12 ∨ v.getLsbD 15 ∨ v.getLsbD 24 ∨ v.getLsbD 26 ∨ v.extractLsb' 27 5 ≠ 0#5 := by
  simp only [cr2OutOfScope, Bool.or_eq_true, bne_iff_ne, or_assoc]

/-- What a checked operation leaves: the refusal of a failing check, or the operation's own next state. -/
def State.refusedOr (t s : State) : Option RefusalCode → State
  | some c => s.refuse c
  | none => t

theorem exec_i2cRegWr_cr2 (v : Word) (s : State) :
    exec (.i2cRegWr 0x04#8 v) s =
      .next (State.refusedOr (State.advance 2 { s with i2c := { s.i2c with cr2 := v } }) s (cr2WriteCheck v s)) := by
  change (match regWrite offCr2 v s with | .error c => _ | .ok s' => _) = _
  simp only [regWrite, if_true, writeCr2]
  cases cr2WriteCheck v s <;> rfl

/-- Settles O33: the outcome of each check of the write. -/
theorem cr2WriteFollowsItsRule : Obligations.Cr2WriteFollowsItsRule := by
  intro v s
  rw [exec_i2cRegWr_cr2, cr2WriteCheck_eq]
  simp only [apply_ite (State.refusedOr _ s), cr2OutOfScope_iff]
  rfl

/-- Settles O34: `ICR`, `TXDR`, and the refusal of every other offset. -/
theorem otherRegisterWritesFollowTheirRules : Obligations.OtherRegisterWritesFollowTheirRules := by
  intro off v s hcr2
  by_cases hicr : off = 0x1C#8
  · subst hicr
    change Host.Outcome.next (State.advance 2 (writeIcr v s)) = _
    simp only [writeIcr, IsrFlags.icrWrite, State.advance]
    cases v.getLsbD 4 <;> cases v.getLsbD 5 <;> simp
  by_cases htxdr : off = 0x28#8
  · subst htxdr
    have hwrite : regWrite 0x28#8 v s = writeTxdr v s := rfl
    by_cases hupper : v.extractLsb' 8 24 = 0#24
    · simp only [exec, execI2cRegWr, hwrite, writeTxdr, hupper]
      rfl
    · simp only [exec, execI2cRegWr, hwrite, writeTxdr, bne_iff_ne, ne_eq, hupper, not_false_eq_true, if_true]
      rfl
  have hrefused : regWrite off v s = .error .access := by
    simp only [regWrite, offCr2, offIcr, offTxdr, hcr2, hicr, htxdr, if_false]
  simp only [exec, execI2cRegWr, hrefused, hicr, htxdr, if_false]
  rfl

/-! The start of a read. -/

/-- A write of `CR2` that requests a START and no STOP is refused by the activity of the controller alone (R173). -/
theorem cr2WriteCheck_of_start {v : Word} {s : State} (hscope : cr2OutOfScope v = false) (hstart : cr2Start v = true)
    (hstop : cr2Stop v = false) (hcount : cr2Nbytes v ≠ 0#8) :
    cr2WriteCheck v s =
      if transferActive s ∨ cr2Start s.i2c.cr2 ∨ cr2Stop s.i2c.cr2 then some .busyWrite else none := by
  simp only [cr2WriteCheck_eq, hscope, hstart, hstop, hcount, Bool.false_eq_true, and_false, false_and, if_false]

theorem cr2WriteCheck_cr2Wr (slave : BitVec 7) (s : State) :
    cr2WriteCheck (cr2Wr slave) s =
      if transferActive s ∨ cr2Start s.i2c.cr2 ∨ cr2Stop s.i2c.cr2 then some .busyWrite else none := by
  obtain ⟨hscope, hstart, hstop, hcount⟩ := cr2Wr_facts slave
  exact cr2WriteCheck_of_start hscope hstart hstop (by rw [hcount]; decide)

theorem cr2WriteCheck_cr2Rd (slave : BitVec 7) {len : Byte} (hlen : len ≠ 0#8) (s : State) :
    cr2WriteCheck (cr2Rd slave len) s =
      if transferActive s ∨ cr2Start s.i2c.cr2 ∨ cr2Stop s.i2c.cr2 then some .busyWrite else none := by
  obtain ⟨hscope, hstart, hstop, hcount⟩ := cr2Rd_facts slave len
  exact cr2WriteCheck_of_start hscope hstart hstop (by rwa [hcount])

/-- A register write to `CR2` is refused by its checks, or stores the value. -/
theorem regWrite_cr2 (v : Word) (s : State) :
    regWrite offCr2 v s =
      match cr2WriteCheck v s with
      | some c => .error c
      | none => .ok { s with i2c := { s.i2c with cr2 := v } } := rfl

/-- The normal start (R225): refused with its `CR2` write, or done. -/
theorem startTransaction_of_check {slave : BitVec 7} {reg : Byte} {buf : Word} {len : Byte} {s : State} :
    startTransaction slave reg buf len s =
      match cr2WriteCheck (cr2Wr slave) s with
      | some c => .error c
      | none => .ok { s with
          i2c := { s.i2c with cr2 := cr2Wr slave, txdr := reg, isr := s.i2c.isr.txdrWritten }
          rd := { s.rd with
            slave := some slave, reg := some reg, buf := some buf, len := some len, state := .sentRegister } } := by
  have htxdr (u : State) : regWrite offTxdr (reg.setWidth 32) u =
      .ok { u with i2c := { u.i2c with txdr := reg, isr := u.i2c.isr.txdrWritten } } := by
    change writeTxdr (reg.setWidth 32) u = _
    rw [writeTxdr, upperBits_zext, lowByte_zext]
    rfl
  have hstored : (storeRequest slave reg buf len s).i2c = s.i2c := rfl
  rw [startTransaction_eq, regWrite_cr2, cr2WriteCheck_congr hstored]
  cases cr2WriteCheck (cr2Wr slave) s with
  | some c => rfl
  | none =>
    simp only [Except.bind, htxdr, Except.map]
    rfl

/-- Settles O46: the four exits of the operation in their order, and the normal start. -/
theorem startReadFollowsItsRule : Obligations.StartReadFollowsItsRule := by
  intro slave reg buf len s
  simp only [exec, execI2cStartRead, startTransaction_of_check, cr2WriteCheck_cr2Wr]
  by_cases hlen : len = 0#8
  · simp only [hlen, if_true]; rfl
  by_cases hidle : s.rd.state = .idle
  · cases hstart : s.i2c.cr2.getLsbD 13 with
    | true => simp only [hlen, hidle, cr2Start, hstart, ne_eq, not_true_eq_false, if_false, if_true]; rfl
    | false =>
      simp only [hlen, hidle, cr2Start, cr2Stop, hstart, ne_eq, not_true_eq_false, Bool.false_eq_true, false_or, if_false,
        or_comm (a := transferActive s)]
      split_ifs <;> rfl
  · simp only [hlen, if_false, ne_eq, hidle, not_false_eq_true, if_true]; rfl

/-! The poll. -/

theorem exec_i2cPoll_of_blocked {s : State} (h : pollBlocked s = true) : exec .i2cPoll s = .next s := by
  simp only [exec, execI2cPoll, h, if_true]

/-- A `Poll` that is not held runs the per-state action, and then the NACK override, from one sample (R226). -/
theorem exec_i2cPoll_of_ok {s t : State} (hfree : pollBlocked s = false) (h : pollAction s.i2c.isr s = .ok t) :
    exec .i2cPoll s = .next ((pollNack s.i2c.isr t).advance 1) := by
  simp only [exec, execI2cPoll, hfree, h, Bool.false_eq_true, if_false]

theorem exec_i2cPoll_of_error {s : State} {x : Halt} (hfree : pollBlocked s = false)
    (h : pollAction s.i2c.isr s = .error x) : exec .i2cPoll s = .next (s.halt x) := by
  simp only [exec, execI2cPoll, hfree, h, Bool.false_eq_true, if_false]

theorem pollBlocked_of_not_reading {s : State} (h : s.rd.state = .readingData → s.i2c.isr.rxne = false) :
    pollBlocked s = false := by
  by_cases hstate : s.rd.state = .readingData
  · simp only [pollBlocked, h hstate, Bool.and_false, Bool.false_and]
  · simp only [pollBlocked, beq_eq_false_iff_ne.2 hstate, Bool.false_and]

/-- With a byte to copy, the poll is held exactly where memory does not admit the byte's address (spec/20_memory.md R62). -/
theorem pollBlocked_of_reading {s : State} {buf : Word} {o : Nat} (hstate : s.rd.state = .readingData)
    (hrxne : s.i2c.isr.rxne = true) (hbuf : s.rd.buf = some buf) (ho : s.rd.offset = some o) :
    pollBlocked s = !s.mem.admits (buf.toNat + o) := by
  simp [pollBlocked, readerTarget, Reader.bufVal, Reader.offsetVal, hstate, hrxne, hbuf, ho]

theorem pollNack_of_clear {f : IsrFlags} (h : f.nackf = false) (s : State) : pollNack f s = s := by
  simp only [pollNack, h, Bool.false_eq_true, if_false]

/-- `TC` sampled in `SentRegister`: the read phase's `CR2` write decides (R227). -/
theorem pollAction_of_sent {f : IsrFlags} {s : State} {slave : BitVec 7} {len : Byte}
    (hstate : s.rd.state = .sentRegister) (htc : f.tc = true) (hslave : s.rd.slave = some slave)
    (hlen : s.rd.len = some len) :
    pollAction f s =
      match cr2WriteCheck (cr2Rd slave len) s with
      | some c => .error (.refuse c)
      | none => .ok { s with
          i2c := { s.i2c with cr2 := cr2Rd slave len }
          rd := { s.rd with offset := some 0, state := .readingData } } := by
  have hslaveVal : s.rd.slaveVal = some slave := by simp [Reader.slaveVal, hstate, hslave]
  have hlenVal : s.rd.lenVal = some len := by simp [Reader.lenVal, hstate, hlen]
  simp only [pollAction, hstate, htc, if_true, pollSentRegister, hslaveVal, hlenVal, regWrite_cr2]
  cases cr2WriteCheck (cr2Rd slave len) s <;> rfl

/-- `RXNE` sampled in `ReadingData`: the byte is copied and counted (R228). -/
theorem pollAction_of_reading {f : IsrFlags} {s : State} {buf : Word} {len : Byte} {o : Nat}
    (hstate : s.rd.state = .readingData) (hrxne : f.rxne = true) (hbuf : s.rd.buf = some buf)
    (hlen : s.rd.len = some len) (ho : s.rd.offset = some o) :
    pollAction f s = .ok { s with
      mem := s.mem.write (buf.toNat + o) s.i2c.rxdr
      i2c := { s.i2c with isr := { s.i2c.isr with rxne := false } }
      rd := { s.rd with
        offset := some (o + 1), state := if o + 1 = len.toNat then .complete else .readingData } } := by
  simp only [pollAction, hstate, hrxne, if_true, pollReadingData, Reader.bufVal, Reader.lenVal, Reader.offsetVal, hbuf,
    hlen, ho, reduceCtorEq, if_false, readRxdr, lowByte_zext, IsrFlags.rxdrRead]

/-- Where the sample shows no flag that the reader's state waits for, the action is none (R229). -/
theorem pollAction_of_nothing {f : IsrFlags} {s : State} (htc : s.rd.state = .sentRegister → f.tc = false)
    (hrxne : s.rd.state = .readingData → f.rxne = false) : pollAction f s = .ok s := by
  cases hstate : s.rd.state with
  | idle => simp only [pollAction, hstate]
  | sentRegister => simp only [pollAction, hstate, htc hstate, Bool.false_eq_true, if_false]
  | readingData => simp only [pollAction, hstate, hrxne hstate, Bool.false_eq_true, if_false]
  | complete => simp only [pollAction, hstate]
  | error => simp only [pollAction, hstate]

/-- Settles O47: the read phase's `CR2` write is admitted in the engine's hold, and refused while a request is pending. -/
theorem pollProgramsTheReadPhase : Obligations.PollProgramsTheReadPhase := by
  intro slave len s hstate htc hslave hlen hne
  have hfree : pollBlocked s = false := pollBlocked_of_not_reading (fun h => by simp [hstate] at h)
  have haction := pollAction_of_sent hstate htc hslave hlen
  rw [cr2WriteCheck_cr2Rd slave hne] at haction
  refine ⟨fun hnack hphase hstart hstop => ?_, fun hbusy => ?_⟩
  · have hadmitted : ¬(transferActive s ∨ cr2Start s.i2c.cr2 = true ∨ cr2Stop s.i2c.cr2 = true) := by
      rintro (hactive | hset | hset)
      · exact hactive.2.1 hphase
      · exact absurd (hstart.symm.trans hset) (by decide)
      · exact absurd (hstop.symm.trans hset) (by decide)
    rw [if_neg hadmitted] at haction
    rw [exec_i2cPoll_of_ok hfree haction, pollNack_of_clear hnack]
    rfl
  · rw [if_pos (.inr hbusy)] at haction
    rw [exec_i2cPoll_of_error hfree haction]
    rfl

/-- Settles O48: the byte copied, by the laws of memory. -/
theorem pollCopiesOneByte : Obligations.PollCopiesOneByte := by
  intro buf len o s hstate hrxne hnack hbuf hlen ho hadmits
  have hfree : pollBlocked s = false := by rw [pollBlocked_of_reading hstate hrxne hbuf ho, hadmits]; rfl
  have haction := pollAction_of_reading hstate hrxne hbuf hlen ho
  refine ⟨_, ?_, Memory.read_write_same _ _ s.mem, Memory.write_regions _ _ s.mem,
    fun a ha => Memory.read_write_other ha _ s.mem⟩
  rw [exec_i2cPoll_of_ok hfree haction, pollNack_of_clear hnack]
  rfl

/-- Settles O49: neither the action nor the override has anything to do. -/
theorem pollWithNothingToDoOnlyAdvances : Obligations.PollWithNothingToDoOnlyAdvances := by
  intro s hnack htc hrxne
  rw [exec_i2cPoll_of_ok (pollBlocked_of_not_reading hrxne) (pollAction_of_nothing htc hrxne), pollNack_of_clear hnack]
  rfl

/-- Settles O51: the poll is held, and a held command takes the host's step away. -/
theorem pollIsStuckOnUnadmittedMemory : Obligations.PollIsStuckOnUnadmittedMemory := by
  intro buf o s hstate hrxne hbuf ho hadmits
  have hblocked : pollBlocked s = true := by rw [pollBlocked_of_reading hstate hrxne hbuf ho, hadmits]; rfl
  refine ⟨exec_i2cPoll_of_blocked hblocked, fun hfetch => ?_⟩
  rw [enabled_host_of_fetch_ok hfetch, held, hblocked, Bool.not_true, Bool.and_false]

/-! The NACK override. -/

/-- The state with `NACKF` clear. -/
def State.clearNack (s : State) : State :=
  { s with i2c := { s.i2c with isr := { s.i2c.isr with nackf := false } } }

/-- The write of `ICR` by which the override clears the flag (R230, spec/30_encoding.md R97). -/
theorem writeIcr_icrNackcf (s : State) : writeIcr icrNackcf s = s.clearNack := by
  have hfour : icrNackcf.getLsbD 4 = true := by decide
  have hfive : icrNackcf.getLsbD 5 = false := by decide
  simp only [writeIcr, IsrFlags.icrWrite, hfour, hfive, State.clearNack, Bool.not_true, Bool.and_false, Bool.not_false,
    Bool.and_true]

theorem pollSentRegister_clearNack (s : State) :
    pollSentRegister s.clearNack = (pollSentRegister s).map State.clearNack := by
  have hrd : s.clearNack.rd = s.rd := rfl
  have hcheck (v : Word) : cr2WriteCheck v s.clearNack = cr2WriteCheck v s := rfl
  unfold pollSentRegister
  rw [hrd]
  simp only [regWrite_cr2, hcheck]
  cases s.rd.slaveVal with
  | none => rfl
  | some slave =>
    cases s.rd.lenVal with
    | none => rfl
    | some len => dsimp only; cases cr2WriteCheck (cr2Rd slave len) s <;> rfl

theorem pollReadingData_clearNack (s : State) :
    pollReadingData s.clearNack = (pollReadingData s).map State.clearNack := by
  have hrd : s.clearNack.rd = s.rd := rfl
  unfold pollReadingData
  rw [hrd]
  cases s.rd.bufVal <;> cases s.rd.lenVal <;> cases s.rd.offsetVal <;> rfl

/-- The per-state action neither samples nor changes `NACKF`. -/
theorem pollAction_clearNack (f : IsrFlags) (s : State) :
    pollAction { f with nackf := false } s.clearNack = (pollAction f s).map State.clearNack := by
  have hrd : s.clearNack.rd = s.rd := rfl
  unfold pollAction
  rw [hrd]
  cases s.rd.state with
  | sentRegister =>
    cases htc : f.tc with
    | true => exact pollSentRegister_clearNack s
    | false => rfl
  | readingData =>
    cases hrxne : f.rxne with
    | true => exact pollReadingData_clearNack s
    | false => rfl
  | idle => rfl
  | complete => rfl
  | error => rfl

/-- A halt leaves the `pc`. -/
theorem halt_pc (x : Halt) (s : State) : (s.halt x).host.pc = s.host.pc := by
  cases x <;> rfl

theorem word_ne_add_one (x : Word) : x ≠ x + 1#32 := by bv_omega

/-- Settles O50: a `Poll` that moved the `pc` ran its action, which does the same with `NACKF` set; the override follows. -/
theorem nackOverridesThePoll : Obligations.NackOverridesThePoll := by
  intro s t hnack hclear hpc _ _
  change exec .i2cPoll s.clearNack = .next t at hclear
  have hblocked : pollBlocked s.clearNack = pollBlocked s := rfl
  have hsample : pollAction s.clearNack.i2c.isr s.clearNack = (pollAction s.i2c.isr s).map State.clearNack :=
    pollAction_clearNack s.i2c.isr s
  cases hfree : pollBlocked s with
  | true =>
    rw [exec_i2cPoll_of_blocked (hblocked.trans hfree)] at hclear
    cases hclear
    exact absurd hpc (word_ne_add_one _)
  | false =>
    cases haction : pollAction s.i2c.isr s with
    | error x =>
      rw [haction] at hsample
      rw [exec_i2cPoll_of_error (hblocked.trans hfree) hsample] at hclear
      cases hclear
      rw [halt_pc] at hpc
      exact absurd hpc (word_ne_add_one _)
    | ok u =>
      rw [haction] at hsample
      rw [exec_i2cPoll_of_ok (hblocked.trans hfree) hsample, pollNack_of_clear rfl] at hclear
      cases hclear
      rw [exec_i2cPoll_of_ok hfree haction, pollNack, if_pos hnack, writeIcr_icrNackcf]
      rfl

end Sys2Proof.Machine
end

section
/-! A whole frame of the SPI engine (spec/40_spi_transactor.md R124): sixteen bits, each a rising and a falling edge, and
then the frame end. -/

namespace Sys2Proof.Machine

/-- The events of one bit of a frame: `i` counts from the most significant (spec/30_encoding.md R102). -/
def bitEvents (w v : Half) (i : Nat) : List SpiEvent := [.sckRise (w.getLsbD (15 - i)) (v.getLsbD (15 - i)), .sckFall]

theorem frameEvents_eq (w v : Half) :
    frameEvents w v = [.csFall] ++ (List.range 16).flatMap (bitEvents w v) ++ [.csRise] := rfl

/-- The least time of a frame's first `k` bits: the first edge waits for `T_CSS`, every other one for `HALF` (R121). -/
def bitsLeast : Nat → Nat
  | 0 => 0
  | k + 1 => bitsLeast k + (if k = 0 then Config.tCss else half) + half

theorem bitsLeast_frame : bitsLeast 16 = Config.tCss + 31 * half := by
  simp only [bitsLeast, OfNat.ofNat_ne_zero, if_false, if_true, one_ne_zero]
  omega

/-- 31 half periods of at least 41 ns each (R121). -/
theorem frameLeast_ge : Config.tCss + Config.tCsh + 1271 ≤ Config.tCss + 31 * half + Config.tCsh := by
  have := half_ge
  omega

/-- Shifting in bit `m` of the word that the sensor sends goes on from its bits above `m` to those from `m` on. -/
theorem rxShiftIn_ushiftRight (v : Half) (m : Nat) : rxShiftIn (v >>> (m + 1)) (v.getLsbD m) = v >>> m := by
  apply BitVec.eq_of_getLsbD_eq
  intro i hi
  rcases i with _ | i
  · simp [rxShiftIn, -BitVec.getLsbD_eq_getElem]
  · have : m + 1 + i = m + (i + 1) := by omega
    simp [rxShiftIn, this, -BitVec.getLsbD_eq_getElem, hi]

/-- The state of a frame with word `w` out and word `v` in after its first `k` bits, SCLK low again: `old` are the events
before it and `t₀` is the time at which it began. -/
structure MidFrame (w v : Half) (old : List SpiEvent) (t₀ k : Nat) (s : State) : Prop where
  phase : s.spi.phase = if k = 0 then .setup else if k < 16 then .shift else .hold
  sclk : s.spi.sclk = false
  bit : s.spi.bit = 16 - k
  tx : s.spi.tx = some (w <<< k)
  rx : s.spi.rx = some (v >>> (16 - k))
  word : s.spi.word = some w
  out : s.dev.out = some v
  events : s.traceSpi.map Stamped.event = old ++ [.csFall] ++ (List.range k).flatMap (bitEvents w v)
  time : t₀ + bitsLeast k ≤ s.t

/-- The same with SCLK high, the bit already sampled. -/
structure MidBit (w v : Half) (old : List SpiEvent) (t₀ k : Nat) (s : State) : Prop where
  phase : s.spi.phase = .shift
  sclk : s.spi.sclk = true
  bit : s.spi.bit = 16 - k
  tx : s.spi.tx = some (w <<< k)
  rx : s.spi.rx = some (v >>> (15 - k))
  word : s.spi.word = some w
  out : s.dev.out = some v
  events : s.traceSpi.map Stamped.event =
    old ++ [.csFall] ++ (List.range k).flatMap (bitEvents w v) ++ [.sckRise (w.getLsbD (15 - k)) (v.getLsbD (15 - k))]
  time : t₀ + bitsLeast k + (if k = 0 then Config.tCss else half) ≤ s.t

section
variable {w v : Half} {old : List SpiEvent} {t₀ k : Nat} {s : State}

/-- The rising edge samples the sensor's bit. -/
theorem MidFrame.risen (h : MidFrame w v old t₀ k s) (hk : k < 16) : MidBit w v old t₀ k (spiEngineStep s) := by
  have hphase : s.spi.phase = if k = 0 then .setup else .shift := by rw [h.phase, if_pos hk]
  have hbegun : s.spi.phase = .setup ∨ s.spi.phase = .shift := by
    rw [hphase]
    exact ite_eq_or_eq _ _ _
  have hleast : riseLeast s.spi.phase = if k = 0 then Config.tCss else half := by
    rw [hphase, riseLeast]
    by_cases hzero : k = 0 <;> simp [hzero]
  have hbit : s.spi.bit - 1 = 15 - k := by rw [h.bit]; omega
  have hmosi : (w <<< k).getLsbD 15 = w.getLsbD (15 - k) := by
    rw [BitVec.getLsbD_shiftLeft]
    simp [Nat.not_lt.2 (Nat.le_of_lt_succ hk)]
  have hrx : rxShiftIn (v >>> (16 - k)) (v.getLsbD (15 - k)) = v >>> (15 - k) := by
    rw [show 16 - k = 15 - k + 1 by omega, rxShiftIn_ushiftRight]
  rw [spiEngineStep_eq_spiRise hbegun h.sclk (by rw [h.bit]; omega), spiRise_eq h.tx h.rx h.out, hbit, hleast, hmosi, hrx]
  exact ⟨rfl, rfl, h.bit, h.tx, rfl, h.word, h.out, by simp [h.events], by have := h.time; dsimp only; omega⟩

/-- The falling edge presents the next bit, or ends the last one. -/
theorem MidBit.fallen (h : MidBit w v old t₀ k s) (hk : k < 16) :
    MidFrame w v old t₀ (k + 1) (spiEngineStep s) := by
  have hbit : s.spi.bit - 1 = 16 - (k + 1) := by rw [h.bit]; omega
  rw [spiEngineStep_eq_spiFall h.phase h.sclk, spiFall_eq h.tx]
  refine ⟨?_, rfl, hbit, congrArg some (BitVec.shiftLeft_add ..).symm, ?_, h.word, h.out, ?_, ?_⟩
  · simp only [SpiUnit.fallen, hbit, h.phase, Nat.add_eq_zero_iff, one_ne_zero, and_false, if_false]
    exact if_congr (by omega) rfl rfl
  · exact h.rx.trans (by rw [show 15 - k = 16 - (k + 1) by omega])
  · simp [h.events, List.range_succ, bitEvents]
  · have := h.time
    simp only [bitsLeast]
    omega

theorem MidFrame.bitMoved (h : MidFrame w v old t₀ k s) (hk : k < 16) :
    MidFrame w v old t₀ (k + 1) (spiEngineStep^[2] s) := (h.risen hk).fallen hk

/-- By induction on the bits: `2 * k` steps move `k` of them. -/
theorem MidFrame.bitsMoved (h : MidFrame w v old t₀ 0 s) :
    ∀ k ≤ 16, MidFrame w v old t₀ k ((spiEngineStep^[2])^[k] s)
  | 0, _ => h
  | k + 1, hk => by
    rw [Function.iterate_succ_apply']
    exact (h.bitsMoved k (by omega)).bitMoved (by omega)

end

/-- Settles O20: the frame's start, its sixteen bits, and its end. -/
theorem frameDeliversWords : Obligations.FrameDeliversWords := by
  intro w s hconfigured hidle hpending hdone hsclk
  obtain ⟨tFall, v, e, hgap, hstart⟩ := startFrame_fields s
  have hexec : exec (.spiXfer w) s = .next (startFrame w s) := by
    change Host.Outcome.next (spiTransfer w returnWord s) = _
    rw [spiTransfer_of_new w _ hidle hdone, beginFrame_of_idle w hconfigured hidle hpending]
  have hbegun : MidFrame w v (s.traceSpi.map Stamped.event) tFall 0 (startFrame w s) := by
    rw [hstart]
    have hrx : v >>> 16 = 0#16 := BitVec.ushiftRight_eq_zero (Nat.le_refl 16)
    exact ⟨rfl, hsclk, rfl, by simp, congrArg some hrx.symm, rfl, rfl, by simp, Nat.le_refl _⟩
  have hlast := hbegun.bitsMoved 16 (Nat.le_refl _)
  have hout : (startFrame w s).dev.out = some v := hbegun.out
  have htime : (startFrame w s).t = tFall := by rw [hstart]
  refine ⟨_, v, hexec, hout, by rwa [htime], ?_⟩
  generalize hu : (spiEngineStep^[2])^[16] (startFrame w s) = u at hlast
  obtain ⟨reg, e', -, hfinish⟩ := spiFinishFrame_eq hlast.rx hlast.word
  have hend : spiEngineStep^[33] (startFrame w s) = spiFinishFrame u := by
    rw [show 33 = 2 * 16 + 1 from rfl, Function.iterate_succ_apply', Function.iterate_mul, hu]
    exact spiEngineStep_eq_spiFinishFrame hlast.phase
  have htotal := hlast.time
  rw [bitsLeast_frame] at htotal
  rw [hend, hfinish, htime]
  have hleast : tFall + (Config.tCss + 31 * half + Config.tCsh) ≤ u.t + (Config.tCsh + u.peek) := by omega
  refine ⟨by simp, rfl, rfl, ?_, hleast, Nat.le_trans (Nat.add_le_add_left frameLeast_ge _) hleast⟩
  simp only [List.map_append, hlast.events, frameEvents_eq, List.append_assoc, List.map_cons, List.map_nil]

end Sys2Proof.Machine
end

section
/-! The reader's write phase on the bus (spec/42_i2c_transactor.md R213): the START, the two bytes with their acknowledges,
and the hold or the STOP they lead to. -/

namespace Sys2Proof.Machine

/-! The environment's answers. -/

/-- The environment after `n` more answers (log 1). -/
def Env.after (n : Nat) (e : Env) : Env := { e with draws := e.draws.drop n, drawn := e.drawn + n }

section
variable {s s₀ : State} {n : Nat}

theorem peek_of_after (h : s.env = s₀.env.after n) : s.peek = s₀.answer n := by
  rw [State.peek, h]
  rfl

theorem pop_env_of_after (h : s.env = s₀.env.after n) : s.pop.env = s₀.env.after (n + 1) := by
  simp only [State.pop, h, Env.after, List.tail_drop, Nat.add_assoc]

theorem pop_peekBit_of_after (h : s.env = s₀.env.after n) : s.pop.peekBit = (s₀.answer (n + 1) % 2 == 1) := by
  rw [State.peekBit, peek_of_after (pop_env_of_after h)]

end

/-! A byte sent, bit by bit. -/

/-- The controller, with the byte `b` in its shift register, once it has sent `k` bits of it (R187). -/
def I2cUnit.bitsSent (b : Byte) (k : Nat) (u : I2cUnit) : I2cUnit :=
  { u with
    shift := some (b <<< k), bit := 8 - k
    phase := if k < 8 then u.phase else if u.phase = .addr then .addrAck else .txAck
    sclDrive := if k = 0 then u.sclDrive else .low
    sdaDrive := if k = 0 then u.sdaDrive else .ofBit (b <<< (k - 1)).msb }

theorem I2cUnit.bitsSent_zero {b : Byte} {u : I2cUnit} (hshift : u.shift = some b) (hbit : u.bit = 8) :
    u.bitsSent b 0 = u := by
  cases u
  simp_all [I2cUnit.bitsSent]

theorem I2cUnit.bitSent_bitsSent {b : Byte} {k : Nat} (u : I2cUnit) (hk : k < 8) :
    (u.bitsSent b k).bitSent (b <<< k) = u.bitsSent b (k + 1) := by
  have hlast : (if 8 - k - 1 = 0 then (if u.phase = .addr then .addrAck else .txAck) else u.phase) =
      if k + 1 < 8 then u.phase else if u.phase = .addr then .addrAck else EngPhase.txAck := by
    rw [← ite_not]
    exact if_congr (by omega) rfl rfl
  simp only [I2cUnit.bitSent, I2cUnit.bitsSent, if_pos hk, hlast, shiftOut, BitVec.shiftLeft_add, Nat.add_eq_zero_iff,
    one_ne_zero, and_false, if_false, Nat.add_sub_cancel]
  rfl

/-- The controller with `TXDR` in its shift register (R192). -/
def I2cUnit.loaded (u : I2cUnit) : I2cUnit :=
  { u with shift := some u.txdr, isr := u.isr.txdrLoaded, bit := 8, phase := .txByte }

/-! The engine's steps from a state on. -/

/-- From `s₀` on, `m` steps of the engine draw `n` answers, put the events `evs` on the bus and leave the controller as `u`;
SCL is free. -/
structure EngineReaches (s₀ : State) (m n : Nat) (evs : List I2cEvent) (u : I2cUnit) : Prop where
  free : (i2cEngineStep^[m] s₀).sl.sclHold = false
  env : (i2cEngineStep^[m] s₀).env = s₀.env.after n
  events : (i2cEngineStep^[m] s₀).traceI2c.map Stamped.event = s₀.traceI2c.map Stamped.event ++ evs
  unit : (i2cEngineStep^[m] s₀).i2c = u

namespace EngineReaches

section
variable {s₀ : State} {m n n' : Nat} {evs : List I2cEvent} {u u' : I2cUnit}

theorem refl (hfree : s₀.sl.sclHold = false) : EngineReaches s₀ 0 0 [] s₀.i2c :=
  ⟨hfree, rfl, (List.append_nil _).symm, rfl⟩

/-- One more step, with its event. -/
theorem bus {d : Nat} {ev : I2cEvent} {sda : Drive} {e : Env} (h : EngineReaches s₀ m n evs u)
    (hstep : i2cEngineStep (i2cEngineStep^[m] s₀) = (i2cEngineStep^[m] s₀).busStep d ev u' sda e)
    (he : e = s₀.env.after n') : EngineReaches s₀ (m + 1) n' (evs ++ [ev]) u' := by
  rw [← Function.iterate_succ_apply' i2cEngineStep] at hstep
  constructor
  · rw [hstep]; exact h.free
  · rw [hstep]; exact he
  · rw [hstep]; simp [State.busStep, h.events]
  · rw [hstep]; rfl

theorem started (h : EngineReaches s₀ m n evs u) (hphase : u.phase = .idle) (hstart : cr2Start u.cr2 = true) :
    EngineReaches s₀ (m + 1) (n + 1) (evs ++ [.start]) u.started := by
  have hrule := engRule_start (s := i2cEngineStep^[m] s₀) (by rwa [h.unit]) (.inl (by rwa [h.unit]))
  have hstep := (i2cEngineStep_of_rule hrule).trans (engStart_eq _)
  rw [h.unit, if_pos hphase] at hstep
  exact h.bus hstep (pop_env_of_after h.env)

theorem bitSent {b : Byte} (h : EngineReaches s₀ m n evs u) (hphase : u.phase = .addr ∨ u.phase = .txByte)
    (hbit : 0 < u.bit) (hshift : u.shift = some b) :
    EngineReaches s₀ (m + 1) (n + 1) (evs ++ [.bitM b.msb]) (u.bitSent b) := by
  have hrule := engRule_sendBit (s := i2cEngineStep^[m] s₀) (by rwa [h.unit]) h.free (by rwa [h.unit])
  have hstep := (i2cEngineStep_of_rule hrule).trans (engSendBit_eq (b := b) (by rwa [h.unit]))
  rw [h.unit] at hstep
  exact h.bus hstep (pop_env_of_after h.env)

/-- By induction on the bits, most significant first. -/
theorem bitsSent {b : Byte} (h : EngineReaches s₀ m n evs u) (hphase : u.phase = .addr ∨ u.phase = .txByte)
    (hbit : u.bit = 8) (hshift : u.shift = some b) :
    ∀ k ≤ 8, EngineReaches s₀ (m + k) (n + k) (evs ++ (List.range k).map fun i => .bitM (b.getLsbD (7 - i)))
      (u.bitsSent b k)
  | 0, _ => by
    rw [I2cUnit.bitsSent_zero hshift hbit]
    exact (List.append_nil evs).symm ▸ h
  | k + 1, hk => by
    have hmsb : (b <<< k).msb = b.getLsbD (7 - k) := by
      rw [BitVec.msb_eq_getLsbD_last, BitVec.getLsbD_shiftLeft]
      simp [Nat.not_lt.2 (Nat.le_of_lt_succ hk)]
    have hsame : (u.bitsSent b k).phase = u.phase := if_pos hk
    have hnext := (h.bitsSent hphase hbit hshift k (Nat.le_of_lt hk)).bitSent (b := b <<< k) (hsame ▸ hphase)
      (Nat.sub_pos_of_lt hk) rfl
    rw [I2cUnit.bitSent_bitsSent u hk, hmsb, List.append_assoc] at hnext
    rw [List.range_succ, List.map_append]
    exact hnext

/-- A byte sent (R211). -/
theorem byteSent {b : Byte} (h : EngineReaches s₀ m n evs u) (hphase : u.phase = .addr ∨ u.phase = .txByte)
    (hbit : u.bit = 8) (hshift : u.shift = some b) :
    EngineReaches s₀ (m + 8) (n + 8) (evs ++ byteM b) (u.bitsSent b 8) :=
  h.bitsSent hphase hbit hshift 8 (Nat.le_refl 8)

/-- The acknowledge of the address byte: the second of its two answers. -/
theorem addrAcked {a : Bool} (h : EngineReaches s₀ m n evs u) (hphase : u.phase = .addrAck)
    (ha : (s₀.answer (n + 1) % 2 == 1) = a) :
    EngineReaches s₀ (m + 1) (n + 2) (evs ++ [.bitS a]) (u.listening.addrAcked a) := by
  have hrule := engRule_addrAck (s := i2cEngineStep^[m] s₀) (by rwa [h.unit]) h.free
  have hstep := (i2cEngineStep_of_rule hrule).trans (engAddrAck_eq _)
  rw [h.unit, pop_peekBit_of_after h.env, ha] at hstep
  exact h.bus hstep (pop_env_of_after (pop_env_of_after h.env))

/-- The acknowledge of a data byte. -/
theorem dataAcked {a : Bool} (h : EngineReaches s₀ m n evs u) (hphase : u.phase = .txAck)
    (ha : (s₀.answer (n + 1) % 2 == 1) = a) :
    EngineReaches s₀ (m + 1) (n + 2) (evs ++ [.bitS a]) (u.listening.dataAcked a) := by
  have hrule := engRule_dataAck (s := i2cEngineStep^[m] s₀) (by rwa [h.unit]) h.free
  have hstep := (i2cEngineStep_of_rule hrule).trans (engDataAck_eq _)
  rw [h.unit, pop_peekBit_of_after h.env, ha] at hstep
  exact h.bus hstep (pop_env_of_after (pop_env_of_after h.env))

theorem stopped (h : EngineReaches s₀ m n evs u) (hphase : u.phase = .stopPend) :
    EngineReaches s₀ (m + 1) (n + 1) (evs ++ [.stop]) u.stopped := by
  have hrule := engRule_stop (s := i2cEngineStep^[m] s₀) (by rwa [h.unit]) h.free
  have hstep := (i2cEngineStep_of_rule hrule).trans (engStop_eq _)
  rw [h.unit] at hstep
  exact h.bus hstep (pop_env_of_after h.env)

/-- The transmit load, which draws no answer and puts nothing on the bus (R192). -/
theorem loaded (h : EngineReaches s₀ m n evs u) (hphase : u.phase = .txWait) (htxe : u.isr.txe = false) :
    EngineReaches s₀ (m + 1) n evs u.loaded := by
  have hstep : i2cEngineStep (i2cEngineStep^[m] s₀) =
      { i2cEngineStep^[m] s₀ with i2c := (i2cEngineStep^[m] s₀).i2c.loaded } := by
    refine i2cEngineStep_of_rule (r := .txLoad) ?_
    rw [engRule_txWait (by rwa [h.unit]), h.unit, htxe]
    rfl
  rw [← Function.iterate_succ_apply' i2cEngineStep] at hstep
  constructor
  · rw [hstep]; exact h.free
  · rw [hstep]; exact h.env
  · rw [hstep]; exact h.events
  · rw [hstep]; exact congrArg I2cUnit.loaded h.unit

end

end EngineReaches

/-! The write phase. -/

/-- The controller with the reader's write phase requested: `CR2` and `TXDR` written (spec/43_i2c_reader.md R225). -/
def I2cUnit.requested (slave : BitVec 7) (reg : Byte) (u : I2cUnit) : I2cUnit :=
  { u with cr2 := cr2Wr slave, txdr := reg, isr := u.isr.txdrWritten }

/-- The controller once its START is on the bus: one byte to write, none by itself to end it. -/
def I2cUnit.addressed (slave : BitVec 7) (reg : Byte) (u : I2cUnit) : I2cUnit :=
  { u with
    cr2 := cr2Wr slave, txdr := reg, isr := u.isr.txdrWritten.busTaken, owner := true
    dir := false, autoend := false, cnt := 1, shift := some (slave ++ 0#1), bit := 8, phase := .addr
    sclDrive := .low, sdaDrive := .low }

/-- What the engine takes from the write phase's `CR2` (spec/30_encoding.md R95). -/
theorem cr2Wr_transfer (slave : BitVec 7) :
    cr2Read (cr2Wr slave) = false ∧ cr2Autoend (cr2Wr slave) = false ∧ addressByte (cr2Wr slave) = slave ++ 0#1 := by
  revert slave; decide +kernel

theorem cr2Wr_afterAddress (slave : BitVec 7) :
    cr2Start (cr2ClearStart (cr2Wr slave)) = false ∧ cr2Stop (cr2ClearStart (cr2Wr slave)) = false := by
  revert slave; decide +kernel

theorem I2cUnit.started_requested (slave : BitVec 7) (reg : Byte) {u : I2cUnit} (hphase : u.phase = .idle) :
    (u.requested slave reg).started = u.addressed slave reg := by
  obtain ⟨hdir, hautoend, haddress⟩ := cr2Wr_transfer slave
  obtain ⟨-, -, -, hcount⟩ := cr2Wr_facts slave
  simp only [I2cUnit.started, I2cUnit.requested, I2cUnit.addressed, hphase, hdir, hautoend, haddress, hcount, if_true]
  rfl

/-- In the hold with no request pending the engine does nothing (R184). -/
theorem i2cEngineStep_of_hold {s : State} (hphase : s.i2c.phase = .tcHold) (hstart : cr2Start s.i2c.cr2 = false)
    (hstop : cr2Stop s.i2c.cr2 = false) : i2cEngineStep s = s := by
  refine i2cEngineStep_of_no_rule ?_
  simp [engRule, hphase, hstart, hstop]

/-- `I2C_START_READ` in an idle reader over an idle controller (spec/43_i2c_reader.md R225). -/
theorem exec_i2cStartRead_of_idle (slave : BitVec 7) (reg : Byte) (buf : Word) {len : Byte} {s : State}
    (hlen : len ≠ 0#8) (hreader : s.rd.state = .idle) (hphase : s.i2c.phase = .idle)
    (hstart : s.i2c.cr2.getLsbD 13 = false) (hstop : s.i2c.cr2.getLsbD 14 = false) :
    ∃ s₁, exec (.i2cStartRead slave reg buf len) s = .next s₁ ∧ s₁.i2c = s.i2c.requested slave reg ∧
      s₁.sl = s.sl ∧ s₁.traceI2c = s.traceI2c := by
  have hfree : ¬(s.i2c.cr2.getLsbD 14 = true ∨ transferActive s) := by
    rintro (hset | hactive)
    · exact absurd (hstop.symm.trans hset) (by decide)
    · exact hactive.1 hphase
  have h := startReadFollowsItsRule slave reg buf len s
  rw [if_neg hlen, if_neg (not_not_intro hreader), if_neg (Bool.eq_false_iff.1 hstart), if_neg hfree] at h
  exact ⟨_, h, rfl, rfl, rfl⟩

section
variable {slave : BitVec 7} {reg : Byte} {u : I2cUnit} {s₁ : State}

/-- The controller with the address byte sent. -/
abbrev I2cUnit.addressSent (slave : BitVec 7) (reg : Byte) (u : I2cUnit) : I2cUnit :=
  (u.addressed slave reg).bitsSent (slave ++ 0#1) 8

/-- The controller with the register byte sent, the address byte acknowledged before it. -/
abbrev I2cUnit.registerSent (slave : BitVec 7) (reg : Byte) (u : I2cUnit) : I2cUnit :=
  ((u.addressSent slave reg).listening.addrAcked false).loaded.bitsSent reg 8

theorem addressSent_reached (hunit : s₁.i2c = u.requested slave reg) (hphase : u.phase = .idle)
    (hfree : s₁.sl.sclHold = false) :
    EngineReaches s₁ 9 9 ([.start] ++ byteM (slave ++ 0#1)) (u.addressSent slave reg) := by
  have hbegin : EngineReaches s₁ 0 0 [] (u.requested slave reg) := hunit ▸ EngineReaches.refl hfree
  have hstarted := hbegin.started hphase (cr2Wr_facts slave).2.1
  rw [I2cUnit.started_requested slave reg hphase] at hstarted
  exact hstarted.byteSent (.inl rfl) rfl rfl

theorem registerSent_reached (hunit : s₁.i2c = u.requested slave reg) (hphase : u.phase = .idle)
    (hfree : s₁.sl.sclHold = false) (hack : s₁.answer 10 % 2 = 0) :
    EngineReaches s₁ 19 19 ([.start] ++ byteM (slave ++ 0#1) ++ [.bitS false] ++ byteM reg)
      (u.registerSent slave reg) := by
  have haddress := (addressSent_reached hunit hphase hfree).addrAcked (a := false) rfl (by rw [hack]; rfl)
  exact (haddress.loaded rfl rfl).byteSent (.inr rfl) rfl rfl

end

/-- Settles O44: the two bytes with their acknowledges, and the STOP after the one that the slave refuses. -/
theorem writePhasePutsTheseEventsOnTheBus : Obligations.WritePhasePutsTheseEventsOnTheBus := by
  intro slave reg buf len s hlen hreader hphase hstart hstop hfree
  obtain ⟨s₁, hexec, hunit, hline, htrace⟩ := exec_i2cStartRead_of_idle slave reg buf hlen hreader hphase hstart hstop
  have hfree₁ : s₁.sl.sclHold = false := by rwa [hline]
  refine ⟨s₁, hexec, fun hack hdata => ?_, fun hnack => ?_, fun hack hnack => ?_⟩
  · have hregister := registerSent_reached hunit hphase hfree₁ hack
    have hdone := hregister.dataAcked (a := false) rfl (by rw [hdata]; rfl)
    obtain ⟨hnoStart, hnoStop⟩ := cr2Wr_afterAddress slave
    have hphase₂ := congrArg I2cUnit.phase hdone.unit
    have hcr2 := congrArg I2cUnit.cr2 hdone.unit
    refine ⟨?_, hphase₂, congrArg (·.isr.tc) hdone.unit, i2cEngineStep_of_hold hphase₂ ?_ ?_⟩
    · simpa only [htrace, List.append_assoc] using hdone.events
    · exact (congrArg cr2Start hcr2).trans hnoStart
    · exact (congrArg cr2Stop hcr2).trans hnoStop
  · have haddress := addressSent_reached hunit hphase hfree₁
    have hdone := (haddress.addrAcked (a := true) rfl (by rw [hnack]; rfl)).stopped rfl
    refine ⟨?_, congrArg (·.isr.nackf) hdone.unit⟩
    simpa only [htrace, List.append_assoc, List.cons_append, List.nil_append] using hdone.events
  · have hregister := registerSent_reached hunit hphase hfree₁ hack
    have hdone := (hregister.dataAcked (a := true) rfl (by rw [hnack]; rfl)).stopped rfl
    refine ⟨?_, congrArg (·.isr.nackf) hdone.unit⟩
    simpa only [htrace, List.append_assoc, List.cons_append, List.nil_append] using hdone.events

end Sys2Proof.Machine
end

section
/-! The awaits and the end of every frame (spec/44_host_program.md R256, R258): an operation at its await changes nothing,
and in a fair run the engine's steps use up the edges that the frame has left. -/

namespace Sys2Proof.Machine

/-! The awaits. -/

theorem frameReady_of_running {s : State} (hrun : s.spi.phase ≠ .idle) : frameReady s = false := by
  simp [frameReady, hrun]

theorem frameInProgress_of_running {s : State} (hpending : s.spi.pending = false) (hrun : s.spi.phase ≠ .idle) :
    frameInProgress s = true := by
  simp [frameInProgress, hpending, hrun]

theorem splitFinish_of_running {s : State} (hpending : s.spi.pending = true) (hrun : s.spi.phase ≠ .idle) :
    splitFinish s = s := by
  simp only [splitFinish, hpending, frameReady_of_running hrun, Bool.not_true, Bool.false_eq_true, if_false]

/-- The filter sequence in a frame of its own does what a blocking transfer does. -/
theorem filterStep_of_running {s : State} (f : Half) (hpending : s.spi.pending = false) (hrun : s.spi.phase ≠ .idle)
    (hfs : s.enc.fs = .rdCmd ∨ s.enc.fs = .rdBack ∨ s.enc.fs = .wrCmd ∨ s.enc.fs = .verify) : filterStep f s = s := by
  rcases hfs with hfs | hfs | hfs | hfs
  · rw [filterStep_rdCmd f hfs, spiTransfer_of_running _ _ hpending hrun]
  · rw [filterStep_rdBack f hfs, spiTransfer_of_running _ _ hpending hrun]
  · rw [filterStep_wrCmd f hfs, spiTransfer_of_running _ _ hpending hrun]
  · rw [filterStep_verify f hfs, spiTransfer_of_running _ _ hpending hrun]

/-- An operation at its await: it changes nothing and is held (R256). -/
theorem awaiting_holds {i : Instr} {s : State} (hrun : s.spi.phase ≠ .idle)
    (hi : (s.spi.pending = false ∧ ((∃ w, i = .spiXfer w) ∨ i = .encSample ∨
        ∃ f, i = .encSetFilterUs f ∧
          (s.enc.fs = .rdCmd ∨ s.enc.fs = .rdBack ∨ s.enc.fs = .wrCmd ∨ s.enc.fs = .verify))) ∨
      (s.spi.pending = true ∧ (i = .spiFinish ∨ i = .encFinishSample))) :
    exec i s = .next s ∧ held i s = true := by
  have hready := frameReady_of_running hrun
  rcases hi with ⟨hpending, ⟨w, rfl⟩ | rfl | ⟨f, rfl, hfs⟩⟩ | ⟨hpending, rfl | rfl⟩
  · have hprogress := frameInProgress_of_running hpending hrun
    exact ⟨congrArg _ (spiTransfer_of_running w _ hpending hrun), by simp [held, hprogress, hready]⟩
  · have hprogress := frameInProgress_of_running hpending hrun
    exact ⟨congrArg _ (spiTransfer_of_running wNop _ hpending hrun), by simp [held, hprogress, hready]⟩
  · have hprogress := frameInProgress_of_running hpending hrun
    exact ⟨congrArg _ (filterStep_of_running f hpending hrun hfs), by simp [held, hprogress, hready, hfs, or_assoc]⟩
  · exact ⟨congrArg _ (splitFinish_of_running hpending hrun), by simp [held, hpending, hready]⟩
  · exact ⟨congrArg _ (splitFinish_of_running hpending hrun), by simp [held, hpending, hready]⟩

/-! The edges a frame has left. -/

/-- The steps of the engine until the frame has ended: two edges for each bit left, and the frame end. -/
def SpiUnit.stepsLeft (u : SpiUnit) : Nat :=
  match u.phase with
  | .idle => 0
  | .hold => 1
  | .setup => 2 * u.bit + 1
  | .shift => if u.sclk then 2 * u.bit else 2 * u.bit + 1

/-- While a frame runs the engine has a step (spec/40_spi_transactor.md R115). -/
theorem SpiInv.engine_enabled {s : State} (h : SpiInv s) (hrun : s.spi.phase ≠ .idle) : enabled s .spiEngine = true := by
  cases hphase : s.spi.phase with
  | idle => exact absurd hphase hrun
  | hold => simp [enabled, spiRule, hphase]
  | setup =>
    have hsclk : s.spi.sclk = false := by
      by_contra hhigh
      simpa [hphase] using h.sclkHigh (by simpa using hhigh)
    simp [enabled, spiRule, hphase, hsclk, h.setupBits hphase]
  | shift =>
    have hbit : 0 < s.spi.bit := (h.shiftBits hphase).1
    cases hsclk : s.spi.sclk <;> simp [enabled, spiRule, hphase, hsclk, hbit]

/-- Each step of the engine leaves fewer, and the last one delivers the result. -/
theorem SpiInv.engine_progress {s t : State} (h : SpiInv s) (hrun : s.spi.phase ≠ .idle) (hmove : SpiEngineMove s t) :
    t.spi.stepsLeft < s.spi.stepsLeft ∧ (t.spi.phase = .idle → t.spi.done = true) := by
  cases hmove with
  | none hnone =>
    have henabled := h.engine_enabled hrun
    simp [enabled, hnone] at henabled
  | rise tx rx out hphase hsclk hbit =>
    rcases hphase with hphase | hphase <;> simp [SpiUnit.stepsLeft, hphase, hsclk]
  | fall tx hphase hsclk =>
    have hbit := (h.shiftBits hphase).1
    by_cases hlast : s.spi.bit = 1
    · simp [SpiUnit.stepsLeft, SpiUnit.fallen, hphase, hsclk, hlast]
    · have hleft : 0 < s.spi.bit - 1 := by omega
      simp [SpiUnit.stepsLeft, SpiUnit.fallen, hphase, hsclk, hleft]
      omega
  | finish rx w reg e hphase => simp [SpiUnit.stepsLeft, hphase]
  | unwritten _ hmissing => exact absurd (h.frameWords hrun) hmissing

/-- While a frame runs, no agent but the engine touches the SPI unit. -/
theorem agentStep_spi_eq {a : Agent} {s t : State} (ha : a ≠ .spiEngine) (hrun : s.spi.phase ≠ .idle)
    (h : agentStep a s = .next t) : t.spi = s.spi := by
  cases a with
  | spiEngine => exact absurd rfl ha
  | i2cEngine =>
    cases h
    exact (spiSide_eq_of_graft (i2cEngineStep_ignoresSpiSide.keeps (s := s) rfl)).1
  | i2cSlave =>
    cases h
    exact (spiSide_eq_of_graft (i2cSlaveStep_ignoresSpiSide.keeps (s := s) rfl)).1
  | host =>
    cases hfetch : fetch s with
    | error x =>
      rw [hostStep_of_fetch_error hfetch] at h
      cases h
      rfl
    | ok i =>
      rw [hostStep_of_fetch_ok hfetch] at h
      refine (exec_executes h).keeps (P := fun u => u.spi = s.spi) (fun u v heffect hu => ?_)
        (fun u v hends hu => hends.spi_eq.1.trans hu) rfl
      have hrun' : u.spi.phase ≠ .idle := by rwa [hu]
      cases heffect with
      | configure hidle _ => exact absurd hidle hrun'
      | load w tFall v split hcheck _ => exact absurd (frameCheck_eq_none.1 hcheck).2.1 hrun'
      | take pending _ hready => exact absurd hready (by simp [frameReady, hrun'])
      | _ => exact hu

/-! A run. -/

section
variable {boot : BootI2c} {run : Nat → State} {turn : Nat → Agent} {n : Nat}

/-- Once the unit is consistent it stays so. -/
theorem Run.spiInv (hrun : Run boot run turn) (h : SpiInv (run n)) (d : Nat) : SpiInv (run (n + d)) := by
  induction d with
  | zero => exact h
  | succ d ih =>
    obtain ⟨e, hstep⟩ := step_of_moves (hrun.moves (n + d))
    have henv : SpiInv { run (n + d) with env := e } := ih.congr rfl rfl
    exact henv.step hstep

/-- Until the engine's turn comes the unit is as it was. -/
theorem Run.spi_eq (hrun : Run boot run turn) (hframe : (run n).spi.phase ≠ .idle) (d : Nat)
    (hwait : ∀ j < d, turn (n + j) ≠ .spiEngine) : (run (n + d)).spi = (run n).spi := by
  induction d with
  | zero => rfl
  | succ d ih =>
    have hsame := ih fun j hj => hwait j (Nat.lt_succ_of_lt hj)
    obtain ⟨-, -, e, hstep⟩ := hrun.moves (n + d)
    exact (agentStep_spi_eq (hwait d (Nat.lt_succ_self d)) (by rwa [hsame]) hstep).trans hsame

/-- In a fair run the engine's turn comes, with the unit as it was. -/
theorem FairRun.engineTurn (hrun : FairRun boot run turn) (h : SpiInv (run n)) (hframe : (run n).spi.phase ≠ .idle) :
    ∃ d, turn (n + d) = .spiEngine ∧ (run (n + d)).spi = (run n).spi := by
  have hturn : ∃ d, turn (n + d) = .spiEngine := by
    by_contra hnever
    have hwait (d : Nat) : turn (n + d) ≠ .spiEngine := fun hd => hnever ⟨d, hd⟩
    have hsame (d : Nat) : (run (n + d)).spi = (run n).spi :=
      hrun.toRun.spi_eq hframe d fun j _ => hwait j
    obtain ⟨m, hm, hagent⟩ := hrun.fair .spiEngine rfl n fun m hm => by
      obtain ⟨d, rfl⟩ := Nat.exists_eq_add_of_le hm
      exact (hrun.toRun.spiInv h d).engine_enabled (by rwa [hsame])
    obtain ⟨d, rfl⟩ := Nat.exists_eq_add_of_le hm
    exact hwait d hagent
  exact ⟨Nat.find hturn, Nat.find_spec hturn, hrun.toRun.spi_eq hframe _ fun j hj => Nat.find_min hturn hj⟩

/-- By induction on the steps left: the frame ends, with its result delivered. -/
theorem FairRun.frame_ends (hrun : FairRun boot run turn) (h : SpiInv (run n)) (hframe : (run n).spi.phase ≠ .idle) :
    ∃ m, n ≤ m ∧ (run m).spi.phase = .idle ∧ (run m).spi.done = true := by
  induction hleft : (run n).spi.stepsLeft using Nat.strong_induction_on generalizing n with
  | _ left ih =>
    obtain ⟨d, hturn, hsame⟩ := hrun.engineTurn h hframe
    have hinv := hrun.toRun.spiInv h d
    obtain ⟨-, -, e, hstep⟩ := hrun.moves (n + d)
    rw [hturn] at hstep
    have hnext : spiEngineStep { run (n + d) with env := e } = run (n + d + 1) := Host.Outcome.next.inj hstep
    have hmove := spiEngineStep_move { run (n + d) with env := e }
    rw [hnext] at hmove
    have hinv' : SpiInv { run (n + d) with env := e } := hinv.congr rfl rfl
    obtain ⟨hless, hdone⟩ := hinv'.engine_progress (by simpa [hsame] using hframe) hmove
    by_cases hidle : (run (n + d + 1)).spi.phase = .idle
    · exact ⟨n + d + 1, by omega, hidle, hdone hidle⟩
    · have hfewer : (run (n + d + 1)).spi.stepsLeft < left := by
        rw [← hleft, ← hsame]
        exact hless
      obtain ⟨m, hm, hend⟩ := ih _ hfewer (hrun.toRun.spiInv h (d + 1)) hidle rfl
      exact ⟨m, by omega, hend⟩

end

/-- Settles O13: the await holds, and in a fair run the frame it waits for ends. -/
theorem awaitingHostHolds : Obligations.AwaitingHostHolds := by
  refine ⟨fun i s hrun hi => ?_, fun boot run turn n hfair h hframe => hfair.frame_ends h hframe⟩
  obtain ⟨hexec, hheld⟩ := awaiting_holds hrun hi
  refine ⟨hexec, fun hfetch => ?_⟩
  rw [enabled_host_of_fetch_ok hfetch, hheld, Bool.not_true, Bool.and_false]

end Sys2Proof.Machine
end
